-- ==== Sys2Proof/Word.lean ====
section
/-!
DEFINITION. The two word types of the block: the 16-bit register word (00_scope.md R6, R11) and the byte a bus frame is
made of (30_encoding.md R80, R81).
-/
namespace Sys2Proof

/-- A register word, and a BitField word: 16 bits (00_scope.md R6 `WORD_BITS`). -/
abbrev Word := BitVec 16

/-- One byte of a bus frame, or the opcode byte of a command (30_encoding.md R80, R84). -/
abbrev Byte := BitVec 8

/-- The 7 address bits of a bus frame (00_scope.md R6 `ADDR_BITS`). -/
abbrev BusAddr := BitVec 7

end Sys2Proof
end

