-- ==== Sys2Proof/Syntax.lean ====
section
/-!
DEFINITION. The syntax: field and group names, the commands of the block and the two bus frames, one constructor of
`Instr` for each row of spec/opcode_table.json, and the numeric form in which a request reaches the machine.
-/
namespace Sys2Proof

/-- The named fields, in the order of their codes (30_encoding.md R86). -/
inductive FieldId
  | POWERDOWN | RESET | MUXOUT_LD_SEL | FCAL_EN | RAMP_EN
  | CAL_CLK_DIV | OSC_2X | MULT | PLL_R | PLL_R_PRE | PLL_N
  | PLL_DEN | PLL_NUM | OUTA_PWR | OUTB_PWR
  | VCO_CAPCTRL_STRT | QUICK_RECAL_EN | RAMP_THRESH
  | RAMP_LIMIT_HIGH | RAMP_LIMIT_LOW | RAMP0_RST | RAMP_TRIGA
  | RAMP_TRIGB | RAMP_BURST_TRIG | RAMP0_INC | RAMP0_LEN
  | RAMP0_NEXT_TRIG | RAMP0_NEXT | RAMP_MANUAL
  | RAMP_SCALE_COUNT | RAMP_TRIG_CAL | LD_DLY
deriving DecidableEq, Repr

/-- The read groups, in the order of their codes (30_encoding.md R87). -/
inductive GroupId
  | general | inputPath | vcoCalibration | dividerOutput | rampConfig | rampLimits | status
deriving DecidableEq, Repr

/-- The output channel of SET_OUTPUT_POWER (43_ramp_configurator.md R195). -/
inductive Channel
  | A | B
deriving DecidableEq, Repr

/-- One constructor per row of spec/opcode_table.json: the seventeen commands with their typed operands (30_encoding.md
R85, R88 to R90) and the two bus frames (R80, R81). Addresses and data are unbounded naturals, bit indices and field
values are integers, physical quantities are exact rationals (00_scope.md R11). -/
inductive Instr
  /-- SET_BITS word, [low,high], data (40_bitfield.md R110) -/
  | setBits (word : Word) (low high : Int) (data : Nat)
  /-- GET_BITS word, [low,high] (40_bitfield.md R111) -/
  | getBits (word : Word) (low high : Int)
  /-- READ addr (41_register_access.md R122) -/
  | read (addr : Nat)
  /-- WRITE addr, word (R123) -/
  | write (addr : Nat) (word : Word)
  /-- MODIFY addr, [low,high], data (R124) -/
  | modify (addr : Nat) (low high : Int) (data : Nat)
  /-- FIELD_READ f (R127) -/
  | fieldRead (field : FieldId)
  /-- FIELD_WRITE f, v (R128) -/
  | fieldWrite (field : FieldId) (value : Int)
  /-- READ_GROUP g (R130) -/
  | readGroup (group : GroupId)
  /-- GET_FPD (42_frequency_model.md R151) -/
  | getFpd
  /-- GET_FVCO (R152) -/
  | getFvco
  /-- GET_FSMCLK (R153) -/
  | getFsmclk
  /-- CONFIGURE_RAMP span_hz, ramp_duration_s, recal_threshold_hz, descending, free_run (43_ramp_configurator.md R170) -/
  | configureRamp (spanHz durationS thresholdHz : Rat) (descending freeRun : Bool)
  /-- SET_DIVIDER n, num, den (R190) -/
  | setDivider (n num den : Int)
  /-- SET_OUTPUT_POWER channel, level (R195) -/
  | setOutputPower (channel : Channel) (level : Int)
  /-- RESET (44_lifecycle.md R216) -/
  | reset
  /-- UNLOCK (R217) -/
  | unlock
  /-- ARM (R218) -/
  | arm
  /-- WRITE_FRAME: one write transaction on the bus (30_encoding.md R80) -/
  | writeFrame (addr : BusAddr) (data : Word)
  /-- READ_FRAME: one read transaction on the bus (30_encoding.md R81) -/
  | readFrame (addr : BusAddr)
deriving DecidableEq, Repr

/-- A request in numeric form, before it is decoded (30_encoding.md R84, 60_exceptions.md R237): a command record as its
opcode byte and one integer code for each operand place, or the bytes the controller puts on the bus in one chip-select
assertion. The integer codes of the operands are log 8's (DESIGN CHOICE: the spec numbers opcodes, fields and groups only). -/
inductive Request
  | command (opcode : Byte) (operands : List Int)
  | frame (bytes : List Byte)
deriving DecidableEq, Repr

end Sys2Proof
end

