-- ==== Sys2Proof/Decode.lean ====
section
/-!
DEFINITION. The decoder of requests, total and rejecting by name, and the encoder after it. Frames: 30_encoding.md R80 to R83.
Commands: the opcode map of R85, the field codes of R86, the group codes of R87, refused as 60_exceptions.md R237 says. The
spec gives no numeric form of the other operands; the codes used here are log 8's (DESIGN CHOICE, safe).
-/
namespace Sys2Proof

/-- Why a request is not one of the block's: the first four are the refusals 60_exceptions.md R237 lists, the next four are
codes that no operand of the place's type has (30_encoding.md R84: it cannot be expressed), the last three are frames the
controller never sends (R83). -/
inductive Reject
  | badOpcode (opcode : Byte)
  | badField (code : Int)
  | badGroup (code : Int)
  | badChannel (code : Int)
  | badOperandCount (opcode : Byte)
  | badWord (code : Int)
  | badNat (code : Int)
  | badBool (code : Int)
  | badFrameLength (bytes : Nat)
  | badFrameAddress (addr : BusAddr)
  | badFrameDirection (first : Byte)
deriving DecidableEq, Repr

/-! ## Byte order of a frame (20_memory.md R63) -/

/-- The high byte, then the low byte of a word: the order in which both frames carry it (30_encoding.md R80, R81). -/
def wordBytes (w : Word) : List Byte := [w.extractLsb' 8 8, w.extractLsb' 0 8]

/-- The word of a high byte and a low byte (R81: `byte1 * 256 + byte2`). -/
def wordOfBytes (hi lo : Byte) : Word := hi ++ lo

/-- The address bits 6..0 of the first byte of a frame (R82). -/
def frameAddr (b : Byte) : BusAddr := b.extractLsb' 0 7

/-- The first byte of a write frame: bit 7 is 0, bits 6..0 are the address (R80). -/
def writeByte (a : BusAddr) : Byte := (0#1) ++ a

/-- The first byte of a read frame: bit 7 is `READ_FLAG`, bits 6..0 are the address (R81). -/
def readByte (a : BusAddr) : Byte := (1#1) ++ a

/-- The three bytes of a write frame (R80). -/
def writeFrameBytes (a : BusAddr) (w : Word) : List Byte := writeByte a :: wordBytes w

/-- The one byte a read frame sends (R81). -/
def readFrameBytes (a : BusAddr) : List Byte := [readByte a]

/-! ## Codes of the enumerated operands -/

/-- The fields in the order of their codes 0..31 (30_encoding.md R86). -/
def fieldTable : List FieldId :=
  [.POWERDOWN, .RESET, .MUXOUT_LD_SEL, .FCAL_EN, .RAMP_EN,
   .CAL_CLK_DIV, .OSC_2X, .MULT, .PLL_R, .PLL_R_PRE, .PLL_N,
   .PLL_DEN, .PLL_NUM, .OUTA_PWR, .OUTB_PWR,
   .VCO_CAPCTRL_STRT, .QUICK_RECAL_EN, .RAMP_THRESH,
   .RAMP_LIMIT_HIGH, .RAMP_LIMIT_LOW, .RAMP0_RST, .RAMP_TRIGA,
   .RAMP_TRIGB, .RAMP_BURST_TRIG, .RAMP0_INC, .RAMP0_LEN,
   .RAMP0_NEXT_TRIG, .RAMP0_NEXT, .RAMP_MANUAL,
   .RAMP_SCALE_COUNT, .RAMP_TRIG_CAL, .LD_DLY]

/-- The groups in the order of their codes 0..6 (30_encoding.md R87). -/
def groupTable : List GroupId :=
  [.general, .inputPath, .vcoCalibration, .dividerOutput, .rampConfig, .rampLimits, .status]

/-- A field's code: its row number in R86's list. -/
def fieldCode (f : FieldId) : Nat := fieldTable.idxOf f

/-- A group's code (R87). -/
def groupCode (g : GroupId) : Nat := groupTable.idxOf g

/-- Channel A is coded 0 and channel B 1 (log 8). -/
def channelCode : Channel → Int
  | .A => 0
  | .B => 1

/-- Booleans are coded 0 and 1 (log 8). -/
def boolCode (b : Bool) : Int := if b then 1 else 0

/-! ## Reading one operand code -/

/-- A natural operand: no negative code is one. -/
def natOfCode (c : Int) : Except Reject Nat :=
  if 0 ≤ c then .ok c.toNat else .error (.badNat c)

/-- A u16 operand: a natural in [0, 2^16) (30_encoding.md R90). -/
def wordOfCode (c : Int) : Except Reject Word :=
  if 0 ≤ c ∧ c < 65536 then .ok (BitVec.ofNat 16 c.toNat) else .error (.badWord c)

/-- A boolean operand. -/
def boolOfCode (c : Int) : Except Reject Bool :=
  if c = 0 then .ok false else if c = 1 then .ok true else .error (.badBool c)

/-- A rational operand from two codes: the numerator, and the denominator less one (log 8). -/
def ratOfCodes (num den1 : Int) : Except Reject Rat :=
  (natOfCode den1).map fun d => mkRat num (d + 1)

/-- A FieldId: a code outside 0..31 is refused (60_exceptions.md R237). -/
def fieldOfCode (c : Int) : Except Reject FieldId :=
  if c < 0 then .error (.badField c)
  else match fieldTable[c.toNat]? with
    | some f => .ok f
    | none => .error (.badField c)

/-- A GroupId: a code outside 0..6 is refused (R237). -/
def groupOfCode (c : Int) : Except Reject GroupId :=
  if c < 0 then .error (.badGroup c)
  else match groupTable[c.toNat]? with
    | some g => .ok g
    | none => .error (.badGroup c)

/-- A channel that is not A or B is refused (R237). -/
def channelOfCode (c : Int) : Except Reject Channel :=
  if c = 0 then .ok .A else if c = 1 then .ok .B else .error (.badChannel c)

/-! ## The decoder -/

/-- A command record (30_encoding.md R85): its opcode, then its operands in the order R85 lists them. An opcode that R85 does
not list is refused (R98, 60_exceptions.md R237). -/
def decodeCommand (op : Byte) (codes : List Int) : Except Reject Instr :=
  match op.toNat, codes with
  | 0x01, [w, lo, hi, d] => do return .setBits (← wordOfCode w) lo hi (← natOfCode d)
  | 0x02, [w, lo, hi] => do return .getBits (← wordOfCode w) lo hi
  | 0x03, [a] => do return .read (← natOfCode a)
  | 0x04, [a, w] => do return .write (← natOfCode a) (← wordOfCode w)
  | 0x05, [a, lo, hi, d] => do return .modify (← natOfCode a) lo hi (← natOfCode d)
  | 0x06, [f] => do return .fieldRead (← fieldOfCode f)
  | 0x07, [f, v] => do return .fieldWrite (← fieldOfCode f) v
  | 0x08, [g] => do return .readGroup (← groupOfCode g)
  | 0x09, [] => return .getFpd
  | 0x0A, [] => return .getFvco
  | 0x0B, [] => return .getFsmclk
  | 0x0C, [sn, sd, tn, td, hn, hd, d, f] => do
    return .configureRamp (← ratOfCodes sn sd) (← ratOfCodes tn td) (← ratOfCodes hn hd) (← boolOfCode d) (← boolOfCode f)
  | 0x0D, [n, num, den] => return .setDivider n num den
  | 0x0E, [c, l] => do return .setOutputPower (← channelOfCode c) l
  | 0x0F, [] => return .reset
  | 0x10, [] => return .unlock
  | 0x11, [] => return .arm
  | n, _ => if 0x01 ≤ n ∧ n ≤ 0x11 then .error (.badOperandCount op) else .error (.badOpcode op)

/-- A frame (30_encoding.md R80 to R83): bit 7 of the first byte selects the direction, a write frame has exactly three bytes
and a read frame sends exactly one, and the address bits are 0..112. -/
def decodeFrame (bytes : List Byte) : Except Reject Instr :=
  match bytes with
  | [b] =>
    if b.msb = false then .error (.badFrameDirection b)
    else if 112 < (frameAddr b).toNat then .error (.badFrameAddress (frameAddr b))
    else .ok (.readFrame (frameAddr b))
  | [b, hi, lo] =>
    if b.msb = true then .error (.badFrameDirection b)
    else if 112 < (frameAddr b).toNat then .error (.badFrameAddress (frameAddr b))
    else .ok (.writeFrame (frameAddr b) (wordOfBytes hi lo))
  | _ => .error (.badFrameLength bytes.length)

/-- The decoder: total on any request. -/
def decode : Request → Except Reject Instr
  | .command op codes => decodeCommand op codes
  | .frame bytes => decodeFrame bytes

/-! ## The encoder -/

/-- The two codes of a rational (log 8). -/
def ratCodes (q : Rat) : List Int := [q.num, (q.den : Int) - 1]

/-- The numeric form of an instruction (30_encoding.md R80, R81, R85 to R87). -/
def encode : Instr → Request
  | .setBits w lo hi d => .command 0x01#8 [w.toNat, lo, hi, d]
  | .getBits w lo hi => .command 0x02#8 [w.toNat, lo, hi]
  | .read a => .command 0x03#8 [a]
  | .write a w => .command 0x04#8 [a, w.toNat]
  | .modify a lo hi d => .command 0x05#8 [a, lo, hi, d]
  | .fieldRead f => .command 0x06#8 [fieldCode f]
  | .fieldWrite f v => .command 0x07#8 [fieldCode f, v]
  | .readGroup g => .command 0x08#8 [groupCode g]
  | .getFpd => .command 0x09#8 []
  | .getFvco => .command 0x0A#8 []
  | .getFsmclk => .command 0x0B#8 []
  | .configureRamp s t h d f =>
    .command 0x0C#8 (ratCodes s ++ ratCodes t ++ ratCodes h ++ [boolCode d, boolCode f])
  | .setDivider n num den => .command 0x0D#8 [n, num, den]
  | .setOutputPower c l => .command 0x0E#8 [channelCode c, l]
  | .reset => .command 0x0F#8 []
  | .unlock => .command 0x10#8 []
  | .arm => .command 0x11#8 []
  | .writeFrame a w => .frame (writeFrameBytes a w)
  | .readFrame a => .frame (readFrameBytes a)

/-! ## The words of spec/opcode_table.json -/

/-- How many operand codes the command of an opcode takes; 0 for an opcode that is no command's. -/
def operandCount (op : Byte) : Nat :=
  match op.toNat with
  | 0x01 => 4 | 0x02 => 3 | 0x03 => 1 | 0x04 => 2 | 0x05 => 4 | 0x06 => 1 | 0x07 => 2 | 0x08 => 1
  | 0x0C => 8 | 0x0D => 3 | 0x0E => 2 | _ => 0

/-- The bytes of an `n`-byte number, the most significant first: the table writes a frame "byte 0 first", so byte 0 holds the
highest bits of the row's number. -/
def bytesBigEndian : Nat → Nat → List Byte
  | 0, _ => []
  | n + 1, w => BitVec.ofNat 8 (w / 256 ^ n) :: bytesBigEndian n w

/-- The request that a row's word of spec/opcode_table.json stands for. The rows of 8 bits are the command opcodes, with every
operand code 0, and the read frame, told apart by bit 7 (30_encoding.md R82, R85: no command has an opcode of 0x80 or more);
the row of 24 bits is the write frame. -/
def tableRequest (nbits w : Nat) : Request :=
  let bytes := bytesBigEndian (nbits / 8) w
  match bytes with
  | [b] => if b.msb then .frame [b] else .command b (List.replicate (operandCount b) 0)
  | _ => .frame bytes

/-- The instruction the decoder reads from a word of spec/opcode_table.json; `none` where it rejects. -/
def decodeTableWord (nbits w : Nat) : Option Instr :=
  match decode (tableRequest nbits w) with
  | .ok i => some i
  | .error _ => none

end Sys2Proof
end

