-- ==== Sys2Proof/Config.lean ====
section
/-!
DEFINITION. What an implementation fixes, and the free values. `Params` is the type of the construction parameters that
00_scope.md R7 leaves open (their defaults stand in Machine/Layout.lean); the opaque constants are what the spec lets no one
choose: the draws, the transport oracle and the reference frequency.
-/
namespace Sys2Proof

/-- What the transport reports of a bus-level fault (20_memory.md R69: "no response, malformed frame"); it is the transport's
own and is passed on unmodified (60_exceptions.md R236). -/
inductive BusInfo
  | noResponse
  | malformedFrame
  | other (code : Nat)
deriving DecidableEq, Repr, Inhabited

/-- The transport oracle's answer to one transaction (20_memory.md R69). -/
inductive BusAnswer
  | ok
  | fault (info : BusInfo)
deriving DecidableEq, Repr, Inhabited

/-- One part `(addr, hi, lo)` of a field (30_encoding.md R91), and the value of a `LOC_*` parameter (10_state.md R34). -/
structure Part where
  addr : Nat
  hi : Nat
  lo : Nat
deriving DecidableEq, Repr

/-- The part order of RAMP0_INC (30_encoding.md R92). -/
inductive IncLayout
  | headerHigh
  | headerLow
deriving DecidableEq, Repr

/-- The order of the bits of a byte on the serial line (20_memory.md R64). -/
inductive SerialOrder
  | msbFirst
  | lsbFirst
deriving DecidableEq, Repr

/-- The content of the read-write registers: (address, word) pairs with strictly rising addresses below 110. An address that is
not listed holds `⊥` (10_state.md R25): the model does not know its content. -/
abbrev RegFile := List (Nat × Word)

/-- The construction parameters of the block (00_scope.md R7, 10_state.md R34, R35). No command changes one. -/
structure Params where
  /-- `RESERVED` (10_state.md R31) -/
  reserved : List Nat
  /-- `POWERUP_CONTENT` (10_state.md R50) -/
  powerupContent : RegFile
  /-- `RESET_DEFAULTS` (44_lifecycle.md R211) -/
  resetDefaults : RegFile
  /-- `R0_RESET_WORD` (44_lifecycle.md R216) -/
  r0ResetWord : Word
  /-- `RAMP0_INC_LAYOUT` (30_encoding.md R92) -/
  incLayout : IncLayout
  /-- `LOC_RAMP_MANUAL` (10_state.md R34, as are the nine below) -/
  locRampManual : Part
  /-- `LOC_RAMP0_NEXT` -/
  locRamp0Next : Part
  /-- `LOC_RAMP0_NEXT_TRIG` -/
  locRamp0NextTrig : Part
  /-- `LOC_LD_DLY` -/
  locLdDly : Part
  /-- `LOC_RAMP_TRIGA` -/
  locRampTrigA : Part
  /-- `LOC_RAMP_TRIGB` -/
  locRampTrigB : Part
  /-- `LOC_RAMP_BURST_TRIG` -/
  locRampBurstTrig : Part
  /-- `LOC_QUICK_RECAL_EN` -/
  locQuickRecalEn : Part
  /-- `LOC_VCO_CAPCTRL_STRT` -/
  locVcoCapctrlStrt : Part
  /-- `LOC_RAMP_THRESH_HDR` -/
  locRampThreshHdr : Part
  /-- `CODE_TRIGA_DISABLED` (10_state.md R35, as are the four below) -/
  codeTrigADisabled : Nat
  /-- `CODE_TRIGA_RAMPCLK_RISE` -/
  codeTrigARampclkRise : Nat
  /-- `CODE_NEXT_TRIG_TIMEOUT` -/
  codeNextTrigTimeout : Nat
  /-- `CODE_NEXT_TRIG_TRIGA` -/
  codeNextTrigTrigA : Nat
  /-- `CODE_NEXT_RAMP0` -/
  codeNextRamp0 : Nat
  /-- `OUT_PWR_MAX` (43_ramp_configurator.md R195) -/
  outPwrMax : Nat
  /-- `SERIAL_BIT_ORDER` (20_memory.md R64) -/
  serialBitOrder : SerialOrder
deriving DecidableEq, Repr

/-- The `n`-th `draw()` of a word (00_scope.md R12): a free value, log 1. -/
opaque Config.draw : Nat → Word

/-- The `n`-th draw of a yes or no: whether an effect the spec leaves open happened (44_lifecycle.md R213, 20_memory.md R69,
60_exceptions.md R234): a free value, logs 9 to 11. -/
opaque Config.drawBit : Nat → Bool

/-- The transport oracle past the answers that the state lists (00_scope.md R7 `TRANSPORT`): a free value, log 3. -/
opaque Config.transport : Nat → BusAnswer

/-- With `Config.oscDenPred`, the construction argument `F_OSC_IN`: a free value, log 2. -/
opaque Config.oscNumPred : Nat

/-- See `Config.oscNumPred`. -/
opaque Config.oscDenPred : Nat

/-- `F_OSC_IN` (00_scope.md R7): any positive rational, which one is free (log 2). -/
def Config.fOscIn : Rat := mkRat (Config.oscNumPred + 1) (Config.oscDenPred + 1)

end Sys2Proof
end

