-- ==== Sys2Proof/Machine/Operands.lean ====
section
/-!
DEFINITION. Operand forms and the pure computations on them: BitRanges and BitField arithmetic (40_bitfield.md), packing and
unpacking of a field's parts (30_encoding.md R91 to R94), ROUND and the unit conversions (00_scope.md R13,
42_frequency_model.md R155 to R158), and the bit-serial rendering of a byte (20_memory.md R64).
-/
namespace Sys2Proof.Machine

/-! ## BitField -/

/-- A BitRange is well-formed when `0 <= low <= high <= 15` (30_encoding.md R88). -/
abbrev rangeOk (low high : Int) : Bool := decide (0 ≤ low ∧ low ≤ high ∧ high ≤ 15)

/-- The mask `M(low, high)`: ones exactly at bits low..high (30_encoding.md R88). -/
def rangeMask (low high : Nat) : Word := BitVec.ofNat 16 ((2 ^ (high - low + 1) - 1) * 2 ^ low)

/-- SET_BITS's result in its closed form (40_bitfield.md R110); data is truncated to the width of the range (30_encoding.md
R89). -/
def setBitsWord (word : Word) (low high data : Nat) : Word :=
  (word &&& (0xFFFF#16 ^^^ rangeMask low high)) ||| BitVec.ofNat 16 (data % 2 ^ (high - low + 1) * 2 ^ low)

/-- GET_BITS's result (40_bitfield.md R111): the masked word shifted down to bit 0. -/
def getBitsWord (word : Word) (low high : Nat) : Nat := (word &&& rangeMask low high).toNat / 2 ^ low

/-- `v[hi:lo]` of a natural number (00_scope.md R8). -/
def natBits (v hi lo : Nat) : Nat := v / 2 ^ lo % 2 ^ (hi - lo + 1)

/-! ## Parts of a field -/

/-- The width of a part, `hi - lo + 1` (30_encoding.md R91). -/
def partWidth (p : Part) : Nat := p.hi - p.lo + 1

/-- A part that is a whole register, `[15:0]` (41_register_access.md R128). -/
def partFull (p : Part) : Bool := p.hi == 15 && p.lo == 0

/-- The total width of a part list: a field's W, or `s_k` for the parts after part k (30_encoding.md R91). -/
def partsWidth : List Part → Nat
  | [] => 0
  | p :: ps => partWidth p + partsWidth ps

/-- What part k receives of a value (30_encoding.md R93): `v[s_k + (hi_k - lo_k) : s_k]`, `after` being the parts after it. -/
def partOfValue (v : Nat) (p : Part) (after : List Part) : Nat :=
  natBits v (partsWidth after + (p.hi - p.lo)) (partsWidth after)

/-! ## Rounding and unit conversion -/

/-- `ROUND(q)`: the nearest integer, halves to the even one (00_scope.md R13; log 6). -/
def roundHalfEven (q : Rat) : Int :=
  let n := q.floor
  let r := q - n
  if r < 1 / 2 then n
  else if 1 / 2 < r then n + 1
  else if n % 2 = 0 then n else n + 1

/-- `FRAC_SCALE` = 2^24 (00_scope.md R6). -/
def fracScale : Rat := 16777216

/-- `code_hz` for `fpd ≠ 0` (42_frequency_model.md R155). -/
def codeHz (f fpd : Rat) : Int := roundHalfEven (f / fpd * fracScale)

/-- `cycles` (42_frequency_model.md R156). -/
def cyclesOf (t fpd : Rat) : Int := roundHalfEven (t * fpd)

/-- `inc_code` for `fpd ≠ 0` and `len ≠ 0` (42_frequency_model.md R157). -/
def incCode (span fpd : Rat) (len : Int) : Int := roundHalfEven (span / fpd * fracScale / len)

/-- `ramp_high` of `limit_codes` for `fpd ≠ 0` (42_frequency_model.md R158): `f_high = f_vco + 2 * span`. -/
def limitHighCode (span fpd fvco : Rat) : Int :=
  let fHigh := fvco + 2 * span
  roundHalfEven ((fHigh - fvco) / fpd * fracScale)

/-- `ramp_low` of `limit_codes` for `fpd ≠ 0` (R158, 30_encoding.md R96): `f_low = f_vco - 2 * span`. -/
def limitLowCode (span fpd fvco : Rat) : Int :=
  let fLow := fvco - 2 * span
  roundHalfEven (8589934592 - fracScale * (fvco - fLow) / fpd)

/-- The phase-detector frequency (42_frequency_model.md R151), for nonzero divisors. -/
def fpdOf (fOsc : Rat) (osc2x rpre mult r : Nat) : Rat := fOsc * (osc2x + 1) / rpre * mult / r

/-- The VCO frequency (42_frequency_model.md R152), for a nonzero denominator. -/
def fvcoOf (fpd : Rat) (n num den : Nat) : Rat := fpd * (n + (num : Rat) / den)

/-- The state-machine clock frequency (42_frequency_model.md R153). -/
def fsmclkOf (fOsc : Rat) (c : Nat) : Rat := fOsc / 2 ^ c

/-! ## The serial line -/

/-- The bits of a byte in the order in which the serial line carries them (20_memory.md R64): no other rule depends on it. -/
def serialBits (order : SerialOrder) (b : BitVec 8) : List Bool :=
  match order with
  | .msbFirst => [b[7], b[6], b[5], b[4], b[3], b[2], b[1], b[0]]
  | .lsbFirst => [b[0], b[1], b[2], b[3], b[4], b[5], b[6], b[7]]

/-- The bits of a frame on the serial line, byte 0 first. -/
def serialFrame (order : SerialOrder) (bytes : List (BitVec 8)) : List Bool := bytes.flatMap (serialBits order)

end Sys2Proof.Machine
end

