-- ==== Sys2Proof/Machine/RegFile.lean ====
section
/-!
DEFINITION. The device's register file `x` as plain data (10_state.md R25, R26): look-up, store, forget, the restriction to a
set of addresses, and the canonical form that every one of them keeps.
-/
namespace Sys2Proof.Machine

/-- `x[a]` for every address: the word, or `none` for `⊥` (10_state.md R25). -/
def regGet : RegFile → Nat → Option Word
  | [], _ => none
  | (b, w) :: r, a => if a = b then some w else regGet r a

/-- `x[a] <- v` in a list with rising addresses. -/
def regInsert : RegFile → Nat → Word → RegFile
  | [], a, v => [(a, v)]
  | (b, w) :: r, a, v =>
    if a < b then (a, v) :: (b, w) :: r
    else if a = b then (a, v) :: r
    else (b, w) :: regInsert r a v

/-- `x[a] <- v` (00_scope.md R12). Only the addresses 0..109 hold a word (10_state.md R25 to R27). -/
def regSet (x : RegFile) (a : Nat) (v : Word) : RegFile :=
  if a < 110 then regInsert x a v else x

/-- `x[a] <- ⊥` (20_memory.md R69). -/
def regForget (x : RegFile) (a : Nat) : RegFile := x.filter fun c => c.1 ≠ a

/-- `x` restricted to a set of addresses: the staged ramp is `x` restricted to RAMP_REGS (10_state.md R36). -/
def regRestrict (x : RegFile) (addrs : List Nat) : RegFile := x.filter fun c => c.1 ∈ addrs

/-- The canonical form: addresses strictly rising, every one of them that of a read-write register. Two register files with
the same content are the same list. -/
def regWf (x : RegFile) : Bool :=
  decide (x.Pairwise fun c d => c.1 < d.1) && x.all fun c => decide (c.1 < 110)

end Sys2Proof.Machine
end

