-- ==== Sys2Proof/Machine/Layout.lean ====
section
/-!
DEFINITION. The named constants (00_scope.md R6), the field layouts (10_state.md R28 to R30, 30_encoding.md R91, R92), the
read groups (R87), the address sets NAMED_REGS, RESERVED and RAMP_REGS (10_state.md R31, R32), the default parameters
(R34, R35, 00_scope.md R7) and the check of a configuration (43_ramp_configurator.md R176).
-/
namespace Sys2Proof.Machine

/-- `UNLOCK_WORD` (00_scope.md R6). -/
def unlockWord : Word := 0x2410

/-- `LEN_MAX` (00_scope.md R6). -/
def lenMax : Rat := 65535

/-- `INC_MAX` (00_scope.md R6). -/
def incMax : Int := 1073741823

/-- `INC_WRAP` (00_scope.md R6). -/
def incWrap : Int := 1073741824

/-- `THRESH_MAX` (00_scope.md R6). -/
def threshMax : Int := 536870911

/-- `LIMIT_WRAP` (00_scope.md R6). -/
def limitWrap : Int := 8589934592

/-- The part list of a named field, most significant part first (10_state.md R28 to R30, 30_encoding.md R91, R92). -/
def fieldParts (p : Params) : FieldId → List Part
  | .POWERDOWN => [⟨0, 0, 0⟩]
  | .RESET => [⟨0, 1, 1⟩]
  | .MUXOUT_LD_SEL => [⟨0, 2, 2⟩]
  | .FCAL_EN => [⟨0, 3, 3⟩]
  | .RAMP_EN => [⟨0, 15, 15⟩]
  | .CAL_CLK_DIV => [⟨1, 2, 0⟩]
  | .OSC_2X => [⟨9, 12, 12⟩]
  | .MULT => [⟨10, 11, 7⟩]
  | .PLL_R => [⟨11, 11, 4⟩]
  | .PLL_R_PRE => [⟨12, 11, 0⟩]
  | .PLL_N => [⟨34, 2, 0⟩, ⟨36, 15, 0⟩]
  | .PLL_DEN => [⟨38, 15, 0⟩, ⟨39, 15, 0⟩]
  | .PLL_NUM => [⟨42, 15, 0⟩, ⟨43, 15, 0⟩]
  | .OUTA_PWR => [⟨44, 13, 8⟩]
  | .OUTB_PWR => [⟨45, 5, 0⟩]
  | .VCO_CAPCTRL_STRT => [p.locVcoCapctrlStrt]
  | .QUICK_RECAL_EN => [p.locQuickRecalEn]
  | .RAMP_THRESH => [p.locRampThreshHdr, ⟨79, 15, 0⟩, ⟨80, 15, 0⟩]
  | .RAMP_LIMIT_HIGH => [⟨81, 0, 0⟩, ⟨82, 15, 0⟩, ⟨83, 15, 0⟩]
  | .RAMP_LIMIT_LOW => [⟨84, 0, 0⟩, ⟨85, 15, 0⟩, ⟨86, 15, 0⟩]
  | .RAMP0_RST => [⟨97, 15, 15⟩]
  | .RAMP_TRIGA => [p.locRampTrigA]
  | .RAMP_TRIGB => [p.locRampTrigB]
  | .RAMP_BURST_TRIG => [p.locRampBurstTrig]
  | .RAMP0_INC =>
    match p.incLayout with
    | .headerHigh => [⟨98, 15, 2⟩, ⟨99, 15, 0⟩]
    | .headerLow => [⟨99, 15, 0⟩, ⟨98, 15, 2⟩]
  | .RAMP0_LEN => [⟨100, 15, 0⟩]
  | .RAMP0_NEXT_TRIG => [p.locRamp0NextTrig]
  | .RAMP0_NEXT => [p.locRamp0Next]
  | .RAMP_MANUAL => [p.locRampManual]
  | .RAMP_SCALE_COUNT => [⟨106, 2, 0⟩]
  | .RAMP_TRIG_CAL => [⟨106, 4, 4⟩]
  | .LD_DLY => [p.locLdDly]

/-- The width W of a field: the sum of its parts' widths (30_encoding.md R91). -/
def fieldWidth (p : Params) (f : FieldId) : Nat := partsWidth (fieldParts p f)

/-- The fields of a read group, in the order of 30_encoding.md R87; the status group holds raw words, not fields. -/
def groupFields : GroupId → List FieldId
  | .general => [.POWERDOWN, .RESET, .MUXOUT_LD_SEL, .FCAL_EN, .RAMP_EN, .CAL_CLK_DIV]
  | .inputPath => [.OSC_2X, .MULT, .PLL_R, .PLL_R_PRE]
  | .vcoCalibration => [.VCO_CAPCTRL_STRT, .QUICK_RECAL_EN, .RAMP_TRIG_CAL, .RAMP_SCALE_COUNT, .LD_DLY]
  | .dividerOutput => [.PLL_N, .PLL_NUM, .PLL_DEN, .OUTA_PWR, .OUTB_PWR]
  | .rampConfig =>
    [.RAMP_MANUAL, .RAMP0_RST, .RAMP_TRIGA, .RAMP_TRIGB, .RAMP_BURST_TRIG, .RAMP0_NEXT, .RAMP0_NEXT_TRIG,
     .RAMP0_INC, .RAMP0_LEN, .RAMP_THRESH]
  | .rampLimits => [.RAMP_LIMIT_HIGH, .RAMP_LIMIT_LOW]
  | .status => []

/-- The fields CONFIGURE_RAMP writes, in its order (43_ramp_configurator.md R170 phase 3). -/
def rampFields : List FieldId :=
  [.RAMP_MANUAL, .RAMP0_NEXT_TRIG, .RAMP_TRIGA, .RAMP0_NEXT, .RAMP0_RST, .RAMP_TRIG_CAL, .LD_DLY, .RAMP_SCALE_COUNT,
   .QUICK_RECAL_EN, .RAMP0_LEN, .RAMP0_INC, .RAMP_THRESH, .RAMP_LIMIT_HIGH, .RAMP_LIMIT_LOW]

/-- `RAMP_REGS`: the addresses CONFIGURE_RAMP writes (10_state.md R32). -/
def rampRegs (p : Params) : List Nat := rampFields.flatMap fun f => (fieldParts p f).map Part.addr

/-- `NAMED_REGS` (10_state.md R31): the addresses of the named fields, those of every `LOC_*` parameter among them, and the
status registers. -/
def namedRegs (p : Params) : List Nat :=
  [0, 1, 9, 10, 11, 12, 34, 36, 38, 39, 42, 43, 44, 45, 78, 79, 80, 81, 82, 83, 84, 85, 86, 97, 98, 99, 100, 101, 105, 106,
   110, 111, 112] ++
  [p.locRampManual.addr, p.locRamp0Next.addr, p.locRamp0NextTrig.addr, p.locLdDly.addr, p.locRampTrigA.addr,
   p.locRampTrigB.addr, p.locRampBurstTrig.addr, p.locQuickRecalEn.addr, p.locVcoCapctrlStrt.addr, p.locRampThreshHdr.addr]

/-- The default `RESERVED` set (10_state.md R31): every address in 0..112 that is not in `NAMED_REGS`. -/
def defaultReserved (p : Params) : List Nat := (List.range 113).filter fun a => a ∉ namedRegs p

/-- The defaults of every parameter but `RESERVED` (00_scope.md R7, 10_state.md R34, R35); log 5. -/
def defaultParamsBase : Params where
  reserved := []
  powerupContent := []
  resetDefaults := []
  r0ResetWord := 0x2412
  incLayout := .headerHigh
  locRampManual := ⟨105, 5, 5⟩
  locRamp0Next := ⟨101, 4, 4⟩
  locRamp0NextTrig := ⟨101, 1, 0⟩
  locLdDly := ⟨60, 15, 0⟩
  locRampTrigA := ⟨97, 6, 3⟩
  locRampTrigB := ⟨97, 10, 7⟩
  locRampBurstTrig := ⟨97, 1, 0⟩
  locQuickRecalEn := ⟨78, 9, 9⟩
  locVcoCapctrlStrt := ⟨78, 8, 1⟩
  locRampThreshHdr := ⟨78, 11, 11⟩
  codeTrigADisabled := 0
  codeTrigARampclkRise := 1
  codeNextTrigTimeout := 0
  codeNextTrigTrigA := 1
  codeNextRamp0 := 0
  outPwrMax := 63
  serialBitOrder := .msbFirst

/-- The default parameters (00_scope.md R7); log 5. -/
def defaultParams : Params := { defaultParamsBase with reserved := defaultReserved defaultParamsBase }

/-- A `LOC_*` parameter names a bit range of a read-write register other than R0, of the width 10_state.md R30 gives the field
(log 5: R271 says that writes to R0 are never checked, so no ramp field lies in R0). -/
abbrev locOk (l : Part) (width : Nat) : Bool :=
  decide (1 ≤ l.addr ∧ l.addr ≤ 109 ∧ l.lo ≤ l.hi ∧ l.hi ≤ 15 ∧ partWidth l = width)

/-- The configuration check (43_ramp_configurator.md R176: the codes must fit their fields; 00_scope.md R7: R0_RESET_WORD has
bit 1 set, the content valuations hold words of 0..109; log 5 for the `LOC_*`: the header of RAMP_THRESH is a register of its
own). -/
def paramsOk (p : Params) : Bool :=
  [regWf p.powerupContent,
   regWf p.resetDefaults,
   p.r0ResetWord[1],
   p.reserved.all fun a => decide (a ≤ 112),
   locOk p.locRampManual 1,
   locOk p.locRamp0Next 1,
   locOk p.locRamp0NextTrig 2,
   locOk p.locLdDly 16,
   locOk p.locRampTrigA 4,
   locOk p.locRampTrigB 4,
   locOk p.locRampBurstTrig 2,
   locOk p.locQuickRecalEn 1,
   locOk p.locVcoCapctrlStrt 8,
   locOk p.locRampThreshHdr 1,
   decide (p.locRampThreshHdr.addr ≠ 79 ∧ p.locRampThreshHdr.addr ≠ 80),
   decide (p.codeTrigADisabled < 16),
   decide (p.codeTrigARampclkRise < 16),
   decide (p.codeNextTrigTimeout < 4),
   decide (p.codeNextTrigTrigA < 4),
   decide (p.codeNextRamp0 < 2)].all id

end Sys2Proof.Machine
end

