-- ==== Sys2Proof/Machine/State.lean ====
section
/-!
DEFINITION. The state of the machine as plain data, holding everything 10_state.md gives the controller and the device, the
results and fault records of 60_exceptions.md, the reasons a step can stop, and the state after power-up.
-/
namespace Sys2Proof.Machine

/-- The device lifecycle as the controller tracks it (10_state.md R24). `RESET` is passed through inside one transaction and is
never the value between commands. -/
inductive Lifecycle
  | RESET
  | READBACK_LOCKED
  | READBACK_UNLOCKED
  | CONFIGURED
  | RAMPING
deriving DecidableEq, Repr

/-- What a failed `E_PARAM` check is called (60_exceptions.md R231; 41_register_access.md R128, 43_ramp_configurator.md R170,
R190, R195). -/
inductive ParamCheck
  | width (field : FieldId)
  | ramp_len
  | ramp_inc
  | recal_threshold
  | ramp_limit_high
  | ramp_limit_low
  | pll_n
  | pll_num
  | pll_den
  | power_level
deriving DecidableEq, Repr

/-- The errors the block returns to the host (60_exceptions.md R231), each with the info it returns. -/
inductive BlockError
  /-- `E_ADDR`: register address >= 113; the address -/
  | addr (a : Nat)
  /-- `E_PARAM`: a parameter or derived value outside its range; the failed check and the offending value -/
  | param (check : ParamCheck) (value : Rat)
  /-- `E_BUS`: the transport's information, unmodified, and the index of the failed transaction within the command, from 1 -/
  | bus (info : BusInfo) (index : Nat)
deriving DecidableEq, Repr

/-- The divisors that F_DIV0 names (60_exceptions.md R233). -/
inductive Divisor
  | PLL_R_PRE
  | PLL_R
  | PLL_DEN
  | f_pd
  | ramp_len
deriving DecidableEq, Repr

/-- What F_LOCKED records of the command (60_exceptions.md R233): MODIFY its address, a partial FIELD_WRITE its field,
CONFIGURE_RAMP, SET_DIVIDER and ARM their name. DESIGN CHOICE (log 18): SET_OUTPUT_POWER, whose gate is that of the FIELD_WRITE it
issues (43_ramp_configurator.md R195), records that field. -/
inductive LockedCommand
  | modify (addr : Nat)
  | fieldWrite (field : FieldId)
  | configureRamp
  | setDivider
  | arm
deriving DecidableEq, Repr

/-- The records of the list `faults` (60_exceptions.md R233), each with the info recorded. -/
inductive FaultRecord
  /-- `F_RANGE` -/
  | range (low high : Int)
  /-- `F_DIV0` -/
  | div0 (divisor : Divisor)
  /-- `F_LOCKED` -/
  | locked (command : LockedCommand)
  /-- `F_RESERVED` -/
  | reserved (addr : Nat)
  /-- `F_RO` -/
  | readOnly (addr : Nat)
  /-- `F_HAZARD_FCAL` -/
  | hazardFcal (addr : Nat)
  /-- `F_HAZARD_ORDER` -/
  | hazardOrder
  /-- `REFUSED`: the offending request; it marks the run but does not stop it (R237) -/
  | refused (request : Request)
deriving DecidableEq, Repr

/-- The value a command returns when it completes (30_encoding.md R85, the column "result"). -/
inductive Value
  /-- a command that only writes: `OK` -/
  | unit
  /-- SET_BITS, READ: a 16-bit word -/
  | word (w : Word)
  /-- GET_BITS, FIELD_READ: a natural -/
  | nat (n : Nat)
  /-- GET_FPD, GET_FVCO, GET_FSMCLK: an exact rational in Hz -/
  | freq (q : Rat)
  /-- READ_GROUP of a group of fields: the record, in the group's order -/
  | fields (record : List (FieldId × Nat))
  /-- READ_GROUP status: the raw words of R110, R111, R112 -/
  | status (r110 r111 r112 : Word)
deriving DecidableEq, Repr

/-- The four outcomes of a command (60_exceptions.md R230). -/
inductive CommandResult
  | ok (v : Value)
  | error (e : BlockError)
  | fault (f : FaultRecord)
  | refused
deriving DecidableEq, Repr

/-- One bus transaction as it was seen on the bus: the bytes the controller sent, the bytes clocked back from the device
(30_encoding.md R80, R81), and how it ended (20_memory.md R69). Of one that failed, which bytes were on the bus is the model's
choice (log 17). -/
structure Transaction where
  sent : List Byte
  received : List Byte
  answer : BusAnswer
deriving DecidableEq, Repr

/-- The state. The first three fields are the controller's (10_state.md R21), the next three the device's (R25, R36, R37), then
the construction parameters; the rest are the interface of the transaction-level machine and the counters of the free values,
which are the MODEL's own (logs 1, 3, 7). -/
structure State where
  /-- the reference frequency in Hz, "fixed, supplied at construction" (R21) -/
  fOscIn : Rat
  /-- the lifecycle state as the controller tracks it (R24) -/
  life : Lifecycle
  /-- every fault recorded so far, only ever appended to (R21) -/
  faults : List FaultRecord
  /-- the register file: registers 0..109 (R25, R26); 110..112 hold nothing (R27) -/
  x : RegFile
  /-- the committed ramp snapshot, on the addresses of RAMP_REGS (R36) -/
  committed : Option RegFile
  /-- whether the latched PLL_N is consistent (R37) -/
  nConsistent : Bool
  /-- the construction parameters (00_scope.md R7) -/
  cfg : Params
  /-- the host's requests that have not been executed yet (00_scope.md R5) -/
  requests : List Request
  /-- the last command's result (60_exceptions.md R230, R231) -/
  result : Option CommandResult
  /-- the bus transactions of the last command, in order (00_scope.md R5) -/
  trace : List Transaction
  /-- the transport's answers to the coming transactions; past its end the oracle of Config answers (20_memory.md R69) -/
  transport : List BusAnswer
  /-- how many transactions have been issued: the oracle's argument -/
  txns : Nat
  /-- how many draws have been made: the argument of the draws of Config -/
  draws : Nat
deriving DecidableEq, Repr

/-- Why a step stops for good. -/
inductive Fault
  /-- Raised by `step` when the list `faults` holds a fault `F_*`: "No later command has a step" (60_exceptions.md R234). Safe:
  the spec says that the run is stuck. -/
  | stuck (f : FaultRecord)
deriving DecidableEq, Repr

/-- Why a step is not taken. -/
inductive Refusal
  /-- Raised by an arm of `exec` whose instruction has no meaning yet; no arm is left so. Safe. -/
  | notModelled (mnemonic : String)
  /-- Raised by `step` for bytes that are no frame the controller sends (30_encoding.md R83: "The model has no such
  transaction"; 93_implementation_defined.md I23 `refuse`). Safe. -/
  | frameNeverSent (bytes : List Byte)
  /-- Raised by the frame meanings for address bits 113..127 (30_encoding.md R83, R98: never sent). Safe. -/
  | frameAddressNeverSent (addr : BusAddr)
  /-- Raised by `step` for a configuration that the configuration check refuses (43_ramp_configurator.md R176). Safe. -/
  | badConfiguration
deriving DecidableEq, Repr

/-- The state at power-up of a block constructed with a reference frequency and parameters (10_state.md R50, R260). -/
def State.powerUp (fOsc : Rat) (p : Params) : State where
  fOscIn := fOsc
  life := .READBACK_LOCKED
  faults := []
  x := p.powerupContent
  committed := none
  nConsistent := true
  cfg := p
  requests := []
  result := none
  trace := []
  transport := []
  txns := 0
  draws := 0

/-- The machine right after power-up (70_reset_and_hazards.md R260), with the default parameters (log 5) and the free
reference frequency (log 2). -/
def State.reset : State := State.powerUp Config.fOscIn defaultParams

end Sys2Proof.Machine
end

