-- ==== Sys2Proof/Machine/Flags.lean ====
section
/-!
DEFINITION. The block has no flags or condition codes (10_state.md R23). Its status is the lifecycle and the result of each
command; this file holds the predicates of the state that the rules name, the lifecycle update and the numeric result codes.
-/
namespace Sys2Proof.Machine

/-- `readback_ok` (10_state.md R38): unlocked, R0 known, and MUXOUT_LD_SEL clear. -/
def readbackOk (s : State) : Bool :=
  (match s.life with
   | .READBACK_UNLOCKED => true
   | .CONFIGURED => true
   | .RAMPING => true
   | .RESET => false
   | .READBACK_LOCKED => false) &&
  (match regGet s.x 0 with
   | some w => !w[2]
   | none => false)

/-- The condition of the calibration-enable write hazard (70_reset_and_hazards.md R271): a ramp register, with FCAL_EN 1 or not
known. -/
def fcalHazard (a : Nat) (s : State) : Bool :=
  decide (a ∈ rampRegs s.cfg) &&
  (match regGet s.x 0 with
   | some w => w[3]
   | none => true)

/-- `rise(old, v)` where R0's old content decides it (44_lifecycle.md R213); `none` where it does not: the old word is not known
and FCAL_EN is written as 1. -/
def riseKnown (old : Option Word) (v : Word) : Option Bool :=
  match old with
  | some w => some (!w[3] && v[3])
  | none => if v[3] then none else some false

/-- `life_update(a, v, old)` (44_lifecycle.md R210), `edge` being whether this transaction was an FCAL_EN rising edge. -/
def lifeAfterWrite (life : Lifecycle) (a : Nat) (v : Word) (edge : Bool) : Lifecycle :=
  if a = 0 ∧ v[1] = true then .READBACK_LOCKED
  else match life with
    | .READBACK_LOCKED => if a = 0 ∧ v = unlockWord then .READBACK_UNLOCKED else .READBACK_LOCKED
    | .READBACK_UNLOCKED => if a = 0 ∧ edge = true then .RAMPING else .CONFIGURED
    | .CONFIGURED => if a = 0 ∧ edge = true then .RAMPING else .CONFIGURED
    | .RAMPING => .RAMPING
    | .RESET => .RESET

/-- The numeric code of an error (60_exceptions.md R231). -/
def errorCode : BlockError → Byte
  | .addr _ => 0x01
  | .param _ _ => 0x02
  | .bus _ _ => 0x03

/-- The numeric code of a fault record (60_exceptions.md R233). -/
def faultCode : FaultRecord → Byte
  | .range _ _ => 0x81
  | .div0 _ => 0x82
  | .locked _ => 0x83
  | .reserved _ => 0x84
  | .readOnly _ => 0x85
  | .hazardFcal _ => 0x86
  | .hazardOrder => 0x87
  | .refused _ => 0xFF

/-- The code of a command's outcome: `OK` is 0x00 (60_exceptions.md R231, R233). -/
def resultCode : CommandResult → Byte
  | .ok _ => 0x00
  | .error e => errorCode e
  | .fault f => faultCode f
  | .refused => 0xFF

/-- Whether a record stops the run: a fault `F_*` does (60_exceptions.md R234), REFUSED does not (R237: it is a mark). -/
def isFault : FaultRecord → Bool
  | .refused _ => false
  | .range _ _ => true
  | .div0 _ => true
  | .locked _ => true
  | .reserved _ => true
  | .readOnly _ => true
  | .hazardFcal _ => true
  | .hazardOrder => true

/-- The first fault `F_*` recorded, if any: the run is stuck from it on (60_exceptions.md R234). -/
def stuckOn (s : State) : Option FaultRecord := s.faults.find? isFault

end Sys2Proof.Machine
end

