-- ==== Sys2Proof/Machine/Ops.lean ====
section
/-!
DEFINITION. The named operations every meaning is built from: the outcome of a part of a command and how parts follow one
another, draws, what the device does with a write (20_memory.md R66, R69; 44_lifecycle.md R211 to R214), the read and write
transaction (00_scope.md R12 `MemRead`, `MemWrite`), the recording of a fault, the end of a command, a refused request, and the
fetch of the host's next request.
-/
namespace Sys2Proof.Machine

/-! ## Parts of a command -/

/-- How a part of a command ends: with a value, with an error returned to the host (`raise`), or with a fault (`fault`), each
with the state it leaves (00_scope.md R12). -/
inductive Reply (α : Type) where
  | ok (v : α) (s : State)
  | error (e : BlockError) (s : State)
  | fault (f : FaultRecord) (s : State)
deriving DecidableEq, Repr

/-- The next part runs only if this one ended with a value: "the command ends at the first" (60_exceptions.md R235). -/
def Reply.andThen {α β : Type} (r : Reply α) (k : α → State → Reply β) : Reply β :=
  match r with
  | .ok v s => k v s
  | .error e s => .error e s
  | .fault f s => .fault f s

/-- `if cond: fault F` as a part of its own. -/
def faultIf (cond : Bool) (f : FaultRecord) (s : State) : Reply Unit := if cond then .fault f s else .ok () s

/-- `if not check: raise E_PARAM(check, value)` as a part of its own. -/
def requireParam (check : Bool) (name : ParamCheck) (value : Rat) (s : State) : Reply Unit :=
  if check then .ok () s else .error (.param name value) s

/-! ## Draws -/

/-- One draw has been made (00_scope.md R12; log 1). -/
def State.drawn (s : State) : State := { s with draws := s.draws + 1 }

/-! ## The device -/

/-- The store of a word: `x[a] <- v` and the PLL_N consistency lines of 20_memory.md R66 (10_state.md R37). -/
def State.storeWord (s : State) (a : Nat) (v : Word) : State :=
  { s with
    x := regSet s.x a v
    nConsistent :=
      if a = 36 then true
      else if a = 34 then
        match regGet s.x 34 with
        | none => false
        | some old => if old.extractLsb' 0 3 = v.extractLsb' 0 3 then s.nConsistent else false
      else s.nConsistent }

/-- The snapshot of the staged ramp: `x[a]` for every a in RAMP_REGS (10_state.md R36). -/
def State.snapshot (s : State) : RegFile := regRestrict s.x (rampRegs s.cfg)

/-- The commit at an FCAL_EN rising edge: `committed[a] <- x[a]` for every a in RAMP_REGS (44_lifecycle.md R213). -/
def State.commit (s : State) : State := { s with committed := some s.snapshot }

/-- The device reset (44_lifecycle.md R211): the register file at RESET_DEFAULTS, nothing committed, PLL_N consistent. The
other bits of the written word have no effect. -/
def State.deviceReset (s : State) : State :=
  { s with x := s.cfg.resetDefaults, committed := none, nConsistent := true }

/-- The controller's lifecycle update after a successful write transaction (44_lifecycle.md R210). -/
def State.lifeUpdate (s : State) (a : Nat) (v : Word) (edge : Bool) : State :=
  { s with life := lifeAfterWrite s.life a v edge }

/-- What a device-side fault leaves of the faulting write: "whether the faulting write itself was stored is not specified"
(60_exceptions.md R234): a draw decides (log 10). -/
def State.maybeStored (s : State) (a : Nat) (v : Word) : State :=
  if Config.drawBit s.draws then s.drawn.storeWord a v else s.drawn

/-- A write of R0 that does not reset: is it an FCAL_EN rising edge? With the old R0 not known, and FCAL_EN written as 1, both
are admitted, as a draw (44_lifecycle.md R213; log 9). -/
def edgeOf (v : Word) (s : State) : Bool × State :=
  match riseKnown (regGet s.x 0) v with
  | some b => (b, s)
  | none => (Config.drawBit s.draws, s.drawn)

/-- A successful write of R0 (20_memory.md R66, 44_lifecycle.md R211 to R214): bit 1 resets the device; else the word is stored
and a rising edge of FCAL_EN checks PLL_N (70_reset_and_hazards.md R272) and commits. -/
def deviceWriteR0 (v : Word) (s : State) : Reply Unit :=
  if v[1] then .ok () (s.deviceReset.lifeUpdate 0 v false)
  else
    let (edge, s₁) := edgeOf v s
    if edge then
      if s₁.nConsistent then .ok () ((s₁.storeWord 0 v).commit.lifeUpdate 0 v true)
      else .fault .hazardOrder (s₁.maybeStored 0 v)
    else .ok () ((s₁.storeWord 0 v).lifeUpdate 0 v false)

/-- A successful write transaction at the device, with the controller's lifecycle update (20_memory.md R66, 44_lifecycle.md
R210): the calibration-enable hazard is checked before the store (70_reset_and_hazards.md R271). -/
def deviceWrite (a : Nat) (v : Word) (s : State) : Reply Unit :=
  if fcalHazard a s then .fault (.hazardFcal a) (s.maybeStored a v)
  else if a = 0 then deviceWriteR0 v s
  else .ok () ((s.storeWord a v).lifeUpdate a v false)

/-- What a failed write transaction leaves (20_memory.md R69): the register is `⊥`; PLL_N is not known consistent after a
failed write of R34 or R36; a failed write of R0 leaves its effects uncertain: with bit 1 set every register is `⊥`, nothing is
committed, and whether PLL_N's consistency was reset is a draw; else, with bit 3 set, a draw decides between the old committed
snapshot and the current one (log 11). `life` is left as the controller tracks it. -/
def State.writeFailed (s : State) (a : Nat) (v : Word) : State :=
  if a = 0 then
    if v[1] then
      { s.drawn with x := [], committed := none, nConsistent := Config.drawBit s.draws || s.nConsistent }
    else if v[3] then
      { s.drawn with
        x := regForget s.x 0
        committed := if Config.drawBit s.draws then some s.snapshot else s.committed }
    else { s with x := regForget s.x 0 }
  else if a = 34 ∨ a = 36 then { s with x := regForget s.x a, nConsistent := false }
  else { s with x := regForget s.x a }

/-- The word a successful read transaction returns (20_memory.md R67): a draw from a status register, while readback is not
reliable, and from a register whose content is not known. A read changes no device state. -/
def deviceRead (a : Nat) (s : State) : Word × State :=
  if 110 ≤ a then (Config.draw s.draws, s.drawn)
  else if readbackOk s then
    match regGet s.x a with
    | some w => (w, s)
    | none => (Config.draw s.draws, s.drawn)
  else (Config.draw s.draws, s.drawn)

/-! ## Transactions -/

/-- The transport's answer to the next transaction (20_memory.md R69): the next one the state lists, else the oracle's. -/
def nextAnswer (s : State) : BusAnswer :=
  match s.transport with
  | a :: _ => a
  | [] => Config.transport s.txns

/-- A transaction has been on the bus: it ends the trace of the command and uses up the transport's answer. -/
def State.logged (s : State) (t : Transaction) : State :=
  { s with trace := s.trace ++ [t], transport := s.transport.drop 1, txns := s.txns + 1 }

/-- The index, within the command, of the transaction about to be issued (60_exceptions.md R231), counting from 1. -/
def State.nextIndex (s : State) : Nat := s.trace.length + 1

/-- The address bits of a frame: `a & 0x7F` (30_encoding.md R80, R81). -/
def busAddr (a : Nat) : BusAddr := BitVec.ofNat 7 a

/-- `MemRead(a, 2)`: one read transaction (00_scope.md R12, 30_encoding.md R81, 20_memory.md R67, R69). A failed read changes
nothing on the device. DESIGN CHOICE (log 17): the trace of a failed read shows its byte as sent and no byte as received. -/
def memRead (a : Nat) (s : State) : Reply Word :=
  match nextAnswer s with
  | .ok =>
    let (w, s₁) := deviceRead a s
    .ok w (s₁.logged ⟨readFrameBytes (busAddr a), wordBytes w, .ok⟩)
  | .fault info => .error (.bus info s.nextIndex) (s.logged ⟨readFrameBytes (busAddr a), [], .fault info⟩)

/-- `MemWrite(a, 2, v)`: one write transaction (00_scope.md R12, 30_encoding.md R80, 20_memory.md R66, R69). DESIGN CHOICE
(log 17): the trace of a failed write shows its three bytes as sent. -/
def memWrite (a : Nat) (v : Word) (s : State) : Reply Unit :=
  match nextAnswer s with
  | .ok => deviceWrite a v (s.logged ⟨writeFrameBytes (busAddr a) v, [], .ok⟩)
  | .fault info =>
    .error (.bus info s.nextIndex) ((s.logged ⟨writeFrameBytes (busAddr a) v, [], .fault info⟩).writeFailed a v)

/-! ## Taking a fault, and the end of a command -/

/-- Taking a fault (60_exceptions.md R234), the block's one exception: the record is appended to `faults`. Nothing is saved,
masked or transferred (R238), and there is no return (R239): from then on `step` finds the run stuck. -/
def State.takeFault (s : State) (f : FaultRecord) : State :=
  { s with faults := s.faults ++ [f], result := some (.fault f) }

/-- The start of a command: its trace is empty. -/
def State.begin (s : State) : State := { s with trace := [] }

/-- The end of a command (60_exceptions.md R230): its result goes to the host, an error likewise (R231), a fault is taken. -/
def Reply.finish (r : Reply Value) : State :=
  match r with
  | .ok v s => { s with result := some (.ok v) }
  | .error e s => { s with result := some (.error e) }
  | .fault f s => s.takeFault f

/-- One whole command: every command ends in exactly one outcome (60_exceptions.md R230), none asynchronously. -/
def runCommand (body : State → Reply Value) (s : State) : Host.Outcome State Fault Refusal :=
  .next (body s.begin).finish

/-- A numeric request that is not a command (60_exceptions.md R237): it issues no transaction and changes no state except that
the record REFUSED is appended to `faults`. -/
def State.refuseRequest (s : State) (r : Request) : State :=
  { s.begin with faults := s.faults ++ [.refused r], result := some .refused }

/-- The host's next request, and the state once the block has accepted it (00_scope.md R5, 10_state.md R22). -/
def fetch (s : State) : Option (Request × State) :=
  match s.requests with
  | [] => none
  | r :: rest => some (r, { s with requests := rest })

/-- What the machine does with a request the decoder rejects: a command that is none is refused and marked (60_exceptions.md
R237); bytes that are no frame of the controller's have no meaning at all (30_encoding.md R83). -/
def rejectRequest (r : Request) (s : State) : Host.Outcome State Fault Refusal :=
  match r with
  | .command _ _ => .next (s.refuseRequest r)
  | .frame bytes => .refused (.frameNeverSent bytes)

end Sys2Proof.Machine
end

