-- ==== Sys2Proof/Machine/BitField.lean ====
section
/-!
DEFINITION. BitField (40_bitfield.md): the range check and the commands SET_BITS and GET_BITS. Neither reads or writes state or
issues a transaction.
-/
namespace Sys2Proof.Machine

/-- `check_range(low, high)` (40_bitfield.md R112). -/
def checkRange (low high : Int) (s : State) : Reply Unit := faultIf (!rangeOk low high) (.range low high) s

/-- SET_BITS as a part of a command (40_bitfield.md R110). -/
def setBitsOp (word : Word) (low high : Int) (data : Nat) (s : State) : Reply Word :=
  (checkRange low high s).andThen fun _ s₁ => .ok (setBitsWord word low.toNat high.toNat data) s₁

/-- GET_BITS as a part of a command (40_bitfield.md R111). -/
def getBitsOp (word : Word) (low high : Int) (s : State) : Reply Nat :=
  (checkRange low high s).andThen fun _ s₁ => .ok (getBitsWord word low.toNat high.toNat) s₁

/-- SET_BITS (40_bitfield.md R110). -/
def execSetBits (word : Word) (low high : Int) (data : Nat) (s : State) : Host.Outcome State Fault Refusal :=
  runCommand (fun s₀ => (setBitsOp word low high data s₀).andThen fun r s₁ => .ok (.word r) s₁) s

/-- GET_BITS (40_bitfield.md R111). -/
def execGetBits (word : Word) (low high : Int) (s : State) : Host.Outcome State Fault Refusal :=
  runCommand (fun s₀ => (getBitsOp word low high s₀).andThen fun r s₁ => .ok (.nat r) s₁) s

end Sys2Proof.Machine
end

