-- ==== Sys2Proof/Machine/RegisterAccess.lean ====
section
/-!
DEFINITION. RegisterAccess (41_register_access.md): address checks, read, write, read-modify-write, named fields and groups,
and the commands READ, WRITE, MODIFY, FIELD_READ, FIELD_WRITE and READ_GROUP.
-/
namespace Sys2Proof.Machine

/-- `check_addr(a)` (41_register_access.md R121), before any transaction and before the mask to 7 bits (20_memory.md R71). -/
def checkAddr (a : Nat) (s : State) : Reply Unit :=
  if 113 ≤ a then .error (.addr a) s
  else faultIf (decide (a ∈ s.cfg.reserved)) (.reserved a) s

/-- `if addr >= 110: fault F_RO(addr)` (41_register_access.md R123). -/
def checkWritable (a : Nat) (s : State) : Reply Unit := faultIf (decide (110 ≤ a)) (.readOnly a) s

/-- The lifecycle gate (41_register_access.md R120): a command that depends on a read faults before any transaction. -/
def checkReadback (c : LockedCommand) (s : State) : Reply Unit := faultIf (!readbackOk s) (.locked c) s

/-- READ (41_register_access.md R122). -/
def readRegister (a : Nat) (s : State) : Reply Word :=
  (checkAddr a s).andThen fun _ s₁ => memRead a s₁

/-- WRITE (41_register_access.md R123). -/
def writeRegister (a : Nat) (w : Word) (s : State) : Reply Unit :=
  (checkAddr a s).andThen fun _ s₁ =>
  (checkWritable a s₁).andThen fun _ s₂ => memWrite a w s₂

/-- MODIFY (41_register_access.md R124): one read transaction, then one write transaction, always. -/
def modifyRegister (a : Nat) (low high : Int) (data : Nat) (s : State) : Reply Unit :=
  (checkRange low high s).andThen fun _ s₁ =>
  (checkAddr a s₁).andThen fun _ s₂ =>
  (checkWritable a s₂).andThen fun _ s₃ =>
  (checkReadback (.modify a) s₃).andThen fun _ s₄ =>
  (memRead a s₄).andThen fun old s₅ =>
  (setBitsOp old low high data s₅).andThen fun new s₆ => memWrite a new s₆

/-- The parts of FIELD_READ, most significant first, `v` being what the parts before have given (41_register_access.md R127). -/
def readParts : List Part → Nat → State → Reply Nat
  | [], v, s => .ok v s
  | p :: ps, v, s =>
    (readRegister p.addr s).andThen fun word s₁ =>
    (getBitsOp word p.lo p.hi s₁).andThen fun bits s₂ => readParts ps (v * 2 ^ partWidth p + bits) s₂

/-- FIELD_READ (41_register_access.md R127). -/
def readField (f : FieldId) (s : State) : Reply Nat := readParts (fieldParts s.cfg f) 0 s

/-- The parts of FIELD_WRITE, most significant first: a whole register by WRITE, a partial part by MODIFY
(41_register_access.md R128, 30_encoding.md R93). -/
def writeParts : List Part → Nat → State → Reply Unit
  | [], _, s => .ok () s
  | p :: ps, v, s =>
    (if partFull p then writeRegister p.addr (BitVec.ofNat 16 (partOfValue v p ps)) s
     else modifyRegister p.addr p.lo p.hi (partOfValue v p ps) s).andThen fun _ s₁ => writeParts ps v s₁

/-- FIELD_WRITE (41_register_access.md R128): the width check, then the gate, both before any transaction, then the parts. -/
def writeField (f : FieldId) (v : Int) (s : State) : Reply Unit :=
  (requireParam (decide (0 ≤ v ∧ v < 2 ^ fieldWidth s.cfg f)) (.width f) v s).andThen fun _ s₁ =>
  (faultIf (!(fieldParts s₁.cfg f).all partFull && !readbackOk s₁) (.locked (.fieldWrite f)) s₁).andThen fun _ s₂ =>
  writeParts (fieldParts s₂.cfg f) v.toNat s₂

/-- The fields of a group, one FIELD_READ each, in order (41_register_access.md R130). -/
def readFields : List FieldId → State → Reply (List (FieldId × Nat))
  | [], s => .ok [] s
  | f :: fs, s =>
    (readField f s).andThen fun v s₁ =>
    (readFields fs s₁).andThen fun rec s₂ => .ok ((f, v) :: rec) s₂

/-- READ_GROUP of the status group: the raw words of R110, R111 and R112 (41_register_access.md R130). -/
def readStatus (s : State) : Reply Value :=
  (readRegister 110 s).andThen fun w110 s₁ =>
  (readRegister 111 s₁).andThen fun w111 s₂ =>
  (readRegister 112 s₂).andThen fun w112 s₃ => .ok (.status w110 w111 w112) s₃

/-- READ_GROUP (41_register_access.md R130). -/
def readGroupOp (g : GroupId) (s : State) : Reply Value :=
  if g = .status then readStatus s
  else (readFields (groupFields g) s).andThen fun rec s₁ => .ok (.fields rec) s₁

/-- READ (41_register_access.md R122). -/
def execRead (addr : Nat) (s : State) : Host.Outcome State Fault Refusal :=
  runCommand (fun s₀ => (readRegister addr s₀).andThen fun w s₁ => .ok (.word w) s₁) s

/-- WRITE (41_register_access.md R123). -/
def execWrite (addr : Nat) (word : Word) (s : State) : Host.Outcome State Fault Refusal :=
  runCommand (fun s₀ => (writeRegister addr word s₀).andThen fun _ s₁ => .ok .unit s₁) s

/-- MODIFY (41_register_access.md R124). -/
def execModify (addr : Nat) (low high : Int) (data : Nat) (s : State) : Host.Outcome State Fault Refusal :=
  runCommand (fun s₀ => (modifyRegister addr low high data s₀).andThen fun _ s₁ => .ok .unit s₁) s

/-- FIELD_READ (41_register_access.md R127). -/
def execFieldRead (field : FieldId) (s : State) : Host.Outcome State Fault Refusal :=
  runCommand (fun s₀ => (readField field s₀).andThen fun v s₁ => .ok (.nat v) s₁) s

/-- FIELD_WRITE (41_register_access.md R128). -/
def execFieldWrite (field : FieldId) (value : Int) (s : State) : Host.Outcome State Fault Refusal :=
  runCommand (fun s₀ => (writeField field value s₀).andThen fun _ s₁ => .ok .unit s₁) s

/-- READ_GROUP (41_register_access.md R130). -/
def execReadGroup (group : GroupId) (s : State) : Host.Outcome State Fault Refusal :=
  runCommand (readGroupOp group) s

end Sys2Proof.Machine
end

