-- ==== Sys2Proof/Machine/Bus.lean ====
section
/-!
DEFINITION. The two bus frames (30_encoding.md R80, R81) as instructions of one transaction each: what the controller's
transaction does when it puts that frame on the bus (20_memory.md R66, R67). The controller never sends a frame whose address
bits are 113..127, and what the device does with one is not in the source (R83); a frame to a reserved address or a write frame
to a status register breaks the same prohibitions as the commands do (10_state.md R27, R31; log 14).
-/
namespace Sys2Proof.Machine

/-- WRITE_FRAME (30_encoding.md R80): one write transaction. -/
def execWriteFrame (addr : BusAddr) (data : Word) (s : State) : Host.Outcome State Fault Refusal :=
  if 113 ≤ addr.toNat then .refused (.frameAddressNeverSent addr)
  else runCommand (fun s₀ => (writeRegister addr.toNat data s₀).andThen fun _ s₁ => .ok .unit s₁) s

/-- READ_FRAME (30_encoding.md R81): one read transaction. -/
def execReadFrame (addr : BusAddr) (s : State) : Host.Outcome State Fault Refusal :=
  if 113 ≤ addr.toNat then .refused (.frameAddressNeverSent addr)
  else runCommand (fun s₀ => (readRegister addr.toNat s₀).andThen fun w s₁ => .ok (.word w) s₁) s

end Sys2Proof.Machine
end

