-- ==== Sys2Proof/Machine/DeviceLifecycle.lean ====
section
/-!
DEFINITION. DeviceLifecycle (44_lifecycle.md): the commands RESET, UNLOCK and ARM. Their effects on the device and on `life` are
those of the write transactions they issue (Machine/Ops.lean, R210 to R214).
-/
namespace Sys2Proof.Machine

/-- ARM (44_lifecycle.md R218): clear FCAL_EN first if it reads 1, so that the last write is a rising edge. -/
def armOp (s : State) : Reply Unit :=
  (checkReadback .arm s).andThen fun _ s₁ =>
  (readField .FCAL_EN s₁).andThen fun cur s₂ =>
  (if cur = 1 then modifyRegister 0 3 3 0 s₂ else .ok () s₂).andThen fun _ s₃ =>
  modifyRegister 0 3 3 1 s₃

/-- RESET (44_lifecycle.md R216): a full-register WRITE of R0_RESET_WORD, never a MODIFY. -/
def execReset (s : State) : Host.Outcome State Fault Refusal :=
  runCommand (fun s₀ => (writeRegister 0 s₀.cfg.r0ResetWord s₀).andThen fun _ s₁ => .ok .unit s₁) s

/-- UNLOCK (44_lifecycle.md R217): a full-register WRITE of UNLOCK_WORD. -/
def execUnlock (s : State) : Host.Outcome State Fault Refusal :=
  runCommand (fun s₀ => (writeRegister 0 unlockWord s₀).andThen fun _ s₁ => .ok .unit s₁) s

/-- ARM (44_lifecycle.md R218). -/
def execArm (s : State) : Host.Outcome State Fault Refusal :=
  runCommand (fun s₀ => (armOp s₀).andThen fun _ s₁ => .ok .unit s₁) s

end Sys2Proof.Machine
end

