-- ==== Sys2Proof/Machine/Frequency.lean ====
section
/-!
DEFINITION. FrequencyModel (42_frequency_model.md): every frequency from fresh reads in the same command and the reference
frequency, in exact rationals, and the commands GET_FPD, GET_FVCO and GET_FSMCLK.
-/
namespace Sys2Proof.Machine

/-- `compute_fpd()` (42_frequency_model.md R151). Where both divisors read 0 the fault names PLL_R_PRE (log 13). -/
def computeFpd (s : State) : Reply Rat :=
  (readField .OSC_2X s).andThen fun osc2x s₁ =>
  (readField .PLL_R_PRE s₁).andThen fun rpre s₂ =>
  (readField .MULT s₂).andThen fun mult s₃ =>
  (readField .PLL_R s₃).andThen fun r s₄ =>
  (faultIf (decide (rpre = 0)) (.div0 .PLL_R_PRE) s₄).andThen fun _ s₅ =>
  (faultIf (decide (r = 0)) (.div0 .PLL_R) s₅).andThen fun _ s₆ =>
  .ok (fpdOf s₆.fOscIn osc2x rpre mult r) s₆

/-- `fvco_from(fpd)` (42_frequency_model.md R152). -/
def fvcoFrom (fpd : Rat) (s : State) : Reply Rat :=
  (readField .PLL_N s).andThen fun n s₁ =>
  (readField .PLL_NUM s₁).andThen fun num s₂ =>
  (readField .PLL_DEN s₂).andThen fun den s₃ =>
  (faultIf (decide (den = 0)) (.div0 .PLL_DEN) s₃).andThen fun _ s₄ =>
  .ok (fvcoOf fpd n num den) s₄

/-- `compute_fvco()` (42_frequency_model.md R152). -/
def computeFvco (s : State) : Reply Rat := (computeFpd s).andThen fvcoFrom

/-- `compute_fsmclk` (42_frequency_model.md R153). -/
def computeFsmclk (s : State) : Reply Rat :=
  (readField .CAL_CLK_DIV s).andThen fun c s₁ => .ok (fsmclkOf s₁.fOscIn c) s₁

/-- GET_FPD (42_frequency_model.md R151). -/
def execGetFpd (s : State) : Host.Outcome State Fault Refusal :=
  runCommand (fun s₀ => (computeFpd s₀).andThen fun q s₁ => .ok (.freq q) s₁) s

/-- GET_FVCO (42_frequency_model.md R152). -/
def execGetFvco (s : State) : Host.Outcome State Fault Refusal :=
  runCommand (fun s₀ => (computeFvco s₀).andThen fun q s₁ => .ok (.freq q) s₁) s

/-- GET_FSMCLK (42_frequency_model.md R153). -/
def execGetFsmclk (s : State) : Host.Outcome State Fault Refusal :=
  runCommand (fun s₀ => (computeFsmclk s₀).andThen fun q s₁ => .ok (.freq q) s₁) s

end Sys2Proof.Machine
end

