-- ==== Sys2Proof/Machine/Ramp.lean ====
section
/-!
DEFINITION. RampConfigurator, divider and output programming (43_ramp_configurator.md): the commands CONFIGURE_RAMP,
SET_DIVIDER and SET_OUTPUT_POWER.
-/
namespace Sys2Proof.Machine

/-- The register codes derived from a RampProgram (43_ramp_configurator.md R170 phase 2); never stored in the state (10_state.md
R21). -/
structure RampCodes where
  len : Int
  inc : Int
  thresh : Int
  limitHigh : Int
  limitLow : Int
deriving DecidableEq, Repr

/-- The written increment (43_ramp_configurator.md R173, 30_encoding.md R95): `2^30 - asc` when descending. -/
def writtenInc (asc : Int) (descending : Bool) : Int := if descending then incWrap - asc else asc

/-- Phase 2 of CONFIGURE_RAMP (43_ramp_configurator.md R170, R172 to R175): derive and validate, in the order of R170. It issues
no transaction. Where `f_pd` and the length are both 0 the fault names `f_pd` (log 13). -/
def deriveRamp (span duration thresholdHz : Rat) (descending : Bool) (fpd fvco : Rat) (s : State) : Reply RampCodes :=
  let p := duration * fpd
  (requireParam (decide (0 ≤ p ∧ p ≤ lenMax)) .ramp_len p s).andThen fun _ s₁ =>
  let len := cyclesOf duration fpd
  (faultIf (decide (fpd = 0)) (.div0 .f_pd) s₁).andThen fun _ s₂ =>
  (faultIf (decide (len = 0)) (.div0 .ramp_len) s₂).andThen fun _ s₃ =>
  let asc := incCode span fpd len
  (requireParam (decide (0 ≤ asc ∧ asc ≤ incMax)) .ramp_inc asc s₃).andThen fun _ s₄ =>
  let inc := writtenInc asc descending
  (requireParam (decide (0 ≤ inc ∧ inc ≤ incMax)) .ramp_inc inc s₄).andThen fun _ s₅ =>
  let thr := codeHz thresholdHz fpd
  (requireParam (decide (0 ≤ thr ∧ thr ≤ threshMax)) .recal_threshold thr s₅).andThen fun _ s₆ =>
  let hi := limitHighCode span fpd fvco
  let lo := limitLowCode span fpd fvco
  (requireParam (decide (0 ≤ hi ∧ hi < limitWrap)) .ramp_limit_high hi s₆).andThen fun _ s₇ =>
  (requireParam (decide (0 ≤ lo ∧ lo < limitWrap)) .ramp_limit_low lo s₇).andThen fun _ s₈ =>
  .ok ⟨len, inc, thr, hi, lo⟩ s₈

/-- The field writes of phase 3, in the order of 43_ramp_configurator.md R170 (steps 2 to 6 and 8; R176 to R178). -/
def rampWrites (p : Params) (freeRun : Bool) (c : RampCodes) : List (FieldId × Int) :=
  [(.RAMP_MANUAL, 0),
   (.RAMP0_NEXT_TRIG, if freeRun then p.codeNextTrigTimeout else p.codeNextTrigTrigA),
   (.RAMP_TRIGA, if freeRun then p.codeTrigADisabled else p.codeTrigARampclkRise),
   (.RAMP0_NEXT, p.codeNextRamp0),
   (.RAMP0_RST, 1),
   (.RAMP_TRIG_CAL, 0),
   (.LD_DLY, 0),
   (.RAMP_SCALE_COUNT, 1),
   (.QUICK_RECAL_EN, 1),
   (.RAMP0_LEN, c.len),
   (.RAMP0_INC, c.inc),
   (.RAMP_THRESH, c.thresh),
   (.RAMP_LIMIT_HIGH, c.limitHigh),
   (.RAMP_LIMIT_LOW, c.limitLow)]

/-- A sequence of FIELD_WRITEs; it ends at the first that does not complete. -/
def writeFields : List (FieldId × Int) → State → Reply Unit
  | [], s => .ok () s
  | (f, v) :: rest, s => (writeField f v s).andThen fun _ s₁ => writeFields rest s₁

/-- CONFIGURE_RAMP's phases (43_ramp_configurator.md R170): gate, read, derive and validate, write. -/
def configureRampOp (span duration thresholdHz : Rat) (descending freeRun : Bool) (s : State) : Reply Unit :=
  (checkReadback .configureRamp s).andThen fun _ s₁ =>
  (computeFpd s₁).andThen fun fpd s₂ =>
  (fvcoFrom fpd s₂).andThen fun fvco s₃ =>
  (deriveRamp span duration thresholdHz descending fpd fvco s₃).andThen fun codes s₄ =>
  writeFields (rampWrites s₄.cfg freeRun codes) s₄

/-- SET_DIVIDER (43_ramp_configurator.md R190): the range checks, the gate, then PLL_N high part first, PLL_NUM, PLL_DEN. -/
def setDividerOp (n num den : Int) (s : State) : Reply Unit :=
  (requireParam (decide (0 ≤ n ∧ n < 2 ^ 19)) .pll_n n s).andThen fun _ s₁ =>
  (requireParam (decide (0 ≤ num ∧ num < 2 ^ 32)) .pll_num num s₁).andThen fun _ s₂ =>
  (requireParam (decide (0 ≤ den ∧ den < 2 ^ 32)) .pll_den den s₂).andThen fun _ s₃ =>
  (checkReadback .setDivider s₃).andThen fun _ s₄ =>
  writeFields [(.PLL_N, n), (.PLL_NUM, num), (.PLL_DEN, den)] s₄

/-- The field of an output channel (43_ramp_configurator.md R195). -/
def powerField : Channel → FieldId
  | .A => .OUTA_PWR
  | .B => .OUTB_PWR

/-- SET_OUTPUT_POWER (43_ramp_configurator.md R195). Its F_LOCKED is FIELD_WRITE's and records the field (DESIGN CHOICE, log 18). -/
def setOutputPowerOp (channel : Channel) (level : Int) (s : State) : Reply Unit :=
  (requireParam (decide (0 ≤ level ∧ level ≤ s.cfg.outPwrMax)) .power_level level s).andThen fun _ s₁ =>
  writeField (powerField channel) level s₁

/-- CONFIGURE_RAMP (43_ramp_configurator.md R170). -/
def execConfigureRamp (span duration thresholdHz : Rat) (descending freeRun : Bool) (s : State) :
    Host.Outcome State Fault Refusal :=
  runCommand
    (fun s₀ => (configureRampOp span duration thresholdHz descending freeRun s₀).andThen fun _ s₁ => .ok .unit s₁) s

/-- SET_DIVIDER (43_ramp_configurator.md R190). -/
def execSetDivider (n num den : Int) (s : State) : Host.Outcome State Fault Refusal :=
  runCommand (fun s₀ => (setDividerOp n num den s₀).andThen fun _ s₁ => .ok .unit s₁) s

/-- SET_OUTPUT_POWER (43_ramp_configurator.md R195). -/
def execSetOutputPower (channel : Channel) (level : Int) (s : State) : Host.Outcome State Fault Refusal :=
  runCommand (fun s₀ => (setOutputPowerOp channel level s₀).andThen fun _ s₁ => .ok .unit s₁) s

end Sys2Proof.Machine
end

