-- ==== Sys2Proof/Machine/Dispatch.lean ====
section
/-!
DEFINITION. One arm per instruction, each one direct call of its meaning.
-/
namespace Sys2Proof.Machine

def exec (i : Instr) (s : State) : Host.Outcome State Fault Refusal :=
  match i with
  | .setBits word low high data => Sys2Proof.Machine.execSetBits word low high data s
  | .getBits word low high => Sys2Proof.Machine.execGetBits word low high s
  | .read addr => Sys2Proof.Machine.execRead addr s
  | .write addr word => Sys2Proof.Machine.execWrite addr word s
  | .modify addr low high data => Sys2Proof.Machine.execModify addr low high data s
  | .fieldRead field => Sys2Proof.Machine.execFieldRead field s
  | .fieldWrite field value => Sys2Proof.Machine.execFieldWrite field value s
  | .readGroup group => Sys2Proof.Machine.execReadGroup group s
  | .getFpd => Sys2Proof.Machine.execGetFpd s
  | .getFvco => Sys2Proof.Machine.execGetFvco s
  | .getFsmclk => Sys2Proof.Machine.execGetFsmclk s
  | .configureRamp span duration threshold descending freeRun => Sys2Proof.Machine.execConfigureRamp span duration threshold descending freeRun s
  | .setDivider n num den => Sys2Proof.Machine.execSetDivider n num den s
  | .setOutputPower channel level => Sys2Proof.Machine.execSetOutputPower channel level s
  | .reset => Sys2Proof.Machine.execReset s
  | .unlock => Sys2Proof.Machine.execUnlock s
  | .arm => Sys2Proof.Machine.execArm s
  | .writeFrame addr data => Sys2Proof.Machine.execWriteFrame addr data s
  | .readFrame addr => Sys2Proof.Machine.execReadFrame addr s

end Sys2Proof.Machine
end

