-- ==== Sys2Proof/Machine/Step.lean ====
section
/-!
DEFINITION. One step: one whole request (00_scope.md R5). A run with a fault recorded has no step (60_exceptions.md R234); with
no request the block waits (70_reset_and_hazards.md R260).
-/
namespace Sys2Proof.Machine

/-- A request that has been accepted: decoded and executed, or rejected (60_exceptions.md R237). -/
def stepRequest (r : Request) (s : State) : Host.Outcome State Fault Refusal :=
  match decode r with
  | .ok i => exec i s
  | .error _ => rejectRequest r s

/-- One step of the machine. -/
def step (s : State) : Host.Outcome State Fault Refusal :=
  if paramsOk s.cfg then
    match stuckOn s with
    | some f => .fault (.stuck f)
    | none =>
      match fetch s with
      | some (r, s₁) => stepRequest r s₁
      | none => .next s
  else .refused .badConfiguration

/-- The state in which the host's next request is the one that a word of spec/opcode_table.json stands for (log 15). -/
def State.withFetchWord (s : State) (nbits w : Nat) : State :=
  { s with requests := tableRequest nbits w :: s.requests }

end Sys2Proof.Machine
end

