-- ==== Sys2Proof/WellFormed.lean ====
section
/-!
DEFINITION. Which instructions can be written down as a request. Every typed command can: 30_encoding.md R84 says that an
operand of the wrong type cannot be expressed, and an ill-formed BitRange, an address of 113 or more and an out-of-range value
are operands with an outcome of their own (R98). A bus frame can only carry the address of a register (R82, R83).
-/
namespace Sys2Proof

/-- The address bits of a frame the controller sends are always 0..112 (30_encoding.md R82, R83). -/
abbrev frameAddrOk (a : BusAddr) : Bool := decide (a.toNat ≤ 112)

/-- The well-formed instructions. -/
def WellFormed : Instr → Bool
  | .setBits _ _ _ _ => true
  | .getBits _ _ _ => true
  | .read _ => true
  | .write _ _ => true
  | .modify _ _ _ _ => true
  | .fieldRead _ => true
  | .fieldWrite _ _ => true
  | .readGroup _ => true
  | .getFpd => true
  | .getFvco => true
  | .getFsmclk => true
  | .configureRamp _ _ _ _ _ => true
  | .setDivider _ _ _ => true
  | .setOutputPower _ _ => true
  | .reset => true
  | .unlock => true
  | .arm => true
  | .writeFrame a _ => frameAddrOk a
  | .readFrame a => frameAddrOk a

end Sys2Proof
end

