-- ==== Sys2Proof/Safety.lean ====
section
/-!
DEFINITION. What counts as a safe run, in the terms claims use: no fault recorded, readback reliable, an ideal transport for a
stretch, what a command leaves unchanged, the value of a field, and the invariant every step keeps.
-/
namespace Sys2Proof.Safety

open Sys2Proof.Machine

/-- "Every claim about a run takes `faults` is empty as a premise" (60_exceptions.md R234, R237). -/
abbrev faultFree (s : State) : Prop := s.faults = []

/-- R0 is known and its POWERDOWN bit is 0: "Claims should avoid runs that set POWERDOWN" (60_exceptions.md R248,
93_implementation_defined.md I27). -/
def powerdownClear (s : State) : Bool :=
  match regGet s.x 0 with
  | some w => !w[0]
  | none => false

/-- The transport lets the next `k` transactions succeed (20_memory.md R69). -/
abbrev transportOk (k : Nat) (s : State) : Prop := s.transport.take k = List.replicate k .ok

/-- FCAL_EN is known to be 0: the condition under which ramp registers may be written (70_reset_and_hazards.md R271). -/
def fcalClear (s : State) : Bool :=
  match regGet s.x 0 with
  | some w => !w[3]
  | none => false

/-- Writes to these addresses break no calibration-enable requirement: FCAL_EN is 0 if one of them is a ramp register
(70_reset_and_hazards.md R271). -/
abbrev noFcalHazard (addrs : List Nat) (s : State) : Prop := ∀ a ∈ addrs, a ∈ rampRegs s.cfg → fcalClear s = true

/-- An address that passes `check_addr` (41_register_access.md R121). -/
abbrev accessible (p : Params) (a : Nat) : Prop := a < 113 ∧ a ∉ p.reserved

/-- Every part of a field lies at an address that passes `check_addr`. -/
abbrev fieldAccessible (p : Params) (f : FieldId) : Prop := ∀ q ∈ fieldParts p f, accessible p q.addr

/-- A field none of whose parts lies in R0. -/
abbrev notInR0 (p : Params) (f : FieldId) : Prop := ∀ q ∈ fieldParts p f, q.addr ≠ 0

/-- Two fields that share no bit of a register. -/
abbrev fieldsDisjoint (p : Params) (f g : FieldId) : Prop :=
  ∀ q ∈ fieldParts p f, ∀ r ∈ fieldParts p g, q.addr ≠ r.addr ∨ q.hi < r.lo ∨ r.hi < q.lo

/-- How many transactions the write of a part takes: one for a whole register, a read and a write for a partial one
(41_register_access.md R128). -/
abbrev partWrites (p : Part) : Nat := if partFull p then 1 else 2

/-- How many transactions a FIELD_WRITE takes. -/
abbrev fieldWrites (p : Params) (f : FieldId) : Nat := ((fieldParts p f).map partWrites).sum

/-! ## What a command leaves unchanged -/

/-- The device is as it was: the register file, the committed snapshot and PLL_N's consistency (10_state.md R25, R36, R37). -/
structure SameDevice (s t : State) : Prop where
  x : t.x = s.x
  committed : t.committed = s.committed
  nConsistent : t.nConsistent = s.nConsistent

/-- The controller is as it was, but for `life`: the reference frequency, the parameters, the recorded faults and the requests
still to come (10_state.md R21, 00_scope.md R7). -/
structure SameController (s t : State) : Prop where
  fOscIn : t.fOscIn = s.fOscIn
  faults : t.faults = s.faults
  cfg : t.cfg = s.cfg
  requests : t.requests = s.requests

/-- The block is as it was: controller, lifecycle and device. -/
structure SameBlock (s t : State) : Prop where
  controller : SameController s t
  life : t.life = s.life
  device : SameDevice s t

/-- A command that ended in a fault before any transaction: the record is appended, and nothing else of the block changed
(60_exceptions.md R234). -/
structure FaultedUntouched (f : FaultRecord) (s t : State) : Prop where
  faults : t.faults = s.faults ++ [f]
  result : t.result = some (.fault f)
  fOscIn : t.fOscIn = s.fOscIn
  cfg : t.cfg = s.cfg
  requests : t.requests = s.requests
  life : t.life = s.life
  device : SameDevice s t
  trace : t.trace = []
  transport : t.transport = s.transport
  txns : t.txns = s.txns

/-- A command that took a fault: the record is its result and is appended to `faults`; the rest of the controller is as it
was, but for `life` (60_exceptions.md R234). -/
structure FaultTaken (f : FaultRecord) (s t : State) : Prop where
  result : t.result = some (.fault f)
  faults : t.faults = s.faults ++ [f]
  fOscIn : t.fOscIn = s.fOscIn
  cfg : t.cfg = s.cfg
  requests : t.requests = s.requests

/-- A command that ended in an error before any transaction: the error is its result, and nothing of the block changed
(60_exceptions.md R232). -/
structure ErrorUntouched (e : BlockError) (s t : State) : Prop where
  result : t.result = some (.error e)
  block : SameBlock s t
  trace : t.trace = []
  transport : t.transport = s.transport
  txns : t.txns = s.txns

/-- The transport's answers used up by `k` transactions. -/
structure Used (k : Nat) (s t : State) : Prop where
  trace : t.trace.length = k
  transport : t.transport = s.transport.drop k
  txns : t.txns = s.txns + k

/-- Registers other than those of a list of addresses hold what they held. -/
abbrev OthersKept (addrs : List Nat) (s t : State) : Prop := ∀ b, b ∉ addrs → regGet t.x b = regGet s.x b

/-! ## The bus, as 30_encoding.md writes it -/

/-- A successful read transaction: `1aaaaaaa` sent, the high byte and the low byte received (30_encoding.md R81). -/
def readTransaction (a : Nat) (w : Word) : Transaction where
  sent := [BitVec.ofNat 8 (128 + a)]
  received := [BitVec.ofNat 8 (w.toNat / 256), BitVec.ofNat 8 (w.toNat % 256)]
  answer := .ok

/-- A successful write transaction: `0aaaaaaa`, the high byte, the low byte (30_encoding.md R80). -/
def writeTransaction (a : Nat) (w : Word) : Transaction where
  sent := [BitVec.ofNat 8 a, BitVec.ofNat 8 (w.toNat / 256), BitVec.ofNat 8 (w.toNat % 256)]
  received := []
  answer := .ok

/-- Where the lifecycle stands after a successful write of a register other than R0, or of R0 with no reset, unlock or FCAL_EN
edge in it (44_lifecycle.md R210). -/
def lifeAfterPlainWrite : Lifecycle → Lifecycle
  | .READBACK_UNLOCKED => .CONFIGURED
  | l => l

/-- PLL_N's consistency after a successful write of `w` to register `a` (10_state.md R37). -/
def consistentAfter (s : State) (a : Nat) (w : Word) : Bool :=
  if a = 36 then true
  else if a = 34 then
    match regGet s.x 34 with
    | some old => s.nConsistent && decide (old.toNat % 8 = w.toNat % 8)
    | none => false
  else s.nConsistent

/-- A snapshot of the ramp registers of a state (10_state.md R36). -/
abbrev IsSnapshot (c : RegFile) (s : State) : Prop :=
  ∀ a, regGet c a = if a ∈ rampRegs s.cfg then regGet s.x a else none

/-- What the write of `w` to register `a` leaves of the device when it raised a hazard fault: whether it was stored is open
(60_exceptions.md R234; log 10). If it was, PLL_N's consistency follows R37; every other register, the snapshot and the
lifecycle are as they were. -/
structure StoredOrNot (a : Nat) (w : Word) (s t : State) : Prop where
  register : (regGet t.x a = some w ∧ t.nConsistent = consistentAfter s a w) ∨
    (regGet t.x a = regGet s.x a ∧ t.nConsistent = s.nConsistent)
  others : OthersKept [a] s t
  committed : t.committed = s.committed
  life : t.life = s.life

/-- What a successful write of `v` to R0 leaves of the device and the lifecycle, `edge` being whether it was an FCAL_EN rising
edge (44_lifecycle.md R210 to R214). -/
structure R0Written (edge : Bool) (v : Word) (s t : State) : Prop where
  /-- bit 1 set: the device is reset, and the other bits have no effect (R211) -/
  reset : v[1] = true →
    t.x = s.cfg.resetDefaults ∧ t.committed = none ∧ t.nConsistent = true ∧ t.life = .READBACK_LOCKED
  /-- bit 1 clear: the word is stored, every other register is as it was (R212 to R214) -/
  stored : v[1] = false →
    regGet t.x 0 = some v ∧ OthersKept [0] s t ∧ t.nConsistent = s.nConsistent
  /-- a rising edge commits the staged ramp (R213) -/
  committed : v[1] = false → edge = true → ∃ c, t.committed = some c ∧ IsSnapshot c s
  /-- without an edge the snapshot is kept (R214) -/
  kept : v[1] = false → edge = false → t.committed = s.committed
  /-- the lifecycle: only the unlock word unlocks (R212), an edge enters RAMPING (R213), any other write CONFIGURED (R210) -/
  life : v[1] = false → t.life =
    match s.life with
    | .READBACK_LOCKED => if v = 0x2410 then .READBACK_UNLOCKED else .READBACK_LOCKED
    | .READBACK_UNLOCKED => if edge then .RAMPING else .CONFIGURED
    | .CONFIGURED => if edge then .RAMPING else .CONFIGURED
    | .RAMPING => .RAMPING
    | .RESET => .RESET

/-- `edge` is what FCAL_EN's old and new value say, where R0's old word decides it (44_lifecycle.md R213). -/
abbrev EdgeKnown (edge : Bool) (v : Word) (s : State) : Prop :=
  (∃ old, regGet s.x 0 = some old ∧ edge = (!old[3] && v[3])) ∨
  (regGet s.x 0 = none ∧ v[3] = false ∧ edge = false)

/-! ## The value of a field -/

/-- The value of a part list in a register file (30_encoding.md R91), where every part is known. -/
def partsValue (x : RegFile) : List Part → Option Nat
  | [] => some 0
  | p :: ps =>
    match regGet x p.addr, partsValue x ps with
    | some w, some v => some (w.toNat / 2 ^ p.lo % 2 ^ partWidth p * 2 ^ partsWidth ps + v)
    | _, _ => none

/-- The value of a field in a state: `none` where a part of it is not known. -/
def fieldValue (s : State) (f : FieldId) : Option Nat := partsValue s.x (fieldParts s.cfg f)

/-! ## The invariant -/

/-- The invariant of the machine: the reference frequency is positive (10_state.md R21), the configuration passes its check
(43_ramp_configurator.md R176), the register file and the committed snapshot are in canonical form and the snapshot lies within
RAMP_REGS (10_state.md R25, R36), `life` is never RESET between commands (R24), and once readback is unlocked R0 never holds a
set RESET bit (44_lifecycle.md R211: writing one resets the device). -/
structure Inv (s : State) : Prop where
  freq_pos : 0 < s.fOscIn
  cfg_ok : paramsOk s.cfg = true
  x_wf : regWf s.x = true
  committed_wf : ∀ c, s.committed = some c → regWf c = true ∧ ∀ e ∈ c, e.1 ∈ rampRegs s.cfg
  life_ne_reset : s.life ≠ .RESET
  r0_reset_clear : s.life ≠ .READBACK_LOCKED → ∀ w, regGet s.x 0 = some w → w[1] = false

end Sys2Proof.Safety
end

