-- ==== Sys2Proof/Certificates/Slice0/Obligations.lean ====
section
/-!
DEFINITION. The statements for the provers. They are about single instructions, the decoder and the step; none is about a program.
Premises say what the state and the operands must be: `transportOk k s` that the transport lets the next k transactions succeed,
`paramsOk s.cfg` that the configuration passes its check.
-/

open Sys2Proof Sys2Proof.Machine Sys2Proof.Safety

/-! ## Encoding -/

/-- Decoding the encoding of a well-formed instruction gives it back, for every operand value (30_encoding.md R80 to R90; the
numeric codes of the operands are the model's choice, log 8). -/
def Obligations.DecodeOfEncodeIsTheInstruction : Prop :=
  ∀ i : Instr, WellFormed i = true → decode (encode i) = .ok i

/-- A bus frame has one meaning: bytes decode to an instruction exactly if they are that instruction's frame (30_encoding.md R80 to
R83). -/
def Obligations.FrameBytesHaveOneMeaning : Prop :=
  ∀ (bytes : List Byte) (i : Instr),
    decode (.frame bytes) = .ok i ↔ encode i = .frame bytes ∧ WellFormed i = true

/-- A few requests decode to the instructions they stand for: frames written out from 30_encoding.md R80 and R81, and commands
with the opcodes of R85 and the FieldId code of R86. The operand lists of the commands are the model's choice (log 8), and so is
the reading of a row's word of spec/opcode_table.json (log 15). -/
def Obligations.SampleRequestsDecode : Prop :=
  decodeTableWord 24 0x2C1F00 = some (.writeFrame 44 0x1F00) ∧
  decodeTableWord 8 0xEE = some (.readFrame 110) ∧
  decode (.frame [0x64, 0x4E, 0x20]) = .ok (.writeFrame 100 20000) ∧
  decode (.command 0x01 [0x1234, 4, 7, 0x1F]) = .ok (.setBits 0x1234 4 7 0x1F) ∧
  decode (.command 0x04 [36, 0x1234]) = .ok (.write 36 0x1234) ∧
  decode (.command 0x07 [10, 5]) = .ok (.fieldWrite .PLL_N 5) ∧
  decode (.command 0x09 []) = .ok .getFpd ∧
  decode (.command 0x0D [100, 0, 1]) = .ok (.setDivider 100 0 1) ∧
  decode (.command 0x10 []) = .ok .unlock

/-- A numeric request that is not a command is refused: an opcode outside R85, a FieldId outside 0..31, a GroupId outside 0..6, a
channel that is neither A nor B; the step then issues no transaction and changes nothing of the block but that REFUSED is
appended to `faults` (60_exceptions.md R237; that channels are coded 0 and 1 is the model's choice, log 8). -/
def Obligations.RequestThatIsNoCommandIsRefused : Prop :=
  (∀ (op : Byte) (codes : List Int), op = 0 ∨ 0x12 ≤ op.toNat → decode (.command op codes) = .error (.badOpcode op)) ∧
  (∀ c : Int, c < 0 ∨ 31 < c →
    decode (.command 0x06 [c]) = .error (.badField c) ∧ ∀ v, decode (.command 0x07 [c, v]) = .error (.badField c)) ∧
  (∀ c : Int, c < 0 ∨ 6 < c → decode (.command 0x08 [c]) = .error (.badGroup c)) ∧
  (∀ c l : Int, c ≠ 0 → c ≠ 1 → decode (.command 0x0E [c, l]) = .error (.badChannel c)) ∧
  (∀ (s : State) (op : Byte) (codes : List Int) (rest : List Request) (why : Reject),
    paramsOk s.cfg = true → stuckOn s = none → s.requests = .command op codes :: rest →
    decode (.command op codes) = .error why →
    ∃ t, step s = .next t ∧ t.faults = s.faults ++ [.refused (.command op codes)] ∧ t.requests = rest ∧
      t.fOscIn = s.fOscIn ∧ t.cfg = s.cfg ∧ t.life = s.life ∧ SameDevice s t ∧ Used 0 s t)

/-! ## BitField -/

/-- SET_BITS answers the word whose bits low..high are the data's low bits and whose other bits are the word's, and changes
nothing; a range that is not well-formed faults F_RANGE (40_bitfield.md R110, R112). -/
def Obligations.SetBitsWritesItsRange : Prop :=
  ∀ (word : Word) (low high : Int) (data : Nat) (s : State),
    (0 ≤ low ∧ low ≤ high ∧ high ≤ 15 →
      ∃ t r, exec (.setBits word low high data) s = .next t ∧ t.result = some (.ok (.word r)) ∧
        (∀ i, i < 16 → r.getLsbD i =
          if low.toNat ≤ i ∧ i ≤ high.toNat then data.testBit (i - low.toNat) else word.getLsbD i) ∧
        SameBlock s t ∧ Used 0 s t) ∧
    (¬ (0 ≤ low ∧ low ≤ high ∧ high ≤ 15) →
      ∃ t, exec (.setBits word low high data) s = .next t ∧ FaultedUntouched (.range low high) s t)

/-- GET_BITS answers the bits low..high of the word, shifted down to bit 0, as an unsigned natural, and changes nothing; a range
that is not well-formed faults F_RANGE (40_bitfield.md R111, R112). -/
def Obligations.GetBitsReadsItsRange : Prop :=
  ∀ (word : Word) (low high : Int) (s : State),
    (0 ≤ low ∧ low ≤ high ∧ high ≤ 15 →
      ∃ t, exec (.getBits word low high) s = .next t ∧
        t.result = some (.ok (.nat (word.toNat / 2 ^ low.toNat % 2 ^ (high.toNat - low.toNat + 1)))) ∧
        SameBlock s t ∧ Used 0 s t) ∧
    (¬ (0 ≤ low ∧ low ≤ high ∧ high ≤ 15) →
      ∃ t, exec (.getBits word low high) s = .next t ∧ FaultedUntouched (.range low high) s t)

/-- The five BitField laws (40_bitfield.md R113; laws 3 to 5 are the spec's own derivation from R110 and R111). -/
def Obligations.SetThenGetLaws : Prop :=
  ∀ (word : Word) (low high d e : Nat), low ≤ high → high ≤ 15 →
    getBitsWord (setBitsWord word low high d) low high = d % 2 ^ (high - low + 1) ∧
    getBitsWord (setBitsWord word low high 0) low high = 0 ∧
    getBitsWord (setBitsWord word low high (2 ^ (high - low + 1) - 1)) low high = 2 ^ (high - low + 1) - 1 ∧
    (∀ low' high', low' ≤ high' → high' ≤ 15 → high < low' ∨ high' < low →
      getBitsWord (setBitsWord word low high d) low' high' = getBitsWord word low' high') ∧
    setBitsWord word low high (getBitsWord word low high) = word ∧
    setBitsWord (setBitsWord word low high d) low high e = setBitsWord word low high e

/-- Two SET_BITS on disjoint ranges commute (40_bitfield.md R114, the spec's own derivation from R110). -/
def Obligations.DisjointSetBitsCommute : Prop :=
  ∀ (word : Word) (low high low' high' d e : Nat), low ≤ high → high ≤ 15 → low' ≤ high' → high' ≤ 15 →
    high < low' ∨ high' < low →
    setBitsWord (setBitsWord word low high d) low' high' e = setBitsWord (setBitsWord word low' high' e) low high d

/-! ## RegisterAccess -/

/-- Every access checks its address before its transaction. READ, WRITE and MODIFY: 113 and above is E_ADDR. READ, WRITE, MODIFY and
both frames: a reserved address is F_RESERVED. Nothing else of the block changes (41_register_access.md R121; the outcome for frames
is the model's choice, log 14). FIELD_READ and FIELD_WRITE of a field one of whose parts lies at a reserved address, the parts before
it at accessible ones: F_RESERVED at that part, the parts before it having been read, or written with their share of the value; PLL_N's
consistency follows R37 where R34 or R36 was among those written, and is else as it was (R127, R128). -/
def Obligations.AddressIsCheckedBeforeAnyTransaction : Prop :=
  (∀ (s : State) (a : Nat) (w : Word) (low high : Int) (data : Nat) (i : Instr),
    ((i = .read a ∨ i = .write a w ∨ (i = .modify a low high data ∧ 0 ≤ low ∧ low ≤ high ∧ high ≤ 15)) → 113 ≤ a →
      ∃ t, exec i s = .next t ∧ ErrorUntouched (.addr a) s t) ∧
    ((i = .read a ∨ i = .write a w ∨ (i = .modify a low high data ∧ 0 ≤ low ∧ low ≤ high ∧ high ≤ 15) ∨
        i = .readFrame (BitVec.ofNat 7 a) ∨ i = .writeFrame (BitVec.ofNat 7 a) w) → a < 113 → a ∈ s.cfg.reserved →
      ∃ t, exec i s = .next t ∧ FaultedUntouched (.reserved a) s t)) ∧
  (∀ (s : State) (f : FieldId) (before after : List Part) (p : Part), paramsOk s.cfg = true →
    fieldParts s.cfg f = before ++ p :: after → p.addr ∈ s.cfg.reserved → (∀ q ∈ before, accessible s.cfg q.addr) →
    (transportOk before.length s →
      ∃ t, exec (.fieldRead f) s = .next t ∧ FaultTaken (.reserved p.addr) s t ∧ SameDevice s t ∧ t.life = s.life ∧
        t.trace.map Transaction.sent = before.map (fun q => [BitVec.ofNat 8 (128 + q.addr)]) ∧ Used before.length s t) ∧
    (∀ v : Int, 0 ≤ v → v < 2 ^ fieldWidth s.cfg f → ((fieldParts s.cfg f).all partFull = true ∨ readbackOk s = true) →
      noFcalHazard (before.map Part.addr) s → transportOk (before.map partWrites).sum s →
      ∃ t, exec (.fieldWrite f v) s = .next t ∧ FaultTaken (.reserved p.addr) s t ∧
        partsValue t.x before = some (v.toNat / 2 ^ partsWidth (p :: after)) ∧ OthersKept (before.map Part.addr) s t ∧
        (∀ q ∈ before, ∀ w, regGet s.x q.addr = some w →
          ∃ w', regGet t.x q.addr = some w' ∧ ∀ i, i < q.lo ∨ q.hi < i → w'.getLsbD i = w.getLsbD i) ∧
        t.committed = s.committed ∧ ((∀ q ∈ before, q.addr ≠ 34 ∧ q.addr ≠ 36) → t.nConsistent = s.nConsistent) ∧
        (∀ q ∈ before, q.addr = 34 ∨ q.addr = 36 → ∀ w, regGet t.x q.addr = some w →
          t.nConsistent = consistentAfter s q.addr w) ∧
        t.life = (if before = [] then s.life else lifeAfterPlainWrite s.life) ∧ Used (before.map partWrites).sum s t))

/-- A write of a status register 110..112, by WRITE, MODIFY or a write frame, faults F_RO with no transaction (10_state.md R27,
41_register_access.md R123; the outcome for frames is the model's choice, log 14). -/
def Obligations.StatusRegistersAreReadOnly : Prop :=
  ∀ (s : State) (a : Nat) (w : Word) (low high : Int) (data : Nat) (i : Instr),
    110 ≤ a → accessible s.cfg a →
    (i = .write a w ∨ (i = .modify a low high data ∧ 0 ≤ low ∧ low ≤ high ∧ high ≤ 15) ∨
      i = .writeFrame (BitVec.ofNat 7 a) w) →
    ∃ t, exec i s = .next t ∧ FaultedUntouched (.readOnly a) s t

/-- READ, or a read frame, of an accessible register completes in one read transaction: it answers the stored word where readback
is reliable and the content known, else a draw, and changes nothing of the block (20_memory.md R67, 41_register_access.md
R122, 30_encoding.md R81). That a read frame is an instruction and answers the word is the model's choice (log 14), and so is
the form of a draw: the free value at the state's counter, which it advances (log 1). -/
def Obligations.ReadAnswersTheRegisterOrADraw : Prop :=
  ∀ (s : State) (a : Nat) (i : Instr), accessible s.cfg a → transportOk 1 s →
    (i = .read a ∨ i = .readFrame (BitVec.ofNat 7 a)) →
    ∃ t v, exec i s = .next t ∧ t.result = some (.ok (.word v)) ∧ SameBlock s t ∧
      t.trace = [readTransaction a v] ∧ Used 1 s t ∧
      (if a < 110 ∧ readbackOk s = true ∧ (regGet s.x a).isSome then regGet s.x a = some v ∧ t.draws = s.draws
       else v = Config.draw s.draws ∧ t.draws = s.draws + 1)

/-- WRITE, or a write frame, of an accessible register 1..109 completes in one write transaction: the register holds the word,
every other register what it held, the committed snapshot is kept, PLL_N's consistency follows R37 and the lifecycle R210
(20_memory.md R66, 41_register_access.md R123, 10_state.md R37, 44_lifecycle.md R210). That a write frame (30_encoding.md R80) is
an instruction and answers OK is the model's choice (log 14). -/
def Obligations.WriteReplacesTheWholeRegister : Prop :=
  ∀ (s : State) (a : Nat) (w : Word) (i : Instr), 1 ≤ a → a < 110 → accessible s.cfg a → noFcalHazard [a] s →
    transportOk 1 s → (i = .write a w ∨ i = .writeFrame (BitVec.ofNat 7 a) w) →
    ∃ t, exec i s = .next t ∧ t.result = some (.ok .unit) ∧ regGet t.x a = some w ∧ OthersKept [a] s t ∧
      t.committed = s.committed ∧ t.nConsistent = consistentAfter s a w ∧ t.life = lifeAfterPlainWrite s.life ∧
      SameController s t ∧ t.trace = [writeTransaction a w] ∧ Used 1 s t ∧ t.draws = s.draws

/-- WRITE, or a write frame, of a ramp register while FCAL_EN is 1 or not known faults F_HAZARD_FCAL after its frame was sent;
whether the word was stored is open, and everything else of the block is as it was (70_reset_and_hazards.md R271,
60_exceptions.md R234; that a draw decides is log 10, that the frame is an instruction log 14). -/
def Obligations.RampWriteWithFcalSetFaults : Prop :=
  ∀ (s : State) (a : Nat) (w : Word) (i : Instr), a < 110 → a ∉ s.cfg.reserved → a ∈ rampRegs s.cfg → fcalClear s = false →
    transportOk 1 s → (i = .write a w ∨ i = .writeFrame (BitVec.ofNat 7 a) w) →
    ∃ t, exec i s = .next t ∧ FaultTaken (.hazardFcal a) s t ∧ StoredOrNot a w s t ∧
      t.trace = [writeTransaction a w] ∧ Used 1 s t

/-- MODIFY of a ramp register while FCAL_EN is 1 reads the register and then faults F_HAZARD_FCAL at its write, of the word with
the data in bits low..high and the bits read elsewhere; whether that word was stored is open, and everything else of the block is
as it was (70_reset_and_hazards.md R271, 41_register_access.md R124, 60_exceptions.md R234; log 10). -/
def Obligations.RampModifyWithFcalSetFaults : Prop :=
  ∀ (s : State) (a : Nat) (low high : Int) (data : Nat), a < 110 → a ∉ s.cfg.reserved → a ∈ rampRegs s.cfg →
    0 ≤ low ∧ low ≤ high ∧ high ≤ 15 → readbackOk s = true → fcalClear s = false → transportOk 2 s →
    ∃ t old new, exec (.modify a low high data) s = .next t ∧ FaultTaken (.hazardFcal a) s t ∧
      (∀ w, regGet s.x a = some w → old = w) ∧
      (∀ i, i < 16 → new.getLsbD i =
        if low.toNat ≤ i ∧ i ≤ high.toNat then data.testBit (i - low.toNat) else old.getLsbD i) ∧
      StoredOrNot a new s t ∧ t.trace = [readTransaction a old, writeTransaction a new] ∧ Used 2 s t

/-- FIELD_WRITE of a field whose first part lies in a ramp register, while FCAL_EN is 1 or not known, faults F_HAZARD_FCAL at the
write of that part, its checks having passed: the word has the part's share of the value in the part's bits and, for a partial part,
the bits read elsewhere; whether it was stored is open, no later part is written, and everything else of the block is as it was
(70_reset_and_hazards.md R271, 41_register_access.md R124, R128, 30_encoding.md R93, 60_exceptions.md R234; log 10). -/
def Obligations.RampFieldWriteWithFcalSetFaults : Prop :=
  ∀ (s : State) (f : FieldId) (v : Int) (p : Part) (ps : List Part), paramsOk s.cfg = true →
    fieldParts s.cfg f = p :: ps → accessible s.cfg p.addr → p.addr ∈ rampRegs s.cfg → fcalClear s = false →
    0 ≤ v → v < 2 ^ fieldWidth s.cfg f → ((fieldParts s.cfg f).all partFull = true ∨ readbackOk s = true) →
    transportOk (partWrites p) s →
    ∃ t w, exec (.fieldWrite f v) s = .next t ∧ FaultTaken (.hazardFcal p.addr) s t ∧
      w.toNat / 2 ^ p.lo % 2 ^ partWidth p = v.toNat / 2 ^ partsWidth ps ∧ StoredOrNot p.addr w s t ∧
      (if partFull p then t.trace = [writeTransaction p.addr w]
       else ∃ old, t.trace = [readTransaction p.addr old, writeTransaction p.addr w] ∧
         (∀ u, regGet s.x p.addr = some u → old = u) ∧ ∀ i, i < p.lo ∨ p.hi < i → w.getLsbD i = old.getLsbD i) ∧
      Used (partWrites p) s t

/-- RESET, and every write of R0 with bit 1 set, resets the device: every register is at RESET_DEFAULTS, nothing is committed,
PLL_N is consistent, readback is locked, and the other bits of the word have no effect (44_lifecycle.md R211, R216). That a write
frame is an instruction and answers OK is the model's choice (log 14). -/
def Obligations.ResetBitResetsTheDevice : Prop :=
  ∀ (s : State) (v : Word) (i : Instr), paramsOk s.cfg = true → accessible s.cfg 0 → transportOk 1 s →
    ((v[1] = true ∧ (i = .write 0 v ∨ i = .writeFrame 0 v)) ∨ (v = s.cfg.r0ResetWord ∧ i = .reset)) →
    ∃ t, exec i s = .next t ∧ t.result = some (.ok .unit) ∧ t.x = s.cfg.resetDefaults ∧ t.committed = none ∧
      t.nConsistent = true ∧ t.life = .READBACK_LOCKED ∧ SameController s t ∧ t.trace = [writeTransaction 0 v] ∧
      Used 1 s t ∧ t.draws = s.draws

/-- A write of R0 whose FCAL_EN edge the old word decides, and which finds PLL_N consistent at a rising edge, completes with the
effects of 44_lifecycle.md R210 to R214. That a write frame is an instruction and answers OK is the model's choice (log 14). -/
def Obligations.WriteOfR0HasItsEffects : Prop :=
  ∀ (s : State) (v : Word) (edge : Bool) (i : Instr), paramsOk s.cfg = true → accessible s.cfg 0 → transportOk 1 s →
    EdgeKnown edge v s → (v[1] = false → edge = true → s.nConsistent = true) → (i = .write 0 v ∨ i = .writeFrame 0 v) →
    ∃ t, exec i s = .next t ∧ t.result = some (.ok .unit) ∧ R0Written edge v s t ∧ SameController s t ∧
      t.trace = [writeTransaction 0 v] ∧ Used 1 s t ∧ t.draws = s.draws

/-- With R0's content not known and PLL_N consistent, a write of R0 with FCAL_EN 1 and RESET 0 is a rising edge or not, as a
draw: both are admitted (44_lifecycle.md R213; that the lifecycle follows the same draw is the model's reading, log 9; that a
write frame is an instruction is log 14). -/
def Obligations.EdgeOnUnknownR0IsADraw : Prop :=
  ∀ (s : State) (v : Word) (i : Instr), paramsOk s.cfg = true → accessible s.cfg 0 → transportOk 1 s →
    regGet s.x 0 = none → v[1] = false → v[3] = true → s.nConsistent = true → (i = .write 0 v ∨ i = .writeFrame 0 v) →
    ∃ t, exec i s = .next t ∧ t.result = some (.ok .unit) ∧ R0Written (Config.drawBit s.draws) v s t ∧
      SameController s t ∧ t.trace = [writeTransaction 0 v] ∧ Used 1 s t

/-- With R0's content not known and PLL_N's parts inconsistent, a write of R0 with FCAL_EN 1 and RESET 0 is, as a draw, a rising
edge, which faults F_HAZARD_ORDER, or no edge, which stores the word and commits nothing: both are admitted (44_lifecycle.md R213,
70_reset_and_hazards.md R272, 60_exceptions.md R234; logs 9, 10 and 14). -/
def Obligations.EdgeOnUnknownR0WithInconsistentDivider : Prop :=
  ∀ (s : State) (v : Word) (i : Instr), paramsOk s.cfg = true → accessible s.cfg 0 → transportOk 1 s →
    regGet s.x 0 = none → v[1] = false → v[3] = true → s.nConsistent = false → (i = .write 0 v ∨ i = .writeFrame 0 v) →
    ∃ t, exec i s = .next t ∧ t.trace = [writeTransaction 0 v] ∧ Used 1 s t ∧
      (if Config.drawBit s.draws then FaultTaken .hazardOrder s t ∧ StoredOrNot 0 v s t
       else t.result = some (.ok .unit) ∧ R0Written false v s t ∧ SameController s t)

/-- An FCAL_EN rising edge while PLL_N's parts are inconsistent faults F_HAZARD_ORDER, whether it is written by WRITE, a write frame,
MODIFY of R0 or FIELD_WRITE FCAL_EN, 1: nothing is committed, the lifecycle and PLL_N's consistency stay, and whether R0 was stored is
open (70_reset_and_hazards.md R272, 44_lifecycle.md R213, 41_register_access.md R124, R128, 60_exceptions.md R234; log 10; that a
write frame is an instruction is log 14). -/
def Obligations.EdgeWithInconsistentDividerFaults : Prop :=
  ∀ (s : State) (v : Word) (i : Instr), paramsOk s.cfg = true → accessible s.cfg 0 → v[1] = false → s.nConsistent = false →
    (transportOk 1 s → EdgeKnown true v s → (i = .write 0 v ∨ i = .writeFrame 0 v) →
      ∃ t, exec i s = .next t ∧ FaultTaken .hazardOrder s t ∧ StoredOrNot 0 v s t ∧ t.nConsistent = false ∧
        t.trace = [writeTransaction 0 v] ∧ Used 1 s t) ∧
    (∀ (low high : Int) (data : Nat) (old : Word), 0 ≤ low ∧ low ≤ high ∧ high ≤ 15 → readbackOk s = true →
      regGet s.x 0 = some old → old[3] = false → v[3] = true → transportOk 2 s →
      (∀ k, k < 16 → v.getLsbD k =
        if low.toNat ≤ k ∧ k ≤ high.toNat then data.testBit (k - low.toNat) else old.getLsbD k) →
      (i = .modify 0 low high data ∨ (i = .fieldWrite .FCAL_EN 1 ∧ low = 3 ∧ high = 3 ∧ data = 1)) →
      ∃ t, exec i s = .next t ∧ FaultTaken .hazardOrder s t ∧ StoredOrNot 0 v s t ∧ t.nConsistent = false ∧
        t.trace = [readTransaction 0 old, writeTransaction 0 v] ∧ Used 2 s t)

/-- UNLOCK writes 0x2410 to R0 in one transaction, in every lifecycle state: it unlocks a locked readback, counts as a write
elsewhere, and makes readback reliable wherever the lifecycle is not RESET (44_lifecycle.md R212, R217). -/
def Obligations.UnlockMakesReadbackReliable : Prop :=
  ∀ s : State, paramsOk s.cfg = true → accessible s.cfg 0 → transportOk 1 s →
    ∃ t, exec .unlock s = .next t ∧ t.result = some (.ok .unit) ∧ regGet t.x 0 = some 0x2410 ∧ OthersKept [0] s t ∧
      t.committed = s.committed ∧ t.nConsistent = s.nConsistent ∧
      t.life = (if s.life = .READBACK_LOCKED then .READBACK_UNLOCKED else lifeAfterPlainWrite s.life) ∧
      (s.life ≠ .RESET → readbackOk t = true) ∧ SameController s t ∧ t.trace = [writeTransaction 0 0x2410] ∧
      Used 1 s t ∧ t.draws = s.draws

/-- MODIFY of an accessible register 1..109 completes in one read and one write transaction: the word written has the data in bits
low..high and the bits read elsewhere; an unknown register reads as a draw (41_register_access.md R124, 40_bitfield.md R110). -/
def Obligations.ModifyIsReadThenWrite : Prop :=
  ∀ (s : State) (a : Nat) (low high : Int) (data : Nat), 1 ≤ a → a < 110 → accessible s.cfg a →
    0 ≤ low ∧ low ≤ high ∧ high ≤ 15 → readbackOk s = true → noFcalHazard [a] s → transportOk 2 s →
    ∃ t old new, exec (.modify a low high data) s = .next t ∧ t.result = some (.ok .unit) ∧
      (match regGet s.x a with
       | some w => old = w ∧ t.draws = s.draws
       | none => old = Config.draw s.draws ∧ t.draws = s.draws + 1) ∧
      (∀ i, i < 16 → new.getLsbD i =
        if low.toNat ≤ i ∧ i ≤ high.toNat then data.testBit (i - low.toNat) else old.getLsbD i) ∧
      regGet t.x a = some new ∧ OthersKept [a] s t ∧ t.committed = s.committed ∧
      t.nConsistent = consistentAfter s a new ∧ t.life = lifeAfterPlainWrite s.life ∧ SameController s t ∧
      t.trace = [readTransaction a old, writeTransaction a new] ∧ Used 2 s t

/-- MODIFY of R0, and FIELD_WRITE of a one-bit field of R0, writes R0 with only those bits changed, with the effects a write of R0
has: a set RESET bit resets, an FCAL_EN rising edge commits (41_register_access.md R124, R128, 44_lifecycle.md R210 to R214).
The premise on PLL_N's consistency is R272's. -/
def Obligations.ModifyOfR0HasTheEffectsOfAWrite : Prop :=
  ∀ (s : State) (low high : Int) (data : Nat) (old new : Word) (i : Instr), paramsOk s.cfg = true → accessible s.cfg 0 →
    0 ≤ low ∧ low ≤ high ∧ high ≤ 15 → readbackOk s = true → regGet s.x 0 = some old → transportOk 2 s →
    (∀ k, k < 16 → new.getLsbD k =
      if low.toNat ≤ k ∧ k ≤ high.toNat then data.testBit (k - low.toNat) else old.getLsbD k) →
    (new[1] = false → old[3] = false → new[3] = true → s.nConsistent = true) →
    (i = .modify 0 low high data ∨
      (data < 2 ∧ ((i = .fieldWrite .POWERDOWN data ∧ low = 0 ∧ high = 0) ∨
        (i = .fieldWrite .RESET data ∧ low = 1 ∧ high = 1) ∨
        (i = .fieldWrite .MUXOUT_LD_SEL data ∧ low = 2 ∧ high = 2) ∨
        (i = .fieldWrite .FCAL_EN data ∧ low = 3 ∧ high = 3) ∨
        (i = .fieldWrite .RAMP_EN data ∧ low = 15 ∧ high = 15)))) →
    ∃ t, exec i s = .next t ∧ t.result = some (.ok .unit) ∧ R0Written (!old[3] && new[3]) new s t ∧
      SameController s t ∧ t.trace = [readTransaction 0 old, writeTransaction 0 new] ∧ Used 2 s t ∧ t.draws = s.draws

/-- The checks of MODIFY come in the order range, address, reserved, read-only, readback, all before any transaction: the first
that fails is the outcome (41_register_access.md R124, 60_exceptions.md R235). -/
def Obligations.ModifyChecksInOrder : Prop :=
  ∀ (s : State) (a : Nat) (low high : Int) (data : Nat),
    ∃ t, exec (.modify a low high data) s = .next t ∧
      (if ¬ (0 ≤ low ∧ low ≤ high ∧ high ≤ 15) then FaultedUntouched (.range low high) s t
       else if 113 ≤ a then ErrorUntouched (.addr a) s t
       else if a ∈ s.cfg.reserved then FaultedUntouched (.reserved a) s t
       else if 110 ≤ a then FaultedUntouched (.readOnly a) s t
       else if readbackOk s = false then FaultedUntouched (.locked (.modify a)) s t
       else 1 ≤ t.trace.length)

/-- While readback is not reliable, the commands that depend on a read fault F_LOCKED before any transaction: MODIFY,
CONFIGURE_RAMP, SET_DIVIDER, ARM, and a FIELD_WRITE or SET_OUTPUT_POWER of a partial field, their operand checks having passed
(41_register_access.md R120, 44_lifecycle.md R215, 60_exceptions.md R235; that the record of SET_OUTPUT_POWER names the field is
log 18). -/
def Obligations.LockedCommandsFaultBeforeAnyTransaction : Prop :=
  ∀ s : State, readbackOk s = false →
    (∀ (a : Nat) (low high : Int) (data : Nat), 0 ≤ low ∧ low ≤ high ∧ high ≤ 15 → a < 110 → a ∉ s.cfg.reserved →
      ∃ t, exec (.modify a low high data) s = .next t ∧ FaultedUntouched (.locked (.modify a)) s t) ∧
    (∀ (f : FieldId) (v : Int), 0 ≤ v → v < 2 ^ fieldWidth s.cfg f → (fieldParts s.cfg f).all partFull = false →
      ∃ t, exec (.fieldWrite f v) s = .next t ∧ FaultedUntouched (.locked (.fieldWrite f)) s t) ∧
    (∀ (a b c : Rat) (d e : Bool),
      ∃ t, exec (.configureRamp a b c d e) s = .next t ∧ FaultedUntouched (.locked .configureRamp) s t) ∧
    (∀ n num den : Int, 0 ≤ n ∧ n < 2 ^ 19 → 0 ≤ num ∧ num < 2 ^ 32 → 0 ≤ den ∧ den < 2 ^ 32 →
      ∃ t, exec (.setDivider n num den) s = .next t ∧ FaultedUntouched (.locked .setDivider) s t) ∧
    (∀ l : Int, 0 ≤ l → l ≤ s.cfg.outPwrMax → l < 64 →
      (∃ t, exec (.setOutputPower .A l) s = .next t ∧ FaultedUntouched (.locked (.fieldWrite .OUTA_PWR)) s t) ∧
      (∃ t, exec (.setOutputPower .B l) s = .next t ∧ FaultedUntouched (.locked (.fieldWrite .OUTB_PWR)) s t)) ∧
    (∃ t, exec .arm s = .next t ∧ FaultedUntouched (.locked .arm) s t)

/-! ## Fields and groups -/

/-- FIELD_READ of an accessible field completes with one read transaction per part, most significant first; its value fits the
field's width, and is the field's value where readback is reliable and every part known (41_register_access.md R127,
30_encoding.md R91). -/
def Obligations.FieldReadJoinsItsParts : Prop :=
  ∀ (s : State) (f : FieldId), paramsOk s.cfg = true → fieldAccessible s.cfg f →
    transportOk (fieldParts s.cfg f).length s →
    ∃ t v, exec (.fieldRead f) s = .next t ∧ t.result = some (.ok (.nat v)) ∧ v < 2 ^ fieldWidth s.cfg f ∧
      (readbackOk s = true → ∀ u, fieldValue s f = some u → v = u) ∧ SameBlock s t ∧
      t.trace.map Transaction.sent = (fieldParts s.cfg f).map (fun p => [BitVec.ofNat 8 (128 + p.addr)]) ∧
      Used (fieldParts s.cfg f).length s t

/-- FIELD_WRITE checks the width first, then the gate of a field with a partial part, both before any transaction
(41_register_access.md R128, 60_exceptions.md R235). -/
def Obligations.FieldWriteChecksWidthThenGate : Prop :=
  ∀ (s : State) (f : FieldId) (v : Int),
    (v < 0 ∨ 2 ^ fieldWidth s.cfg f ≤ v →
      ∃ t, exec (.fieldWrite f v) s = .next t ∧ ErrorUntouched (.param (.width f) v) s t) ∧
    (0 ≤ v → v < 2 ^ fieldWidth s.cfg f → (fieldParts s.cfg f).all partFull = false → readbackOk s = false →
      ∃ t, exec (.fieldWrite f v) s = .next t ∧ FaultedUntouched (.locked (.fieldWrite f)) s t)

/-- FIELD_WRITE of an accessible field outside R0 completes: the field holds the value, the other bits of its registers and every
other register are as they were, the snapshot is kept; PLL_N leaves PLL_N consistent (41_register_access.md R128,
30_encoding.md R93, 10_state.md R37). -/
def Obligations.FieldWriteStoresTheValue : Prop :=
  ∀ (s : State) (f : FieldId) (v : Int), paramsOk s.cfg = true → fieldAccessible s.cfg f → notInR0 s.cfg f →
    0 ≤ v → v < 2 ^ fieldWidth s.cfg f → ((fieldParts s.cfg f).all partFull = true ∨ readbackOk s = true) →
    noFcalHazard ((fieldParts s.cfg f).map Part.addr) s →
    transportOk (fieldWrites s.cfg f) s →
    ∃ t, exec (.fieldWrite f v) s = .next t ∧ t.result = some (.ok .unit) ∧ fieldValue t f = some v.toNat ∧
      OthersKept ((fieldParts s.cfg f).map Part.addr) s t ∧
      (∀ p ∈ fieldParts s.cfg f, ∀ w, regGet s.x p.addr = some w →
        ∃ w', regGet t.x p.addr = some w' ∧ ∀ i, i < p.lo ∨ p.hi < i → w'.getLsbD i = w.getLsbD i) ∧
      t.committed = s.committed ∧ (f = .PLL_N → t.nConsistent = true) ∧
      ((∀ p ∈ fieldParts s.cfg f, p.addr ≠ 34 ∧ p.addr ≠ 36) → t.nConsistent = s.nConsistent) ∧
      t.life = lifeAfterPlainWrite s.life ∧ SameController s t ∧
      Used (fieldWrites s.cfg f) s t

/-- A field outside R0 that was written reads back as the value written, whatever the register contents and the layout parameters
were (30_encoding.md R94, 20_memory.md R73). -/
def Obligations.FieldReadsBackWhatWasWritten : Prop :=
  ∀ (s : State) (f : FieldId) (v : Int), paramsOk s.cfg = true → fieldAccessible s.cfg f → notInR0 s.cfg f →
    0 ≤ v → v < 2 ^ fieldWidth s.cfg f → readbackOk s = true → noFcalHazard ((fieldParts s.cfg f).map Part.addr) s →
    transportOk (fieldWrites s.cfg f + (fieldParts s.cfg f).length) s →
    ∃ t u, exec (.fieldWrite f v) s = .next t ∧ exec (.fieldRead f) t = .next u ∧
      u.result = some (.ok (.nat v.toNat)) ∧ SameBlock t u

/-- READ_GROUP of a group of fields completes with one FIELD_READ per field in the group's order: the frames sent are the reads of
the parts of each field in turn, and the record has the fields in that order; nothing of the block changes (41_register_access.md
R127, R130, 30_encoding.md R87, R91). -/
def Obligations.ReadGroupReadsItsFields : Prop :=
  ∀ (s : State) (g : GroupId), g ≠ .status → paramsOk s.cfg = true → (∀ f ∈ groupFields g, fieldAccessible s.cfg f) →
    transportOk ((groupFields g).map fun f => (fieldParts s.cfg f).length).sum s →
    ∃ t r, exec (.readGroup g) s = .next t ∧ t.result = some (.ok (.fields r)) ∧ r.map Prod.fst = groupFields g ∧
      (∀ e ∈ r, e.2 < 2 ^ fieldWidth s.cfg e.1 ∧ (readbackOk s = true → ∀ u, fieldValue s e.1 = some u → e.2 = u)) ∧
      SameBlock s t ∧
      t.trace.map Transaction.sent =
        (groupFields g).flatMap (fun f => (fieldParts s.cfg f).map fun p => [BitVec.ofNat 8 (128 + p.addr)]) ∧
      Used ((groupFields g).map fun f => (fieldParts s.cfg f).length).sum s t

/-- READ_GROUP status reads R110, R111 and R112, three independent draws, and changes nothing of the block
(41_register_access.md R130, 10_state.md R27). The values of the draws are free (log 1). -/
def Obligations.StatusGroupIsThreeDraws : Prop :=
  ∀ s : State, accessible s.cfg 110 → accessible s.cfg 111 → accessible s.cfg 112 → transportOk 3 s →
    ∃ t a b c, exec (.readGroup .status) s = .next t ∧ t.result = some (.ok (.status a b c)) ∧
      a = Config.draw s.draws ∧ b = Config.draw (s.draws + 1) ∧ c = Config.draw (s.draws + 2) ∧ SameBlock s t ∧
      t.trace = [readTransaction 110 a, readTransaction 111 b, readTransaction 112 c] ∧ Used 3 s t

/-! ## FrequencyModel -/

/-- GET_FPD, with readback reliable and its four fields known: the phase-detector frequency, or F_DIV0 where a divisor is 0, after
four read transactions in the order R9, R12, R10, R11; nothing else of the block changes (42_frequency_model.md R151; which
divisor is named where both are 0 is the model's choice, log 13). -/
def Obligations.GetFpdComputesThePhaseDetectorFrequency : Prop :=
  ∀ (s : State) (osc2x rpre mult r : Nat), (∀ a ∈ [9, 12, 10, 11], accessible s.cfg a) → readbackOk s = true →
    fieldValue s .OSC_2X = some osc2x → fieldValue s .PLL_R_PRE = some rpre → fieldValue s .MULT = some mult →
    fieldValue s .PLL_R = some r → transportOk 4 s →
    ∃ t, exec .getFpd s = .next t ∧
      t.trace.map Transaction.sent = [[0x89], [0x8C], [0x8A], [0x8B]] ∧ Used 4 s t ∧ SameDevice s t ∧
      t.life = s.life ∧ t.fOscIn = s.fOscIn ∧ t.cfg = s.cfg ∧ t.requests = s.requests ∧
      (rpre ≠ 0 → r ≠ 0 → t.faults = s.faults ∧
        t.result = some (.ok (.freq (s.fOscIn * (osc2x + 1) / rpre * mult / r)))) ∧
      (rpre = 0 → t.faults = s.faults ++ [.div0 .PLL_R_PRE] ∧ t.result = some (.fault (.div0 .PLL_R_PRE))) ∧
      (rpre ≠ 0 → r = 0 → t.faults = s.faults ++ [.div0 .PLL_R] ∧ t.result = some (.fault (.div0 .PLL_R)))

/-- GET_FVCO, with readback reliable, its fields known and PLL_R_PRE and PLL_R not 0: the VCO frequency, or F_DIV0 where PLL_DEN is
0, after ten read transactions; nothing else of the block changes (42_frequency_model.md R152; with PLL_R_PRE or PLL_R 0 see
ZeroDivisorEndsThePlanReads). -/
def Obligations.GetFvcoComputesTheVcoFrequency : Prop :=
  ∀ (s : State) (osc2x rpre mult r n num den : Nat),
    (∀ a ∈ [9, 12, 10, 11, 34, 36, 42, 43, 38, 39], accessible s.cfg a) → readbackOk s = true →
    fieldValue s .OSC_2X = some osc2x → fieldValue s .PLL_R_PRE = some rpre → fieldValue s .MULT = some mult →
    fieldValue s .PLL_R = some r → fieldValue s .PLL_N = some n → fieldValue s .PLL_NUM = some num →
    fieldValue s .PLL_DEN = some den → rpre ≠ 0 → r ≠ 0 → transportOk 10 s →
    ∃ t, exec .getFvco s = .next t ∧
      t.trace.map Transaction.sent =
        [[0x89], [0x8C], [0x8A], [0x8B], [0xA2], [0xA4], [0xAA], [0xAB], [0xA6], [0xA7]] ∧
      Used 10 s t ∧ SameDevice s t ∧ t.life = s.life ∧ t.fOscIn = s.fOscIn ∧ t.cfg = s.cfg ∧ t.requests = s.requests ∧
      (den ≠ 0 → t.faults = s.faults ∧
        t.result = some (.ok (.freq (s.fOscIn * (osc2x + 1) / rpre * mult / r * (n + (num : Rat) / den))))) ∧
      (den = 0 → t.faults = s.faults ++ [.div0 .PLL_DEN] ∧ t.result = some (.fault (.div0 .PLL_DEN)))

/-- The divisors that the plan's reads find 0. GET_FVCO and CONFIGURE_RAMP, with readback reliable and the four fields of `f_pd`
known, fault F_DIV0 after four reads where PLL_R_PRE or PLL_R is 0; CONFIGURE_RAMP with those two not 0 and PLL_DEN 0 faults F_DIV0
after its ten reads, although `f_vco` cancels out of every code. Nothing else of the block changes (42_frequency_model.md R151,
R152, 43_ramp_configurator.md R170, R180; which divisor is named where both are 0 is the model's choice, log 13). -/
def Obligations.ZeroDivisorEndsThePlanReads : Prop :=
  ∀ (s : State) (osc2x rpre mult r : Nat) (span duration threshold : Rat) (descending freeRun : Bool),
    (∀ a ∈ [9, 12, 10, 11], accessible s.cfg a) → readbackOk s = true →
    fieldValue s .OSC_2X = some osc2x → fieldValue s .PLL_R_PRE = some rpre → fieldValue s .MULT = some mult →
    fieldValue s .PLL_R = some r →
    (∀ i : Instr, (i = .getFvco ∨ i = .configureRamp span duration threshold descending freeRun) → rpre = 0 ∨ r = 0 →
      transportOk 4 s →
      ∃ t, exec i s = .next t ∧ FaultTaken (.div0 (if rpre = 0 then .PLL_R_PRE else .PLL_R)) s t ∧ SameDevice s t ∧
        t.life = s.life ∧ t.trace.map Transaction.sent = [[0x89], [0x8C], [0x8A], [0x8B]] ∧ Used 4 s t) ∧
    (∀ n num : Nat, (∀ a ∈ [34, 36, 42, 43, 38, 39], accessible s.cfg a) → fieldValue s .PLL_N = some n →
      fieldValue s .PLL_NUM = some num → fieldValue s .PLL_DEN = some 0 → rpre ≠ 0 → r ≠ 0 → transportOk 10 s →
      ∃ t, exec (.configureRamp span duration threshold descending freeRun) s = .next t ∧
        FaultTaken (.div0 .PLL_DEN) s t ∧ SameDevice s t ∧ t.life = s.life ∧
        t.trace.map Transaction.sent =
          [[0x89], [0x8C], [0x8A], [0x8B], [0xA2], [0xA4], [0xAA], [0xAB], [0xA6], [0xA7]] ∧ Used 10 s t)

/-- GET_FPD and GET_FVCO are admitted in every state: with readback not reliable, or a register not known, the field's value is some
value of its width (a draw, log 1), and it is the field's value where readback is reliable and the field known. GET_FPD answers the
formula's value, or F_DIV0 where a divisor came out 0, after its four reads; GET_FVCO after those four the same F_DIV0, else after
ten its value or F_DIV0 for PLL_DEN. Nothing else of the block changes (42_frequency_model.md R151, R152, 70_reset_and_hazards.md
R274; log 13 for the divisor named). -/
def Obligations.FrequencyCommandsRunInEveryState : Prop :=
  ∀ s : State, (∀ a ∈ [9, 12, 10, 11], accessible s.cfg a) → transportOk 4 s →
    ∃ osc2x rpre mult r : Nat, osc2x < 2 ∧ rpre < 4096 ∧ mult < 32 ∧ r < 256 ∧
      (readbackOk s = true → (∀ u, fieldValue s .OSC_2X = some u → osc2x = u) ∧
        (∀ u, fieldValue s .PLL_R_PRE = some u → rpre = u) ∧ (∀ u, fieldValue s .MULT = some u → mult = u) ∧
        (∀ u, fieldValue s .PLL_R = some u → r = u)) ∧
      (∀ i : Instr, (i = .getFpd ∨ i = .getFvco) → rpre = 0 ∨ r = 0 →
        ∃ t, exec i s = .next t ∧ FaultTaken (.div0 (if rpre = 0 then .PLL_R_PRE else .PLL_R)) s t ∧ SameDevice s t ∧
          t.life = s.life ∧ t.trace.map Transaction.sent = [[0x89], [0x8C], [0x8A], [0x8B]] ∧ Used 4 s t) ∧
      (rpre ≠ 0 → r ≠ 0 →
        ∃ t, exec .getFpd s = .next t ∧ t.result = some (.ok (.freq (s.fOscIn * (osc2x + 1) / rpre * mult / r))) ∧
          SameBlock s t ∧ t.trace.map Transaction.sent = [[0x89], [0x8C], [0x8A], [0x8B]] ∧ Used 4 s t) ∧
      (rpre ≠ 0 → r ≠ 0 → (∀ a ∈ [34, 36, 42, 43, 38, 39], accessible s.cfg a) → transportOk 10 s →
        ∃ (t : State) (n num den : Nat), exec .getFvco s = .next t ∧ n < 2 ^ 19 ∧ num < 2 ^ 32 ∧ den < 2 ^ 32 ∧
          (readbackOk s = true → (∀ u, fieldValue s .PLL_N = some u → n = u) ∧
            (∀ u, fieldValue s .PLL_NUM = some u → num = u) ∧ (∀ u, fieldValue s .PLL_DEN = some u → den = u)) ∧
          (if den = 0 then FaultTaken (.div0 .PLL_DEN) s t ∧ SameDevice s t ∧ t.life = s.life
           else t.result = some (.ok (.freq (s.fOscIn * (osc2x + 1) / rpre * mult / r * (n + (num : Rat) / den)))) ∧
             SameBlock s t) ∧
          t.trace.map Transaction.sent =
            [[0x89], [0x8C], [0x8A], [0x8B], [0xA2], [0xA4], [0xAA], [0xAB], [0xA6], [0xA7]] ∧ Used 10 s t)

/-- GET_FSMCLK completes in every state with one read of R1: `f_osc_in / 2^c` for a c of three bits, which is CAL_CLK_DIV where
readback is reliable and R1 known; nothing of the block changes (42_frequency_model.md R153, 70_reset_and_hazards.md R274). -/
def Obligations.GetFsmclkDividesTheReference : Prop :=
  ∀ s : State, accessible s.cfg 1 → transportOk 1 s →
    ∃ t c, exec .getFsmclk s = .next t ∧ c < 8 ∧ t.result = some (.ok (.freq (s.fOscIn / 2 ^ c))) ∧
      (readbackOk s = true → ∀ u, fieldValue s .CAL_CLK_DIV = some u → c = u) ∧ SameBlock s t ∧
      t.trace.map Transaction.sent = [[0x81]] ∧ Used 1 s t

/-- ROUND gives the integer nearest its argument, and the even one of two equally near (00_scope.md R13; the tie rule is the
spec's choice, log 6). -/
def Obligations.RoundIsNearestTiesToEven : Prop :=
  ∀ q : Rat, |(roundHalfEven q : Rat) - q| ≤ 1 / 2 ∧
    (|(roundHalfEven q : Rat) - q| = 1 / 2 → roundHalfEven q % 2 = 0)

/-- The two guard-band codes sum to 2^33 and do not depend on the VCO frequency (42_frequency_model.md R158, the spec's own
derivation). -/
def Obligations.LimitCodesSumToTheWrap : Prop :=
  ∀ span fpd fvco : Rat, fpd ≠ 0 →
    limitHighCode span fpd fvco + limitLowCode span fpd fvco = 8589934592 ∧
    limitHighCode span fpd fvco = roundHalfEven (33554432 * span / fpd)

/-! ## RampConfigurator, divider and output power -/

/-- CONFIGURE_RAMP completes, whatever the field positions, mode codes and layout of RAMP0_INC, if no two of its fields share a
bit, with readback reliable, FCAL_EN 0, the frequency plan known and every derived code in its range: the fourteen fields hold
the codes and mode values, all other known fields and registers what they held, nothing is committed and the ramp is not armed;
the first ten frames are the plan's reads, and there are as many transactions more as the fourteen FIELD_WRITEs take
(43_ramp_configurator.md R170 to R179, R182). -/
def Obligations.ConfigureRampStagesTheRamp : Prop :=
  ∀ (s : State) (span duration threshold fpd fvco : Rat) (descending freeRun : Bool)
    (osc2x rpre mult r n num den : Nat) (len asc inc thr hi lo : Int),
    paramsOk s.cfg = true → (∀ a ∈ [9, 12, 10, 11, 34, 36, 42, 43, 38, 39], accessible s.cfg a) →
    (∀ f ∈ rampFields, fieldAccessible s.cfg f) → (rampFields.Pairwise fun f g => fieldsDisjoint s.cfg f g) →
    readbackOk s = true → fcalClear s = true → transportOk (10 + (rampFields.map (fieldWrites s.cfg)).sum) s →
    fieldValue s .OSC_2X = some osc2x → fieldValue s .PLL_R_PRE = some rpre → fieldValue s .MULT = some mult →
    fieldValue s .PLL_R = some r → fieldValue s .PLL_N = some n → fieldValue s .PLL_NUM = some num →
    fieldValue s .PLL_DEN = some den → rpre ≠ 0 → r ≠ 0 → den ≠ 0 →
    fpd = s.fOscIn * (osc2x + 1) / rpre * mult / r → fpd ≠ 0 → fvco = fpd * (n + (num : Rat) / den) →
    0 ≤ duration * fpd → duration * fpd ≤ 65535 → len = roundHalfEven (duration * fpd) → len ≠ 0 →
    asc = roundHalfEven (span / fpd * 16777216 / len) → 0 ≤ asc → asc ≤ 0x3FFFFFFF →
    inc = (if descending then 2 ^ 30 - asc else asc) → inc ≤ 0x3FFFFFFF →
    thr = roundHalfEven (threshold / fpd * 16777216) → 0 ≤ thr → thr ≤ 0x1FFFFFFF →
    hi = roundHalfEven ((fvco + 2 * span - fvco) / fpd * 16777216) → 0 ≤ hi → hi < 2 ^ 33 →
    lo = roundHalfEven (2 ^ 33 - 16777216 * (fvco - (fvco - 2 * span)) / fpd) → 0 ≤ lo → lo < 2 ^ 33 →
    ∃ t, exec (.configureRamp span duration threshold descending freeRun) s = .next t ∧ t.result = some (.ok .unit) ∧
      fieldValue t .RAMP0_LEN = some len.toNat ∧ fieldValue t .RAMP0_INC = some inc.toNat ∧
      fieldValue t .RAMP_THRESH = some thr.toNat ∧ fieldValue t .RAMP_LIMIT_HIGH = some hi.toNat ∧
      fieldValue t .RAMP_LIMIT_LOW = some lo.toNat ∧
      fieldValue t .RAMP_MANUAL = some 0 ∧
      fieldValue t .RAMP0_NEXT_TRIG = some (if freeRun then s.cfg.codeNextTrigTimeout else s.cfg.codeNextTrigTrigA) ∧
      fieldValue t .RAMP_TRIGA = some (if freeRun then s.cfg.codeTrigADisabled else s.cfg.codeTrigARampclkRise) ∧
      fieldValue t .RAMP0_NEXT = some s.cfg.codeNextRamp0 ∧
      fieldValue t .RAMP0_RST = some 1 ∧ fieldValue t .RAMP_TRIG_CAL = some 0 ∧ fieldValue t .LD_DLY = some 0 ∧
      fieldValue t .RAMP_SCALE_COUNT = some 1 ∧ fieldValue t .QUICK_RECAL_EN = some 1 ∧
      (∀ g, (∀ f ∈ rampFields, fieldsDisjoint s.cfg g f) → ∀ u, fieldValue s g = some u → fieldValue t g = some u) ∧
      OthersKept (rampRegs s.cfg) s t ∧ t.committed = s.committed ∧
      (34 ∉ rampRegs s.cfg → 36 ∉ rampRegs s.cfg → t.nConsistent = s.nConsistent) ∧
      t.life = lifeAfterPlainWrite s.life ∧ SameController s t ∧
      (t.trace.map Transaction.sent).take 10 =
        [[0x89], [0x8C], [0x8A], [0x8B], [0xA2], [0xA4], [0xAA], [0xAB], [0xA6], [0xA7]] ∧
      Used (10 + (rampFields.map (fieldWrites s.cfg)).sum) s t

/-- CONFIGURE_RAMP with a code out of its range, or with a zero frequency or length, ends after its ten reads with nothing written:
the first check that fails, in the order of 43_ramp_configurator.md R170, names the outcome (R172 to R175). A zero frequency makes
the length 0 too, and that the record then names f_pd is the model's choice (log 13). The divisors that the reads themselves find 0
are in ZeroDivisorEndsThePlanReads. -/
def Obligations.ConfigureRampRejectsBeforeAnyWrite : Prop :=
  ∀ (s : State) (span duration threshold fpd fvco : Rat) (descending freeRun : Bool)
    (osc2x rpre mult r n num den : Nat) (len asc inc thr hi lo : Int),
    (∀ a ∈ [9, 12, 10, 11, 34, 36, 42, 43, 38, 39], accessible s.cfg a) → readbackOk s = true → transportOk 10 s →
    fieldValue s .OSC_2X = some osc2x → fieldValue s .PLL_R_PRE = some rpre → fieldValue s .MULT = some mult →
    fieldValue s .PLL_R = some r → fieldValue s .PLL_N = some n → fieldValue s .PLL_NUM = some num →
    fieldValue s .PLL_DEN = some den → rpre ≠ 0 → r ≠ 0 → den ≠ 0 →
    fpd = s.fOscIn * (osc2x + 1) / rpre * mult / r → fvco = fpd * (n + (num : Rat) / den) →
    len = roundHalfEven (duration * fpd) → asc = roundHalfEven (span / fpd * 16777216 / len) →
    inc = (if descending then 2 ^ 30 - asc else asc) → thr = roundHalfEven (threshold / fpd * 16777216) →
    hi = roundHalfEven ((fvco + 2 * span - fvco) / fpd * 16777216) →
    lo = roundHalfEven (2 ^ 33 - 16777216 * (fvco - (fvco - 2 * span)) / fpd) →
    ∀ stop : CommandResult,
    (if ¬ (0 ≤ duration * fpd ∧ duration * fpd ≤ 65535) then stop = .error (.param .ramp_len (duration * fpd))
     else if fpd = 0 then stop = .fault (.div0 .f_pd)
     else if len = 0 then stop = .fault (.div0 .ramp_len)
     else if ¬ (0 ≤ asc ∧ asc ≤ 0x3FFFFFFF) then stop = .error (.param .ramp_inc asc)
     else if ¬ (0 ≤ inc ∧ inc ≤ 0x3FFFFFFF) then stop = .error (.param .ramp_inc inc)
     else if ¬ (0 ≤ thr ∧ thr ≤ 0x1FFFFFFF) then stop = .error (.param .recal_threshold thr)
     else if ¬ (0 ≤ hi ∧ hi < 2 ^ 33) then stop = .error (.param .ramp_limit_high hi)
     else if ¬ (0 ≤ lo ∧ lo < 2 ^ 33) then stop = .error (.param .ramp_limit_low lo)
     else False) →
    ∃ t, exec (.configureRamp span duration threshold descending freeRun) s = .next t ∧ t.result = some stop ∧
      SameDevice s t ∧ t.life = s.life ∧ t.fOscIn = s.fOscIn ∧ t.cfg = s.cfg ∧ t.requests = s.requests ∧
      t.trace.map Transaction.sent =
        [[0x89], [0x8C], [0x8A], [0x8B], [0xA2], [0xA4], [0xAA], [0xAB], [0xA6], [0xA7]] ∧ Used 10 s t ∧
      t.faults = (match stop with | .fault f => s.faults ++ [f] | _ => s.faults)

/-- The worked example at f_pd = 10 MHz: the codes of CONFIGURE_RAMP 100e6, 2e-3, 150e6, descending, whatever the VCO frequency
(43_ramp_configurator.md R181). -/
def Obligations.WorkedExampleCodes : Prop :=
  cyclesOf (1 / 500) 10000000 = 20000 ∧ incCode 100000000 10000000 20000 = 8389 ∧
  writtenInc 8389 true = 0x3FFFDF3B ∧ codeHz 150000000 10000000 = 0x0F000000 ∧
  ∀ fvco : Rat, limitHighCode 100000000 10000000 fvco = 0x014000000 ∧ limitLowCode 100000000 10000000 fvco = 0x1EC000000

/-- CONFIGURE_RAMP with FCAL_EN still 1 passes its reads and checks and then faults F_HAZARD_FCAL at its first write, RAMP_MANUAL's:
the word is the one read with that bit cleared, whether it was stored is open, and everything else of the block is as it was
(43_ramp_configurator.md R179, R180, 70_reset_and_hazards.md R271, 60_exceptions.md R234; log 10). -/
def Obligations.ConfigureRampWithFcalSetFaults : Prop :=
  ∀ (s : State) (span duration threshold fpd fvco : Rat) (descending freeRun : Bool)
    (osc2x rpre mult r n num den : Nat) (len asc inc thr hi lo : Int),
    paramsOk s.cfg = true → (∀ a ∈ [9, 12, 10, 11, 34, 36, 42, 43, 38, 39, s.cfg.locRampManual.addr], accessible s.cfg a) →
    readbackOk s = true → fcalClear s = false → transportOk 12 s →
    fieldValue s .OSC_2X = some osc2x → fieldValue s .PLL_R_PRE = some rpre → fieldValue s .MULT = some mult →
    fieldValue s .PLL_R = some r → fieldValue s .PLL_N = some n → fieldValue s .PLL_NUM = some num →
    fieldValue s .PLL_DEN = some den → rpre ≠ 0 → r ≠ 0 → den ≠ 0 →
    fpd = s.fOscIn * (osc2x + 1) / rpre * mult / r → fpd ≠ 0 → fvco = fpd * (n + (num : Rat) / den) →
    0 ≤ duration * fpd → duration * fpd ≤ 65535 → len = roundHalfEven (duration * fpd) → len ≠ 0 →
    asc = roundHalfEven (span / fpd * 16777216 / len) → 0 ≤ asc → asc ≤ 0x3FFFFFFF →
    inc = (if descending then 2 ^ 30 - asc else asc) → inc ≤ 0x3FFFFFFF →
    thr = roundHalfEven (threshold / fpd * 16777216) → 0 ≤ thr → thr ≤ 0x1FFFFFFF →
    hi = roundHalfEven ((fvco + 2 * span - fvco) / fpd * 16777216) → 0 ≤ hi → hi < 2 ^ 33 →
    lo = roundHalfEven (2 ^ 33 - 16777216 * (fvco - (fvco - 2 * span)) / fpd) → 0 ≤ lo → lo < 2 ^ 33 →
    ∃ t old new, exec (.configureRamp span duration threshold descending freeRun) s = .next t ∧
      FaultTaken (.hazardFcal s.cfg.locRampManual.addr) s t ∧
      (∀ w, regGet s.x s.cfg.locRampManual.addr = some w → old = w) ∧
      (∀ i, i < 16 → new.getLsbD i = if i = s.cfg.locRampManual.lo then false else old.getLsbD i) ∧
      StoredOrNot s.cfg.locRampManual.addr new s t ∧
      (t.trace.map Transaction.sent).take 10 =
        [[0x89], [0x8C], [0x8A], [0x8B], [0xA2], [0xA4], [0xAA], [0xAB], [0xA6], [0xA7]] ∧
      t.trace.drop 10 = [readTransaction s.cfg.locRampManual.addr old, writeTransaction s.cfg.locRampManual.addr new] ∧
      Used 12 s t

/-- SET_DIVIDER with its operands in range and readback reliable completes in seven transactions: PLL_N, PLL_NUM and PLL_DEN hold
the operands, PLL_N is consistent whatever it was, R34's other bits and all other registers are as they were
(43_ramp_configurator.md R190, R191, 10_state.md R37). -/
def Obligations.SetDividerProgramsTheDivider : Prop :=
  ∀ (s : State) (n num den : Int), paramsOk s.cfg = true → (∀ a ∈ [34, 36, 42, 43, 38, 39], accessible s.cfg a) →
    noFcalHazard [34, 36, 42, 43, 38, 39] s → readbackOk s = true → transportOk 7 s →
    0 ≤ n ∧ n < 2 ^ 19 → 0 ≤ num ∧ num < 2 ^ 32 → 0 ≤ den ∧ den < 2 ^ 32 →
    ∃ t, exec (.setDivider n num den) s = .next t ∧ t.result = some (.ok .unit) ∧
      fieldValue t .PLL_N = some n.toNat ∧ fieldValue t .PLL_NUM = some num.toNat ∧
      fieldValue t .PLL_DEN = some den.toNat ∧ t.nConsistent = true ∧
      (∀ w, regGet s.x 34 = some w → ∃ w', regGet t.x 34 = some w' ∧ ∀ i, 3 ≤ i → w'.getLsbD i = w.getLsbD i) ∧
      OthersKept [34, 36, 42, 43, 38, 39] s t ∧ t.committed = s.committed ∧ t.life = lifeAfterPlainWrite s.life ∧
      SameController s t ∧ Used 7 s t

/-- SET_DIVIDER checks its operands in order, before any transaction and before the gate (43_ramp_configurator.md R190,
60_exceptions.md R235). -/
def Obligations.SetDividerChecksItsOperandsFirst : Prop :=
  ∀ (s : State) (n num den : Int),
    (¬ (0 ≤ n ∧ n < 2 ^ 19) → ∃ t, exec (.setDivider n num den) s = .next t ∧ ErrorUntouched (.param .pll_n n) s t) ∧
    (0 ≤ n ∧ n < 2 ^ 19 → ¬ (0 ≤ num ∧ num < 2 ^ 32) →
      ∃ t, exec (.setDivider n num den) s = .next t ∧ ErrorUntouched (.param .pll_num num) s t) ∧
    (0 ≤ n ∧ n < 2 ^ 19 → 0 ≤ num ∧ num < 2 ^ 32 → ¬ (0 ≤ den ∧ den < 2 ^ 32) →
      ∃ t, exec (.setDivider n num den) s = .next t ∧ ErrorUntouched (.param .pll_den den) s t)

/-- SET_OUTPUT_POWER with a level in 0..OUT_PWR_MAX that fits the field completes in two transactions: the channel's field holds the
level and nothing else changes; a level out of 0..OUT_PWR_MAX is E_PARAM before any transaction (43_ramp_configurator.md R195). -/
def Obligations.SetOutputPowerProgramsItsChannel : Prop :=
  ∀ (s : State) (channel : Channel) (level : Int) (f : FieldId) (a lo hi : Nat),
    (channel = .A ∧ f = .OUTA_PWR ∧ a = 44 ∧ hi = 13 ∧ lo = 8) ∨ (channel = .B ∧ f = .OUTB_PWR ∧ a = 45 ∧ hi = 5 ∧ lo = 0) →
    (¬ (0 ≤ level ∧ level ≤ s.cfg.outPwrMax) →
      ∃ t, exec (.setOutputPower channel level) s = .next t ∧ ErrorUntouched (.param .power_level level) s t) ∧
    (0 ≤ level → level ≤ s.cfg.outPwrMax → level < 64 → accessible s.cfg a → noFcalHazard [a] s → readbackOk s = true →
      transportOk 2 s →
      ∃ t, exec (.setOutputPower channel level) s = .next t ∧ t.result = some (.ok .unit) ∧
        fieldValue t f = some level.toNat ∧ OthersKept [a] s t ∧
        (∀ w, regGet s.x a = some w →
          ∃ w', regGet t.x a = some w' ∧ ∀ i, i < lo ∨ hi < i → w'.getLsbD i = w.getLsbD i) ∧
        t.committed = s.committed ∧ t.nConsistent = s.nConsistent ∧ t.life = lifeAfterPlainWrite s.life ∧
        SameController s t ∧ Used 2 s t)

/-! ## Arming -/

/-- ARM, in a state of the invariant with readback reliable and PLL_N consistent, completes: FCAL_EN is 1, no other bit of R0 and no
other register changed, the staged ramp is committed, the lifecycle is RAMPING; three transactions, or five where FCAL_EN was
already 1 (44_lifecycle.md R218, R213, 10_state.md R36). -/
def Obligations.ArmCommitsTheStagedRamp : Prop :=
  ∀ (s : State) (w : Word), Inv s → accessible s.cfg 0 → readbackOk s = true → regGet s.x 0 = some w →
    s.nConsistent = true → transportOk 5 s →
    ∃ t w', exec .arm s = .next t ∧ t.result = some (.ok .unit) ∧ regGet t.x 0 = some w' ∧
      (∀ i, i < 16 → w'.getLsbD i = if i = 3 then true else w.getLsbD i) ∧ OthersKept [0] s t ∧
      (∃ c, t.committed = some c ∧ IsSnapshot c s) ∧ t.nConsistent = true ∧ t.life = .RAMPING ∧ SameController s t ∧
      Used (if w[3] then 5 else 3) s t ∧ t.draws = s.draws

/-- ARM while PLL_N's parts are inconsistent faults F_HAZARD_ORDER at its edge: nothing is committed and no register but R0 can have
changed. Where FCAL_EN was 1 it has been cleared first, a write that the lifecycle follows; whether the last write, which sets it, was
stored is open (70_reset_and_hazards.md R272, 44_lifecycle.md R210, R214, R218, 60_exceptions.md R234; log 10). -/
def Obligations.ArmWithInconsistentDividerFaults : Prop :=
  ∀ (s : State) (w : Word), Inv s → accessible s.cfg 0 → readbackOk s = true → regGet s.x 0 = some w →
    s.nConsistent = false → transportOk 5 s →
    ∃ t cleared set, exec .arm s = .next t ∧ FaultTaken .hazardOrder s t ∧
      (∀ i, i < 16 → cleared.getLsbD i = if i = 3 then false else w.getLsbD i) ∧
      (∀ i, i < 16 → set.getLsbD i = if i = 3 then true else w.getLsbD i) ∧
      (regGet t.x 0 = some set ∨ regGet t.x 0 = some cleared) ∧ OthersKept [0] s t ∧ t.committed = s.committed ∧
      t.nConsistent = false ∧ t.life = (if w[3] then lifeAfterPlainWrite s.life else s.life) ∧
      t.trace = (if w[3] then [readTransaction 0 w, readTransaction 0 w, writeTransaction 0 cleared,
          readTransaction 0 cleared, writeTransaction 0 set]
        else [readTransaction 0 w, readTransaction 0 w, writeTransaction 0 set]) ∧
      Used (if w[3] then 5 else 3) s t

/-- A frame whose address bits are 113..127 is never sent: the machine has no such transaction (30_encoding.md R83, R98; that a
frame is an instruction, and that this one is refused by name, is log 14). -/
def Obligations.FrameOutsideTheRegistersIsNeverSent : Prop :=
  ∀ (s : State) (a : BusAddr) (w : Word), 113 ≤ a.toNat →
    exec (.writeFrame a w) s = .refused (.frameAddressNeverSent a) ∧
    exec (.readFrame a) s = .refused (.frameAddressNeverSent a) ∧
    (∃ why, decode (.frame (writeFrameBytes a w)) = .error why) ∧ (∃ why, decode (.frame (readFrameBytes a)) = .error why)

/-! ## The machine -/

/-- A step runs the decoded instruction: with the configuration in order and no fault recorded, the host's next request, if it
decodes, is executed in the state that has accepted it (00_scope.md R5, 10_state.md R22). -/
def Obligations.StepRunsTheDecodedInstruction : Prop :=
  ∀ (s : State) (r : Request) (rest : List Request) (i : Instr), paramsOk s.cfg = true → stuckOn s = none →
    s.requests = r :: rest → decode r = .ok i → step s = exec i { s with requests := rest }

/-- Once a fault is recorded no command has a step, and a block without a request waits (60_exceptions.md R234,
70_reset_and_hazards.md R260). -/
def Obligations.StuckRunHasNoStepAndIdleBlockWaits : Prop :=
  ∀ s : State, paramsOk s.cfg = true →
    ((∃ f ∈ s.faults, isFault f = true) → ∃ g ∈ s.faults, isFault g = true ∧ step s = .fault (.stuck g)) ∧
    ((∀ f ∈ s.faults, isFault f = false) → s.requests = [] → step s = .next s)

/-- The state at power-up (70_reset_and_hazards.md R260, 10_state.md R50): what the spec gives, for a block constructed with any
reference frequency and any parameters. -/
def Obligations.PowerUpState : Prop :=
  ∀ (f : Rat) (p : Params),
    (State.powerUp f p).life = .READBACK_LOCKED ∧ (State.powerUp f p).x = p.powerupContent ∧
    (State.powerUp f p).committed = none ∧ (State.powerUp f p).nConsistent = true ∧ (State.powerUp f p).faults = [] ∧
    (State.powerUp f p).fOscIn = f ∧ readbackOk (State.powerUp f p) = false ∧
    ∀ a, regGet State.reset.x a = none

/-- The invariant holds at reset, whatever the reference frequency. -/
def Obligations.ResetMeetsTheInvariant : Prop := Inv State.reset

/-- Every step keeps the invariant: canonical register file and snapshot, the snapshot within RAMP_REGS, a positive reference, a
checked configuration, a lifecycle other than RESET, and no set RESET bit in R0 once readback is unlocked (10_state.md R21, R24,
R25, R36, 44_lifecycle.md R211). -/
def Obligations.StepKeepsTheInvariant : Prop :=
  ∀ s t : State, Inv s → step s = .next t → Inv t

/-- No step changes the reference frequency or a parameter, and no step removes a recorded fault, not even a reset; a step adds at
most one record (10_state.md R21, R50, 60_exceptions.md R234, R235). -/
def Obligations.ConstructionAndFaultsPersist : Prop :=
  ∀ s t : State, step s = .next t →
    t.fOscIn = s.fOscIn ∧ t.cfg = s.cfg ∧ (t.faults = s.faults ∨ ∃ f, t.faults = s.faults ++ [f])

/-- Unless a write of R0 with the RESET bit set went out, the lifecycle only moves forward in a step, and a locked readback moves
only to unlocked, in a step that wrote the unlock word (10_state.md R24, 44_lifecycle.md R210, R212). -/
def Obligations.LifecycleMovesForwardButForReset : Prop :=
  ∀ s t : State, s.life ≠ .RESET → step s = .next t →
    (t.life = s.life ∨
      (s.life = .READBACK_LOCKED ∧ t.life = .READBACK_UNLOCKED ∧ writeTransaction 0 0x2410 ∈ t.trace) ∨
      (s.life = .READBACK_UNLOCKED ∧ (t.life = .CONFIGURED ∨ t.life = .RAMPING)) ∨
      (s.life = .CONFIGURED ∧ t.life = .RAMPING) ∨
      (∃ v : Word, v[1] = true ∧ writeTransaction 0 v ∈ t.trace))

/-- The committed snapshot changes only in a step that sent a write frame of R0 with FCAL_EN or RESET set (10_state.md R36,
20_memory.md R69; that the trace shows the whole frame of a transaction that failed is log 17). -/
def Obligations.CommittedChangesOnlyAtAWriteOfR0 : Prop :=
  ∀ s t : State, step s = .next t → t.committed ≠ s.committed →
    ∃ (v : Word) (x : Transaction), x ∈ t.trace ∧ x.sent = (writeTransaction 0 v).sent ∧ (v[1] = true ∨ v[3] = true)

/-- E_ADDR and E_PARAM are precise: after either, controller and device are as they were; no write transaction was issued, and no
transaction at all but for CONFIGURE_RAMP's ten reads (60_exceptions.md R232). -/
def Obligations.AddressAndParameterErrorsArePrecise : Prop :=
  ∀ (s t : State) (i : Instr) (e : BlockError), paramsOk s.cfg = true → exec i s = .next t →
    t.result = some (.error e) → (∀ info k, e ≠ .bus info k) →
    SameBlock s t ∧
    (t.trace = [] ∨ ((∃ a b c d g, i = .configureRamp a b c d g) ∧ t.trace.length = 10 ∧
      ∀ x ∈ t.trace, x.sent.length = 1))

/-- A bus fault ends the command at once: E_BUS carries the transport's information unmodified and the index of the failed
transaction, which is the last one of the command, all before it having succeeded; every other outcome comes with all
transactions succeeded (60_exceptions.md R231, R236, 20_memory.md R69). -/
def Obligations.BusFaultEndsTheCommand : Prop :=
  ∀ (s t : State) (i : Instr), exec i s = .next t →
    (∀ info k, t.result = some (.error (.bus info k)) →
      ∃ before last, t.trace = before ++ [last] ∧ k = before.length + 1 ∧ last.answer = .fault info ∧
        (∀ x ∈ before, x.answer = .ok)) ∧
    ((∀ info k, t.result ≠ some (.error (.bus info k))) → ∀ x ∈ t.trace, x.answer = .ok)

/-- What a failed transaction leaves: a failed read changes nothing; a failed write leaves its register unknown and PLL_N's
consistency in doubt at R34 and R36; a failed write of R0 with RESET leaves every register unknown and nothing committed, with
FCAL_EN it leaves the snapshot old or current; the lifecycle stays (20_memory.md R69). That nothing is committed where the word
had both RESET and FCAL_EN set is the model's choice between R69's two sentences (log 11), and of PLL_N's consistency after a
failed reset, log 11's too, this says nothing. -/
def Obligations.FailedTransactionLeavesTheDeviceUncertain : Prop :=
  ∀ (s : State) (a : Nat) (w : Word) (info : BusInfo) (rest : List BusAnswer), a < 110 → accessible s.cfg a →
    s.transport = .fault info :: rest →
    (∃ t, exec (.read a) s = .next t ∧ t.result = some (.error (.bus info 1)) ∧ SameBlock s t ∧ Used 1 s t) ∧
    (∃ t, exec (.write a w) s = .next t ∧ t.result = some (.error (.bus info 1)) ∧ regGet t.x a = none ∧
      t.life = s.life ∧ SameController s t ∧ Used 1 s t ∧
      (¬ (a = 0 ∧ w[1] = true) → OthersKept [a] s t) ∧
      (a = 0 → w[1] = true → (∀ b, regGet t.x b = none) ∧ t.committed = none) ∧
      (a = 0 → w[1] = false → w[3] = true →
        t.committed = s.committed ∨ ∃ c, t.committed = some c ∧ IsSnapshot c s) ∧
      (a ≠ 0 ∨ (w[1] = false ∧ w[3] = false) → t.committed = s.committed) ∧
      (a = 34 ∨ a = 36 → t.nConsistent = false) ∧
      (a ≠ 34 → a ≠ 36 → ¬ (a = 0 ∧ w[1] = true) → t.nConsistent = s.nConsistent))

/-- The commands that only read never change the block, however they end: the device, the lifecycle and the construction arguments
are as they were, and `faults` too unless the command's result is the fault appended (20_memory.md R67, R70). -/
def Obligations.ReadingCommandsChangeNothing : Prop :=
  ∀ (s t : State) (i : Instr), exec i s = .next t →
    (match i with
     | .setBits _ _ _ _ | .getBits _ _ _ | .read _ | .fieldRead _ | .readGroup _ | .getFpd | .getFvco | .getFsmclk
     | .readFrame _ => True
     | _ => False) →
    SameDevice s t ∧ t.life = s.life ∧ t.fOscIn = s.fOscIn ∧ t.cfg = s.cfg ∧ t.requests = s.requests ∧
      (t.faults = s.faults ∨ ∃ f, t.result = some (.fault f) ∧ t.faults = s.faults ++ [f])
end

