-- ==== Sys2Proof/Laws/BitField.lean ====
section
/-!
SUPPORT. What the BitField computations give, bit by bit and as numbers, and what a field's parts hold of its value.
-/
namespace Sys2Proof.Machine

/-- The mask has ones exactly at bits low..high. -/
theorem rangeMask_getLsbD (low high i : Nat) (h₁ : low ≤ high) (h₂ : high ≤ 15) :
    (rangeMask low high).getLsbD i = decide (low ≤ i ∧ i ≤ high) := by
  unfold rangeMask
  rw [BitVec.getLsbD_ofNat, Nat.testBit_mul_two_pow, Nat.testBit_two_pow_sub_one]
  by_cases ha : low ≤ i <;> by_cases hb : i ≤ high <;> simp [ha, hb] <;> omega

/-- Every bit of SET_BITS's result. -/
theorem setBitsWord_getLsbD (word : Word) (low high data i : Nat) (h₁ : low ≤ high) (h₂ : high ≤ 15) :
    (setBitsWord word low high data).getLsbD i =
      if low ≤ i ∧ i ≤ high then data.testBit (i - low) else word.getLsbD i := by
  unfold setBitsWord
  rw [BitVec.getLsbD_or, BitVec.getLsbD_and, BitVec.getLsbD_xor, rangeMask_getLsbD _ _ _ h₁ h₂, BitVec.getLsbD_ofNat,
    BitVec.getLsbD_ofNat, Nat.testBit_mul_two_pow, Nat.testBit_mod_two_pow,
    show (65535 : Nat) = 2 ^ 16 - 1 from rfl, Nat.testBit_two_pow_sub_one]
  by_cases hi : i < 16
  · by_cases ha : low ≤ i <;> by_cases hb : i ≤ high <;> simp [ha, hb, hi] <;> omega
  · have := BitVec.getLsbD_of_ge word i (by omega)
    simp [hi, this]; omega

/-- GET_BITS's result as a number: `word[high:low]`. -/
theorem getBitsWord_eq (word : Word) (low high : Nat) (h₁ : low ≤ high) (h₂ : high ≤ 15) :
    getBitsWord word low high = natBits word.toNat high low := by
  unfold getBitsWord natBits
  apply Nat.eq_of_testBit_eq
  intro i
  rw [Nat.testBit_div_two_pow, Nat.testBit_mod_two_pow, Nat.testBit_div_two_pow, BitVec.testBit_toNat,
    BitVec.getLsbD_and, rangeMask_getLsbD _ _ _ h₁ h₂, BitVec.testBit_toNat]
  by_cases hb : i < high - low + 1 <;> simp [hb] <;> intro <;> omega

/-- Every bit of GET_BITS's result. -/
theorem getBitsWord_testBit (word : Word) (low high i : Nat) (h₁ : low ≤ high) (h₂ : high ≤ 15) :
    (getBitsWord word low high).testBit i = (decide (i ≤ high - low) && word.getLsbD (i + low)) := by
  rw [getBitsWord_eq _ _ _ h₁ h₂]
  unfold natBits
  rw [Nat.testBit_mod_two_pow, Nat.testBit_div_two_pow, BitVec.testBit_toNat, Nat.add_comm]
  by_cases h : i ≤ high - low
  · simp [h, Nat.add_comm]
  · simp [h]; omega

theorem getBitsWord_lt (word : Word) (low high : Nat) (h₁ : low ≤ high) (h₂ : high ≤ 15) :
    getBitsWord word low high < 2 ^ (high - low + 1) := by
  rw [getBitsWord_eq _ _ _ h₁ h₂]; exact Nat.mod_lt _ (Nat.two_pow_pos _)

/-- GET_BITS after SET_BITS on the same range: the data, truncated (40_bitfield.md R113 law 1 as an identity of words). -/
theorem getBitsWord_setBitsWord (word : Word) (low high data : Nat) (h₁ : low ≤ high) (h₂ : high ≤ 15) :
    getBitsWord (setBitsWord word low high data) low high = data % 2 ^ (high - low + 1) := by
  apply Nat.eq_of_testBit_eq
  intro i
  rw [getBitsWord_testBit _ _ _ _ h₁ h₂, setBitsWord_getLsbD _ _ _ _ _ h₁ h₂, Nat.testBit_mod_two_pow]
  by_cases h : i ≤ high - low
  · have : low ≤ i + low ∧ i + low ≤ high := by omega
    simp [h, this]
  · simp [h]

/-- GET_BITS after SET_BITS on a disjoint range: nothing changed (R113 law 3 as an identity of words). -/
theorem getBitsWord_setBitsWord_disjoint (word : Word) (low high data low' high' : Nat) (h₁ : low ≤ high) (h₂ : high ≤ 15)
    (h₁' : low' ≤ high') (h₂' : high' ≤ 15) (hd : high < low' ∨ high' < low) :
    getBitsWord (setBitsWord word low high data) low' high' = getBitsWord word low' high' := by
  apply Nat.eq_of_testBit_eq
  intro i
  rw [getBitsWord_testBit _ _ _ _ h₁' h₂', getBitsWord_testBit _ _ _ _ h₁' h₂', setBitsWord_getLsbD _ _ _ _ _ h₁ h₂]
  by_cases h : i ≤ high' - low'
  · have : ¬ (low ≤ i + low' ∧ i + low' ≤ high) := by omega
    simp [h, this]
  · simp [h]

/-- A range that covers the word is the whole word. -/
theorem getBitsWord_full (word : Word) : getBitsWord word 0 15 = word.toNat := by
  rw [getBitsWord_eq _ _ _ (by omega) (by omega)]
  simp [natBits, Nat.mod_eq_of_lt word.isLt]

/-- The integer form of the range check. -/
theorem rangeOk_iff (low high : Int) : rangeOk low high = true ↔ 0 ≤ low ∧ low ≤ high ∧ high ≤ 15 := by
  simp [rangeOk]

end Sys2Proof.Machine
end

