-- ==== Sys2Proof/Laws/RegFile.lean ====
section
/-!
SUPPORT. The laws of the register file: what a look-up gives after a store, a forget or a restriction, and that each of them
keeps the canonical form.
-/
namespace Sys2Proof.Machine

@[simp] theorem regGet_nil (a : Nat) : regGet [] a = none := rfl

theorem regGet_insert (x : RegFile) (a b : Nat) (v : Word) :
    regGet (regInsert x a v) b = if b = a then some v else regGet x b := by
  induction x with
  | nil => simp [regInsert, regGet]
  | cons c r ih =>
    obtain ⟨d, w⟩ := c
    simp only [regInsert]
    split
    · simp [regGet]
    · split
      · subst_vars; simp only [regGet]; split <;> simp
      · simp only [regGet, ih]; split <;> split <;> simp_all

/-- Reading after a store: the word stored, at the address of a read-write register. -/
theorem regGet_set_same (x : RegFile) (a : Nat) (v : Word) (h : a < 110) : regGet (regSet x a v) a = some v := by
  simp [regSet, h, regGet_insert]

/-- Reading elsewhere after a store. -/
theorem regGet_set_other (x : RegFile) (a b : Nat) (v : Word) (h : b ≠ a) : regGet (regSet x a v) b = regGet x b := by
  unfold regSet; split <;> simp [regGet_insert, h]

/-- Reading after a store, at any address. -/
theorem regGet_set (x : RegFile) (a b : Nat) (v : Word) (h : a < 110) :
    regGet (regSet x a v) b = if b = a then some v else regGet x b := by
  simp [regSet, h, regGet_insert]

theorem regGet_filter (x : RegFile) (p : Nat → Bool) (a : Nat) :
    regGet (x.filter fun c => p c.1) a = if p a then regGet x a else none := by
  induction x with
  | nil => simp
  | cons c r ih =>
    obtain ⟨d, w⟩ := c
    by_cases hd : p d <;> by_cases ha : p a <;> by_cases had : a = d <;> simp_all [regGet]

/-- A forgotten register is `⊥`, the others keep their content. -/
@[simp] theorem regGet_forget (x : RegFile) (a b : Nat) :
    regGet (regForget x a) b = if b = a then none else regGet x b := by
  have := regGet_filter x (fun c => decide (c ≠ a)) b
  simp only [regForget, this]; split <;> split <;> simp_all

/-- A restriction keeps the content within the set and is `⊥` outside it. -/
@[simp] theorem regGet_restrict (x : RegFile) (l : List Nat) (a : Nat) :
    regGet (regRestrict x l) a = if a ∈ l then regGet x a else none := by
  have := regGet_filter x (fun c => decide (c ∈ l)) a
  simp only [regRestrict, this]; split <;> split <;> simp_all

theorem regWf_iff (x : RegFile) :
    regWf x = true ↔ (x.Pairwise fun c d => c.1 < d.1) ∧ ∀ c ∈ x, c.1 < 110 := by
  simp [regWf]

theorem mem_regInsert_fst {x : RegFile} {a : Nat} {v : Word} {c : Nat × Word} (h : c ∈ regInsert x a v) :
    c.1 = a ∨ c ∈ x := by
  induction x with
  | nil => simp_all [regInsert]
  | cons d r ih =>
    obtain ⟨e, w⟩ := d
    simp only [regInsert] at h
    split at h
    · simp_all; rcases h with h | h | h <;> simp_all
    · split at h
      · simp_all; rcases h with h | h <;> simp_all
      · rcases List.mem_cons.1 h with h | h
        · simp_all
        · rcases ih h with h | h <;> simp_all

theorem regInsert_pairwise (x : RegFile) (a : Nat) (v : Word) (h : x.Pairwise fun c d => c.1 < d.1) :
    (regInsert x a v).Pairwise fun c d => c.1 < d.1 := by
  induction x with
  | nil => simp [regInsert]
  | cons d r ih =>
    obtain ⟨e, w⟩ := d
    rw [List.pairwise_cons] at h
    simp only [regInsert]
    split
    · rename_i hlt
      simp only [List.pairwise_cons]
      refine ⟨?_, h⟩
      intro c hc
      rcases List.mem_cons.1 hc with hc | hc
      · simpa [hc] using hlt
      · exact Nat.lt_trans hlt (h.1 c hc)
    · split
      · rename_i hae
        subst hae
        exact List.pairwise_cons.2 ⟨fun c hc => h.1 c hc, h.2⟩
      · rename_i h1 h2
        rw [List.pairwise_cons]
        refine ⟨?_, ih h.2⟩
        intro c hc
        rcases mem_regInsert_fst hc with hc | hc
        · simp only [hc]; omega
        · exact h.1 c hc

/-- A store keeps the canonical form. -/
theorem regWf_set (x : RegFile) (a : Nat) (v : Word) (h : regWf x = true) : regWf (regSet x a v) = true := by
  unfold regSet
  split
  · rename_i ha
    rw [regWf_iff] at *
    refine ⟨regInsert_pairwise x a v h.1, ?_⟩
    intro c hc
    rcases mem_regInsert_fst hc with hc | hc
    · omega
    · exact h.2 c hc
  · exact h

theorem regWf_filter (x : RegFile) (p : Nat × Word → Bool) (h : regWf x = true) : regWf (x.filter p) = true := by
  rw [regWf_iff] at *
  exact ⟨h.1.filter p, fun c hc => h.2 c (List.mem_filter.1 hc).1⟩

/-- A forget keeps the canonical form. -/
theorem regWf_forget (x : RegFile) (a : Nat) (h : regWf x = true) : regWf (regForget x a) = true :=
  regWf_filter x _ h

/-- A restriction keeps the canonical form. -/
theorem regWf_restrict (x : RegFile) (l : List Nat) (h : regWf x = true) : regWf (regRestrict x l) = true :=
  regWf_filter x _ h

/-- A restriction lists only addresses of the set. -/
theorem mem_regRestrict (x : RegFile) (l : List Nat) (c : Nat × Word) (h : c ∈ regRestrict x l) : c.1 ∈ l := by
  simpa using (List.mem_filter.1 h).2

/-- In canonical form, equal look-ups are equal register files. -/
theorem regFile_ext (x y : RegFile) (hx : regWf x = true) (hy : regWf y = true) (h : ∀ a, regGet x a = regGet y a) :
    x = y := by
  induction x generalizing y with
  | nil =>
    cases y with
    | nil => rfl
    | cons d r => obtain ⟨e, w⟩ := d; have := h e; simp [regGet] at this
  | cons c r ih =>
    obtain ⟨a, v⟩ := c
    cases y with
    | nil => have := h a; simp [regGet] at this
    | cons d q =>
      obtain ⟨b, w⟩ := d
      rw [regWf_iff, List.pairwise_cons] at hx hy
      have none_of_lt : ∀ (l : RegFile) (k : Nat), (∀ e ∈ l, k < e.1) → regGet l k = none := by
        intro l k hl
        induction l with
        | nil => rfl
        | cons e l ih' =>
          obtain ⟨m, u⟩ := e
          have hm := hl (m, u) (by simp)
          have hkm : k ≠ m := by simp at hm; omega
          simp only [regGet, hkm, if_false]
          exact ih' fun e he => hl e (by simp [he])
      have hab : a = b := by
        rcases Nat.lt_trichotomy a b with hlt | heq | hgt
        · have h1 := h a
          have hne : a ≠ b := by omega
          simp only [regGet, hne, if_true, if_false] at h1
          rw [none_of_lt q a (fun e he => Nat.lt_trans hlt (hy.1.1 e he))] at h1
          cases h1
        · exact heq
        · have h1 := h b
          have hne : b ≠ a := by omega
          simp only [regGet, hne, if_true, if_false] at h1
          rw [none_of_lt r b (fun e he => Nat.lt_trans hgt (hx.1.1 e he))] at h1
          cases h1
      subst hab
      have hvw : v = w := by have := h a; simpa [regGet] using this
      subst hvw
      congr 1
      apply ih
      · rw [regWf_iff]; exact ⟨hx.1.2, fun c hc => hx.2 c (by simp [hc])⟩
      · rw [regWf_iff]; exact ⟨hy.1.2, fun c hc => hy.2 c (by simp [hc])⟩
      · intro k
        have hk := h k
        by_cases hka : k = a
        · subst hka
          rw [none_of_lt r k hx.1.1, none_of_lt q k hy.1.1]
        · simpa [regGet, hka] using hk

end Sys2Proof.Machine
end

