-- ==== Sys2Proof/Laws/State.lean ====
section
/-!
SUPPORT. One lemma per field per update of the state, true by unfolding and tagged simp, so that no later proof unfolds a record
update.
-/
namespace Sys2Proof.Machine

/-! ## State.drawn -/

@[simp] theorem State.drawn_fOscIn (s : State) : s.drawn.fOscIn = s.fOscIn := rfl
@[simp] theorem State.drawn_life (s : State) : s.drawn.life = s.life := rfl
@[simp] theorem State.drawn_faults (s : State) : s.drawn.faults = s.faults := rfl
@[simp] theorem State.drawn_x (s : State) : s.drawn.x = s.x := rfl
@[simp] theorem State.drawn_committed (s : State) : s.drawn.committed = s.committed := rfl
@[simp] theorem State.drawn_nConsistent (s : State) : s.drawn.nConsistent = s.nConsistent := rfl
@[simp] theorem State.drawn_cfg (s : State) : s.drawn.cfg = s.cfg := rfl
@[simp] theorem State.drawn_requests (s : State) : s.drawn.requests = s.requests := rfl
@[simp] theorem State.drawn_result (s : State) : s.drawn.result = s.result := rfl
@[simp] theorem State.drawn_trace (s : State) : s.drawn.trace = s.trace := rfl
@[simp] theorem State.drawn_transport (s : State) : s.drawn.transport = s.transport := rfl
@[simp] theorem State.drawn_txns (s : State) : s.drawn.txns = s.txns := rfl
@[simp] theorem State.drawn_draws (s : State) : s.drawn.draws = s.draws + 1 := rfl

/-! ## State.storeWord -/

@[simp] theorem State.storeWord_fOscIn (s : State) (a : Nat) (v : Word) : (s.storeWord a v).fOscIn = s.fOscIn := rfl
@[simp] theorem State.storeWord_life (s : State) (a : Nat) (v : Word) : (s.storeWord a v).life = s.life := rfl
@[simp] theorem State.storeWord_faults (s : State) (a : Nat) (v : Word) : (s.storeWord a v).faults = s.faults := rfl
@[simp] theorem State.storeWord_x (s : State) (a : Nat) (v : Word) : (s.storeWord a v).x = regSet s.x a v := rfl
@[simp] theorem State.storeWord_committed (s : State) (a : Nat) (v : Word) : (s.storeWord a v).committed = s.committed := rfl
@[simp] theorem State.storeWord_cfg (s : State) (a : Nat) (v : Word) : (s.storeWord a v).cfg = s.cfg := rfl
@[simp] theorem State.storeWord_requests (s : State) (a : Nat) (v : Word) : (s.storeWord a v).requests = s.requests := rfl
@[simp] theorem State.storeWord_result (s : State) (a : Nat) (v : Word) : (s.storeWord a v).result = s.result := rfl
@[simp] theorem State.storeWord_trace (s : State) (a : Nat) (v : Word) : (s.storeWord a v).trace = s.trace := rfl
@[simp] theorem State.storeWord_transport (s : State) (a : Nat) (v : Word) : (s.storeWord a v).transport = s.transport := rfl
@[simp] theorem State.storeWord_txns (s : State) (a : Nat) (v : Word) : (s.storeWord a v).txns = s.txns := rfl
@[simp] theorem State.storeWord_draws (s : State) (a : Nat) (v : Word) : (s.storeWord a v).draws = s.draws := rfl

/-! ## State.commit -/

@[simp] theorem State.commit_fOscIn (s : State) : s.commit.fOscIn = s.fOscIn := rfl
@[simp] theorem State.commit_life (s : State) : s.commit.life = s.life := rfl
@[simp] theorem State.commit_faults (s : State) : s.commit.faults = s.faults := rfl
@[simp] theorem State.commit_x (s : State) : s.commit.x = s.x := rfl
@[simp] theorem State.commit_committed (s : State) : s.commit.committed = some s.snapshot := rfl
@[simp] theorem State.commit_nConsistent (s : State) : s.commit.nConsistent = s.nConsistent := rfl
@[simp] theorem State.commit_cfg (s : State) : s.commit.cfg = s.cfg := rfl
@[simp] theorem State.commit_requests (s : State) : s.commit.requests = s.requests := rfl
@[simp] theorem State.commit_result (s : State) : s.commit.result = s.result := rfl
@[simp] theorem State.commit_trace (s : State) : s.commit.trace = s.trace := rfl
@[simp] theorem State.commit_transport (s : State) : s.commit.transport = s.transport := rfl
@[simp] theorem State.commit_txns (s : State) : s.commit.txns = s.txns := rfl
@[simp] theorem State.commit_draws (s : State) : s.commit.draws = s.draws := rfl

/-! ## State.deviceReset -/

@[simp] theorem State.deviceReset_fOscIn (s : State) : s.deviceReset.fOscIn = s.fOscIn := rfl
@[simp] theorem State.deviceReset_life (s : State) : s.deviceReset.life = s.life := rfl
@[simp] theorem State.deviceReset_faults (s : State) : s.deviceReset.faults = s.faults := rfl
@[simp] theorem State.deviceReset_x (s : State) : s.deviceReset.x = s.cfg.resetDefaults := rfl
@[simp] theorem State.deviceReset_committed (s : State) : s.deviceReset.committed = none := rfl
@[simp] theorem State.deviceReset_nConsistent (s : State) : s.deviceReset.nConsistent = true := rfl
@[simp] theorem State.deviceReset_cfg (s : State) : s.deviceReset.cfg = s.cfg := rfl
@[simp] theorem State.deviceReset_requests (s : State) : s.deviceReset.requests = s.requests := rfl
@[simp] theorem State.deviceReset_result (s : State) : s.deviceReset.result = s.result := rfl
@[simp] theorem State.deviceReset_trace (s : State) : s.deviceReset.trace = s.trace := rfl
@[simp] theorem State.deviceReset_transport (s : State) : s.deviceReset.transport = s.transport := rfl
@[simp] theorem State.deviceReset_txns (s : State) : s.deviceReset.txns = s.txns := rfl
@[simp] theorem State.deviceReset_draws (s : State) : s.deviceReset.draws = s.draws := rfl

/-! ## State.lifeUpdate -/

@[simp] theorem State.lifeUpdate_fOscIn (s : State) (a : Nat) (v : Word) (edge : Bool) : (s.lifeUpdate a v edge).fOscIn = s.fOscIn := rfl
@[simp] theorem State.lifeUpdate_life (s : State) (a : Nat) (v : Word) (edge : Bool) : (s.lifeUpdate a v edge).life = lifeAfterWrite s.life a v edge := rfl
@[simp] theorem State.lifeUpdate_faults (s : State) (a : Nat) (v : Word) (edge : Bool) : (s.lifeUpdate a v edge).faults = s.faults := rfl
@[simp] theorem State.lifeUpdate_x (s : State) (a : Nat) (v : Word) (edge : Bool) : (s.lifeUpdate a v edge).x = s.x := rfl
@[simp] theorem State.lifeUpdate_committed (s : State) (a : Nat) (v : Word) (edge : Bool) : (s.lifeUpdate a v edge).committed = s.committed := rfl
@[simp] theorem State.lifeUpdate_nConsistent (s : State) (a : Nat) (v : Word) (edge : Bool) : (s.lifeUpdate a v edge).nConsistent = s.nConsistent := rfl
@[simp] theorem State.lifeUpdate_cfg (s : State) (a : Nat) (v : Word) (edge : Bool) : (s.lifeUpdate a v edge).cfg = s.cfg := rfl
@[simp] theorem State.lifeUpdate_requests (s : State) (a : Nat) (v : Word) (edge : Bool) : (s.lifeUpdate a v edge).requests = s.requests := rfl
@[simp] theorem State.lifeUpdate_result (s : State) (a : Nat) (v : Word) (edge : Bool) : (s.lifeUpdate a v edge).result = s.result := rfl
@[simp] theorem State.lifeUpdate_trace (s : State) (a : Nat) (v : Word) (edge : Bool) : (s.lifeUpdate a v edge).trace = s.trace := rfl
@[simp] theorem State.lifeUpdate_transport (s : State) (a : Nat) (v : Word) (edge : Bool) : (s.lifeUpdate a v edge).transport = s.transport := rfl
@[simp] theorem State.lifeUpdate_txns (s : State) (a : Nat) (v : Word) (edge : Bool) : (s.lifeUpdate a v edge).txns = s.txns := rfl
@[simp] theorem State.lifeUpdate_draws (s : State) (a : Nat) (v : Word) (edge : Bool) : (s.lifeUpdate a v edge).draws = s.draws := rfl

/-! ## State.logged -/

@[simp] theorem State.logged_fOscIn (s : State) (t : Transaction) : (s.logged t).fOscIn = s.fOscIn := rfl
@[simp] theorem State.logged_life (s : State) (t : Transaction) : (s.logged t).life = s.life := rfl
@[simp] theorem State.logged_faults (s : State) (t : Transaction) : (s.logged t).faults = s.faults := rfl
@[simp] theorem State.logged_x (s : State) (t : Transaction) : (s.logged t).x = s.x := rfl
@[simp] theorem State.logged_committed (s : State) (t : Transaction) : (s.logged t).committed = s.committed := rfl
@[simp] theorem State.logged_nConsistent (s : State) (t : Transaction) : (s.logged t).nConsistent = s.nConsistent := rfl
@[simp] theorem State.logged_cfg (s : State) (t : Transaction) : (s.logged t).cfg = s.cfg := rfl
@[simp] theorem State.logged_requests (s : State) (t : Transaction) : (s.logged t).requests = s.requests := rfl
@[simp] theorem State.logged_result (s : State) (t : Transaction) : (s.logged t).result = s.result := rfl
@[simp] theorem State.logged_trace (s : State) (t : Transaction) : (s.logged t).trace = s.trace ++ [t] := rfl
@[simp] theorem State.logged_transport (s : State) (t : Transaction) : (s.logged t).transport = s.transport.drop 1 := rfl
@[simp] theorem State.logged_txns (s : State) (t : Transaction) : (s.logged t).txns = s.txns + 1 := rfl
@[simp] theorem State.logged_draws (s : State) (t : Transaction) : (s.logged t).draws = s.draws := rfl

/-! ## State.takeFault -/

@[simp] theorem State.takeFault_fOscIn (s : State) (f : FaultRecord) : (s.takeFault f).fOscIn = s.fOscIn := rfl
@[simp] theorem State.takeFault_life (s : State) (f : FaultRecord) : (s.takeFault f).life = s.life := rfl
@[simp] theorem State.takeFault_faults (s : State) (f : FaultRecord) : (s.takeFault f).faults = s.faults ++ [f] := rfl
@[simp] theorem State.takeFault_x (s : State) (f : FaultRecord) : (s.takeFault f).x = s.x := rfl
@[simp] theorem State.takeFault_committed (s : State) (f : FaultRecord) : (s.takeFault f).committed = s.committed := rfl
@[simp] theorem State.takeFault_nConsistent (s : State) (f : FaultRecord) : (s.takeFault f).nConsistent = s.nConsistent := rfl
@[simp] theorem State.takeFault_cfg (s : State) (f : FaultRecord) : (s.takeFault f).cfg = s.cfg := rfl
@[simp] theorem State.takeFault_requests (s : State) (f : FaultRecord) : (s.takeFault f).requests = s.requests := rfl
@[simp] theorem State.takeFault_result (s : State) (f : FaultRecord) : (s.takeFault f).result = some (.fault f) := rfl
@[simp] theorem State.takeFault_trace (s : State) (f : FaultRecord) : (s.takeFault f).trace = s.trace := rfl
@[simp] theorem State.takeFault_transport (s : State) (f : FaultRecord) : (s.takeFault f).transport = s.transport := rfl
@[simp] theorem State.takeFault_txns (s : State) (f : FaultRecord) : (s.takeFault f).txns = s.txns := rfl
@[simp] theorem State.takeFault_draws (s : State) (f : FaultRecord) : (s.takeFault f).draws = s.draws := rfl

/-! ## State.begin -/

@[simp] theorem State.begin_fOscIn (s : State) : s.begin.fOscIn = s.fOscIn := rfl
@[simp] theorem State.begin_life (s : State) : s.begin.life = s.life := rfl
@[simp] theorem State.begin_faults (s : State) : s.begin.faults = s.faults := rfl
@[simp] theorem State.begin_x (s : State) : s.begin.x = s.x := rfl
@[simp] theorem State.begin_committed (s : State) : s.begin.committed = s.committed := rfl
@[simp] theorem State.begin_nConsistent (s : State) : s.begin.nConsistent = s.nConsistent := rfl
@[simp] theorem State.begin_cfg (s : State) : s.begin.cfg = s.cfg := rfl
@[simp] theorem State.begin_requests (s : State) : s.begin.requests = s.requests := rfl
@[simp] theorem State.begin_result (s : State) : s.begin.result = s.result := rfl
@[simp] theorem State.begin_trace (s : State) : s.begin.trace = [] := rfl
@[simp] theorem State.begin_transport (s : State) : s.begin.transport = s.transport := rfl
@[simp] theorem State.begin_txns (s : State) : s.begin.txns = s.txns := rfl
@[simp] theorem State.begin_draws (s : State) : s.begin.draws = s.draws := rfl

/-! ## State.refuseRequest -/

@[simp] theorem State.refuseRequest_fOscIn (s : State) (r : Request) : (s.refuseRequest r).fOscIn = s.fOscIn := rfl
@[simp] theorem State.refuseRequest_life (s : State) (r : Request) : (s.refuseRequest r).life = s.life := rfl
@[simp] theorem State.refuseRequest_faults (s : State) (r : Request) : (s.refuseRequest r).faults = s.faults ++ [.refused r] := rfl
@[simp] theorem State.refuseRequest_x (s : State) (r : Request) : (s.refuseRequest r).x = s.x := rfl
@[simp] theorem State.refuseRequest_committed (s : State) (r : Request) : (s.refuseRequest r).committed = s.committed := rfl
@[simp] theorem State.refuseRequest_nConsistent (s : State) (r : Request) : (s.refuseRequest r).nConsistent = s.nConsistent := rfl
@[simp] theorem State.refuseRequest_cfg (s : State) (r : Request) : (s.refuseRequest r).cfg = s.cfg := rfl
@[simp] theorem State.refuseRequest_requests (s : State) (r : Request) : (s.refuseRequest r).requests = s.requests := rfl
@[simp] theorem State.refuseRequest_result (s : State) (r : Request) : (s.refuseRequest r).result = some .refused := rfl
@[simp] theorem State.refuseRequest_trace (s : State) (r : Request) : (s.refuseRequest r).trace = [] := rfl
@[simp] theorem State.refuseRequest_transport (s : State) (r : Request) : (s.refuseRequest r).transport = s.transport := rfl
@[simp] theorem State.refuseRequest_txns (s : State) (r : Request) : (s.refuseRequest r).txns = s.txns := rfl
@[simp] theorem State.refuseRequest_draws (s : State) (r : Request) : (s.refuseRequest r).draws = s.draws := rfl

/-! ## The predicates of the state that other updates leave alone -/

@[simp] theorem nextIndex_eq (s : State) : s.nextIndex = s.trace.length + 1 := rfl

@[simp] theorem readbackOk_drawn (s : State) : readbackOk s.drawn = readbackOk s := rfl

@[simp] theorem readbackOk_logged (s : State) (t : Transaction) : readbackOk (s.logged t) = readbackOk s := rfl

@[simp] theorem readbackOk_begin (s : State) : readbackOk s.begin = readbackOk s := rfl

@[simp] theorem fcalHazard_drawn (a : Nat) (s : State) : fcalHazard a s.drawn = fcalHazard a s := rfl

@[simp] theorem fcalHazard_logged (a : Nat) (s : State) (t : Transaction) :
    fcalHazard a (s.logged t) = fcalHazard a s := rfl

@[simp] theorem fcalHazard_begin (a : Nat) (s : State) : fcalHazard a s.begin = fcalHazard a s := rfl

@[simp] theorem snapshot_drawn (s : State) : s.drawn.snapshot = s.snapshot := rfl

@[simp] theorem snapshot_logged (s : State) (t : Transaction) : (s.logged t).snapshot = s.snapshot := rfl

end Sys2Proof.Machine
end

