-- ==== Sys2Proof/Laws/Ops.lean ====
section
/-!
SUPPORT. The laws of the shared operations of Machine/Ops.lean: how parts of a command follow one another, and, once for each
operation, everything it can do.
-/
namespace Sys2Proof.Machine

open Sys2Proof.Safety

/-! ## Parts of a command -/

@[simp] theorem andThen_ok {α β : Type} (v : α) (s : State) (k : α → State → Reply β) :
    (Reply.ok v s).andThen k = k v s := rfl

@[simp] theorem andThen_error {α β : Type} (e : BlockError) (s : State) (k : α → State → Reply β) :
    (Reply.error e s : Reply α).andThen k = .error e s := rfl

@[simp] theorem andThen_fault {α β : Type} (f : FaultRecord) (s : State) (k : α → State → Reply β) :
    (Reply.fault f s : Reply α).andThen k = .fault f s := rfl

theorem andThen_assoc {α β γ : Type} (r : Reply α) (k : α → State → Reply β) (l : β → State → Reply γ) :
    (r.andThen k).andThen l = r.andThen fun v s => (k v s).andThen l := by cases r <;> rfl

@[simp] theorem faultIf_true (f : FaultRecord) (s : State) : faultIf true f s = .fault f s := rfl

@[simp] theorem faultIf_false (f : FaultRecord) (s : State) : faultIf false f s = .ok () s := rfl

@[simp] theorem requireParam_true (c : ParamCheck) (v : Rat) (s : State) : requireParam true c v s = .ok () s := rfl

@[simp] theorem requireParam_false (c : ParamCheck) (v : Rat) (s : State) :
    requireParam false c v s = .error (.param c v) s := rfl

@[simp] theorem finish_ok (v : Value) (s : State) :
    (Reply.ok v s).finish = { s with result := some (.ok v) } := rfl

@[simp] theorem finish_error (e : BlockError) (s : State) :
    (Reply.error e s : Reply Value).finish = { s with result := some (.error e) } := rfl

@[simp] theorem finish_fault (f : FaultRecord) (s : State) :
    (Reply.fault f s : Reply Value).finish = s.takeFault f := rfl

/-! ## What holds of every way a part can end -/

/-- `P` holds of the state if the part ended with a value, `E` if with an error, `F` if with a fault. -/
def Reply.Sat {α : Type} (r : Reply α) (P : State → Prop) (E : BlockError → State → Prop) (F : FaultRecord → State → Prop) :
    Prop :=
  match r with
  | .ok _ s => P s
  | .error e s => E e s
  | .fault f s => F f s

variable {P Q : State → Prop} {E : BlockError → State → Prop} {F : FaultRecord → State → Prop}

@[simp] theorem sat_ok {α : Type} (v : α) (s : State) : (Reply.ok v s).Sat P E F ↔ P s := Iff.rfl

@[simp] theorem sat_error {α : Type} (e : BlockError) (s : State) : (Reply.error e s : Reply α).Sat P E F ↔ E e s := Iff.rfl

@[simp] theorem sat_fault {α : Type} (f : FaultRecord) (s : State) : (Reply.fault f s : Reply α).Sat P E F ↔ F f s := Iff.rfl

/-- What holds of a part and of what follows it holds of both in sequence. -/
theorem Reply.Sat.andThen {α β : Type} {r : Reply α} {k : α → State → Reply β} (h : r.Sat P E F)
    (hk : ∀ v s, P s → (k v s).Sat Q E F) : (r.andThen k).Sat Q E F := by
  cases r with
  | ok v s => exact hk v s h
  | error e s => exact h
  | fault f s => exact h

theorem Reply.Sat.mono {α : Type} {r : Reply α} {E' : BlockError → State → Prop} {F' : FaultRecord → State → Prop}
    (h : r.Sat P E F) (hP : ∀ s, P s → Q s) (hE : ∀ e s, E e s → E' e s) (hF : ∀ f s, F f s → F' f s) :
    r.Sat Q E' F' := by
  cases r with
  | ok v s => exact hP _ h
  | error e s => exact hE _ _ h
  | fault f s => exact hF _ _ h

theorem faultIf_sat (c : Bool) (f : FaultRecord) (s : State) (h : P s) (hF : c = true → F f s) :
    (faultIf c f s).Sat P E F := by
  cases c <;> simp_all

theorem requireParam_sat (c : Bool) (n : ParamCheck) (v : Rat) (s : State) (h : P s) (hE : c = false → E (.param n v) s) :
    (requireParam c n v s).Sat P E F := by
  cases c <;> simp_all

/-! ## The transport -/

theorem nextAnswer_of_transportOk {k : Nat} {s : State} (h : transportOk (k + 1) s) : nextAnswer s = .ok := by
  unfold nextAnswer
  unfold transportOk at h
  cases ht : s.transport with
  | nil => simp [ht, List.replicate_succ] at h
  | cons a r => simp [ht, List.replicate_succ] at h; simp [h.1]

theorem transportOk_drop {k : Nat} {l : List BusAnswer} (h : l.take (k + 1) = List.replicate (k + 1) .ok) :
    (l.drop 1).take k = List.replicate k .ok := by
  cases l with
  | nil => simp [List.replicate_succ] at h
  | cons a r => simp [List.replicate_succ] at h; simpa using h.2

theorem transportOk_mono {k m : Nat} {s : State} (h : transportOk m s) (hk : k ≤ m) : transportOk k s := by
  have h1 : (s.transport.take m).take k = (List.replicate m BusAnswer.ok).take k := congrArg _ h
  rw [List.take_take, List.take_replicate, Nat.min_eq_left hk] at h1
  exact h1

/-! ## Reads -/

/-- A read makes at most one draw and changes nothing else. -/
theorem deviceRead_state (a : Nat) (s : State) :
    (deviceRead a s).2 = s ∨ (deviceRead a s).2 = s.drawn := by
  unfold deviceRead
  split
  · exact .inr rfl
  · split
    · split
      · exact .inl rfl
      · exact .inr rfl
    · exact .inr rfl

/-- Everything a read transaction can do: it succeeds with the device's word and at most one draw made, or it fails and only the
trace, the transport's answers and their count change. -/
theorem memRead_cases (a : Nat) (s : State) :
    (nextAnswer s = .ok ∧
      memRead a s = .ok (deviceRead a s).1
        ((deviceRead a s).2.logged ⟨readFrameBytes (busAddr a), wordBytes (deviceRead a s).1, .ok⟩)) ∨
    (∃ info, nextAnswer s = .fault info ∧
      memRead a s = .error (.bus info s.nextIndex) (s.logged ⟨readFrameBytes (busAddr a), [], .fault info⟩)) := by
  unfold memRead
  cases h : nextAnswer s with
  | ok => exact .inl ⟨rfl, rfl⟩
  | fault info => exact .inr ⟨info, rfl, rfl⟩

/-- A register whose content is known, read while readback is reliable. -/
theorem deviceRead_known (a : Nat) (s : State) (w : Word) (ha : a < 110) (hr : readbackOk s = true)
    (hw : regGet s.x a = some w) : deviceRead a s = (w, s) := by
  simp [deviceRead, Nat.not_le.2 ha, hr, hw]

/-! ## Writes -/

/-- Everything a write transaction can do: the device performs it, or it fails with the device state uncertain. -/
theorem memWrite_cases (a : Nat) (v : Word) (s : State) :
    (nextAnswer s = .ok ∧
      memWrite a v s = deviceWrite a v (s.logged ⟨writeFrameBytes (busAddr a) v, [], .ok⟩)) ∨
    (∃ info, nextAnswer s = .fault info ∧
      memWrite a v s = .error (.bus info s.nextIndex)
        ((s.logged ⟨writeFrameBytes (busAddr a) v, [], .fault info⟩).writeFailed a v)) := by
  unfold memWrite
  cases h : nextAnswer s with
  | ok => exact .inl ⟨rfl, rfl⟩
  | fault info => exact .inr ⟨info, rfl, rfl⟩

/-- Everything a successful write of R0 can do. -/
theorem deviceWriteR0_cases (v : Word) (s : State) :
    (v[1] = true ∧ deviceWriteR0 v s = .ok () (s.deviceReset.lifeUpdate 0 v false)) ∨
    (v[1] = false ∧ ∃ edge s₁, edgeOf v s = (edge, s₁) ∧
      ((edge = true ∧ s₁.nConsistent = true ∧
          deviceWriteR0 v s = .ok () ((s₁.storeWord 0 v).commit.lifeUpdate 0 v true)) ∨
       (edge = true ∧ s₁.nConsistent = false ∧ deviceWriteR0 v s = .fault .hazardOrder (s₁.maybeStored 0 v)) ∨
       (edge = false ∧ deviceWriteR0 v s = .ok () ((s₁.storeWord 0 v).lifeUpdate 0 v false)))) := by
  cases hv : v[1] with
  | true => exact .inl ⟨rfl, by simp [deviceWriteR0, hv]⟩
  | false =>
    refine .inr ⟨rfl, (edgeOf v s).1, (edgeOf v s).2, rfl, ?_⟩
    cases he : (edgeOf v s).1 with
    | false => exact .inr (.inr ⟨rfl, by simp [deviceWriteR0, hv, he]⟩)
    | true =>
      cases hn : (edgeOf v s).2.nConsistent with
      | true => exact .inl ⟨rfl, rfl, by simp [deviceWriteR0, hv, he, hn]⟩
      | false => exact .inr (.inl ⟨rfl, rfl, by simp [deviceWriteR0, hv, he, hn]⟩)

/-- Everything a successful write transaction can do at the device. -/
theorem deviceWrite_cases (a : Nat) (v : Word) (s : State) :
    (fcalHazard a s = true ∧ deviceWrite a v s = .fault (.hazardFcal a) (s.maybeStored a v)) ∨
    (fcalHazard a s = false ∧ a = 0 ∧ deviceWrite a v s = deviceWriteR0 v s) ∨
    (fcalHazard a s = false ∧ a ≠ 0 ∧ deviceWrite a v s = .ok () ((s.storeWord a v).lifeUpdate a v false)) := by
  cases h : fcalHazard a s with
  | true => exact .inl ⟨rfl, by simp [deviceWrite, h]⟩
  | false =>
    by_cases ha : a = 0
    · subst ha; exact .inr (.inl ⟨rfl, rfl, by simp [deviceWrite, h]⟩)
    · exact .inr (.inr ⟨rfl, ha, by simp [deviceWrite, h, ha]⟩)

/-- The edge of a write of R0, where R0's content is known: FCAL_EN 0 to 1. -/
theorem edgeOf_known (v old : Word) (s : State) (h : regGet s.x 0 = some old) :
    edgeOf v s = (!old[3] && v[3], s) := by
  simp [edgeOf, riseKnown, h]

/-- Whatever the edge is, finding it makes at most one draw. -/
theorem edgeOf_state (v : Word) (s : State) : (edgeOf v s).2 = s ∨ (edgeOf v s).2 = s.drawn := by
  unfold edgeOf
  split
  · exact .inl rfl
  · exact .inr rfl

/-- The faulting write was stored, or it was not. -/
theorem maybeStored_cases (s : State) (a : Nat) (v : Word) :
    s.maybeStored a v = s.drawn.storeWord a v ∨ s.maybeStored a v = s.drawn := by
  unfold State.maybeStored
  split
  · exact .inl rfl
  · exact .inr rfl

/-! ## A whole command -/

/-- Every command answers a next state: it ends in exactly one outcome (60_exceptions.md R230). -/
theorem runCommand_eq (body : State → Reply Value) (s : State) : runCommand body s = .next (body s.begin).finish := rfl

end Sys2Proof.Machine
end

