-- ==== Sys2Proof/Laws/Commands.lean ====
section
/-!
SUPPORT. One lemma for every command: what the transactions keep and what the checks answer with, every command keeps. A property
of all instructions is then two facts about the read and the write transaction.
-/
namespace Sys2Proof.Machine

open Sys2Proof.Safety

/-- What must be shown of `P` (the state while a command runs), `E` (the state an error leaves) and `F` (the state a fault
leaves) for every command that only reads to keep them. -/
structure ReadClosed (P : State → Prop) (E : BlockError → State → Prop) (F : FaultRecord → State → Prop) : Prop where
  read : ∀ a s, P s → (memRead a s).Sat P E F
  addr : ∀ a s, P s → E (.addr a) s
  param : ∀ c v s, P s → E (.param c v) s
  fault : ∀ f s, isFault f = true → P s → F f s

/-- What must be shown for every command to keep them. -/
structure Closed (P : State → Prop) (E : BlockError → State → Prop) (F : FaultRecord → State → Prop) : Prop
    extends ReadClosed P E F where
  write : ∀ a v s, a < 110 → P s → (memWrite a v s).Sat P E F

variable {P : State → Prop} {E : BlockError → State → Prop} {F : FaultRecord → State → Prop}

/-- The check of an address answers without a transaction and changes nothing. -/
theorem checkAddr_cases (a : Nat) (s : State) :
    (113 ≤ a ∧ checkAddr a s = .error (.addr a) s) ∨
    (a < 113 ∧ a ∈ s.cfg.reserved ∧ checkAddr a s = .fault (.reserved a) s) ∨
    (a < 113 ∧ a ∉ s.cfg.reserved ∧ checkAddr a s = .ok () s) := by
  unfold checkAddr
  by_cases h : 113 ≤ a
  · exact .inl ⟨h, by simp [h]⟩
  · by_cases hr : a ∈ s.cfg.reserved
    · exact .inr (.inl ⟨by omega, hr, by simp [h, hr]⟩)
    · exact .inr (.inr ⟨by omega, hr, by simp [h, hr]⟩)

theorem checkAddr_sat (h : ReadClosed P E F) (a : Nat) (s : State) (hs : P s) : (checkAddr a s).Sat P E F := by
  rcases checkAddr_cases a s with ⟨_, e⟩ | ⟨_, _, e⟩ | ⟨_, _, e⟩ <;> rw [e]
  · exact h.addr a s hs
  · exact h.fault _ s rfl hs
  · exact hs

theorem readRegister_sat (h : ReadClosed P E F) (a : Nat) (s : State) (hs : P s) : (readRegister a s).Sat P E F :=
  (checkAddr_sat h a s hs).andThen fun _ s₁ hs₁ => h.read a s₁ hs₁

theorem checkReadback_sat (h : ReadClosed P E F) (c : LockedCommand) (s : State) (hs : P s) :
    (checkReadback c s).Sat P E F :=
  faultIf_sat _ _ _ hs fun _ => h.fault _ s rfl hs

theorem checkRange_sat (h : ReadClosed P E F) (low high : Int) (s : State) (hs : P s) : (checkRange low high s).Sat P E F :=
  faultIf_sat _ _ _ hs fun _ => h.fault _ s rfl hs

theorem setBitsOp_sat (h : ReadClosed P E F) (w : Word) (low high : Int) (d : Nat) (s : State) (hs : P s) :
    (setBitsOp w low high d s).Sat P E F :=
  (checkRange_sat h low high s hs).andThen fun _ _ hs₁ => hs₁

theorem getBitsOp_sat (h : ReadClosed P E F) (w : Word) (low high : Int) (s : State) (hs : P s) :
    (getBitsOp w low high s).Sat P E F :=
  (checkRange_sat h low high s hs).andThen fun _ _ hs₁ => hs₁

theorem checkWritable_ok_lt {a : Nat} {s s₁ : State} {u : Unit} (h : checkWritable a s = .ok u s₁) : a < 110 ∧ s₁ = s := by
  unfold checkWritable at h
  by_cases ha : 110 ≤ a
  · simp [ha] at h
  · simp [ha] at h; exact ⟨by omega, h.symm⟩

theorem checkWritable_andThen_sat {β : Type} (h : Closed P E F) (a : Nat) (s : State) (hs : P s)
    (k : Unit → State → Reply β) (hk : a < 110 → (k () s).Sat P E F) : ((checkWritable a s).andThen k).Sat P E F := by
  unfold checkWritable
  by_cases ha : 110 ≤ a
  · simp [ha]; exact h.fault _ s rfl hs
  · simp [ha]; exact hk (by omega)

theorem writeRegister_sat (h : Closed P E F) (a : Nat) (w : Word) (s : State) (hs : P s) :
    (writeRegister a w s).Sat P E F :=
  (checkAddr_sat h.toReadClosed a s hs).andThen fun _ s₁ hs₁ =>
    checkWritable_andThen_sat h a s₁ hs₁ _ fun ha => h.write a w s₁ ha hs₁

theorem modifyRegister_sat (h : Closed P E F) (a : Nat) (low high : Int) (d : Nat) (s : State) (hs : P s) :
    (modifyRegister a low high d s).Sat P E F :=
  (checkRange_sat h.toReadClosed low high s hs).andThen fun _ s₁ hs₁ =>
    (checkAddr_sat h.toReadClosed a s₁ hs₁).andThen fun _ s₂ hs₂ =>
      checkWritable_andThen_sat h a s₂ hs₂ _ fun ha =>
        (checkReadback_sat h.toReadClosed _ s₂ hs₂).andThen fun _ s₃ hs₃ =>
          (h.read a s₃ hs₃).andThen fun _ s₄ hs₄ =>
            (setBitsOp_sat h.toReadClosed _ low high d s₄ hs₄).andThen fun _ s₅ hs₅ => h.write a _ s₅ ha hs₅

theorem readParts_sat (h : ReadClosed P E F) (ps : List Part) (v : Nat) (s : State) (hs : P s) :
    (readParts ps v s).Sat P E F := by
  induction ps generalizing v s with
  | nil => exact hs
  | cons p ps ih =>
    exact (readRegister_sat h p.addr s hs).andThen fun _ s₁ hs₁ =>
      (getBitsOp_sat h _ p.lo p.hi s₁ hs₁).andThen fun _ s₂ hs₂ => ih _ s₂ hs₂

theorem readField_sat (h : ReadClosed P E F) (f : FieldId) (s : State) (hs : P s) : (readField f s).Sat P E F :=
  readParts_sat h _ 0 s hs

theorem writeParts_sat (h : Closed P E F) (ps : List Part) (v : Nat) (s : State) (hs : P s) :
    (writeParts ps v s).Sat P E F := by
  induction ps generalizing s with
  | nil => exact hs
  | cons p ps ih =>
    unfold writeParts
    refine Reply.Sat.andThen (P := P) ?_ fun _ s₁ hs₁ => ih s₁ hs₁
    split
    · exact writeRegister_sat h _ _ s hs
    · exact modifyRegister_sat h _ _ _ _ s hs

theorem writeField_sat (h : Closed P E F) (f : FieldId) (v : Int) (s : State) (hs : P s) : (writeField f v s).Sat P E F :=
  (requireParam_sat _ _ _ s hs fun _ => h.param _ _ s hs).andThen fun _ s₁ hs₁ =>
    (faultIf_sat _ _ s₁ hs₁ fun _ => h.fault _ s₁ rfl hs₁).andThen fun _ s₂ hs₂ => writeParts_sat h _ _ s₂ hs₂

theorem readFields_sat (h : ReadClosed P E F) (fs : List FieldId) (s : State) (hs : P s) : (readFields fs s).Sat P E F := by
  induction fs generalizing s with
  | nil => exact hs
  | cons f fs ih =>
    exact (readField_sat h f s hs).andThen fun _ s₁ hs₁ => (ih s₁ hs₁).andThen fun _ _ hs₂ => hs₂

theorem readGroupOp_sat (h : ReadClosed P E F) (g : GroupId) (s : State) (hs : P s) : (readGroupOp g s).Sat P E F := by
  unfold readGroupOp
  split
  · exact (readRegister_sat h 110 s hs).andThen fun _ s₁ hs₁ =>
      (readRegister_sat h 111 s₁ hs₁).andThen fun _ s₂ hs₂ =>
        (readRegister_sat h 112 s₂ hs₂).andThen fun _ _ hs₃ => hs₃
  · exact (readFields_sat h _ s hs).andThen fun _ _ hs₁ => hs₁

theorem computeFpd_sat (h : ReadClosed P E F) (s : State) (hs : P s) : (computeFpd s).Sat P E F :=
  (readField_sat h _ s hs).andThen fun _ s₁ hs₁ =>
    (readField_sat h _ s₁ hs₁).andThen fun _ s₂ hs₂ =>
      (readField_sat h _ s₂ hs₂).andThen fun _ s₃ hs₃ =>
        (readField_sat h _ s₃ hs₃).andThen fun _ s₄ hs₄ =>
          (faultIf_sat _ _ s₄ hs₄ fun _ => h.fault _ s₄ rfl hs₄).andThen fun _ s₅ hs₅ =>
            (faultIf_sat _ _ s₅ hs₅ fun _ => h.fault _ s₅ rfl hs₅).andThen fun _ _ hs₆ => hs₆

theorem fvcoFrom_sat (h : ReadClosed P E F) (fpd : Rat) (s : State) (hs : P s) : (fvcoFrom fpd s).Sat P E F :=
  (readField_sat h _ s hs).andThen fun _ s₁ hs₁ =>
    (readField_sat h _ s₁ hs₁).andThen fun _ s₂ hs₂ =>
      (readField_sat h _ s₂ hs₂).andThen fun _ s₃ hs₃ =>
        (faultIf_sat _ _ s₃ hs₃ fun _ => h.fault _ s₃ rfl hs₃).andThen fun _ _ hs₄ => hs₄

theorem computeFsmclk_sat (h : ReadClosed P E F) (s : State) (hs : P s) : (computeFsmclk s).Sat P E F :=
  (readField_sat h _ s hs).andThen fun _ _ hs₁ => hs₁

theorem deriveRamp_sat (h : ReadClosed P E F) (a b c : Rat) (d : Bool) (fpd fvco : Rat) (s : State) (hs : P s) :
    (deriveRamp a b c d fpd fvco s).Sat P E F :=
  (requireParam_sat _ _ _ s hs fun _ => h.param _ _ s hs).andThen fun _ s₁ hs₁ =>
    (faultIf_sat _ _ s₁ hs₁ fun _ => h.fault _ s₁ rfl hs₁).andThen fun _ s₂ hs₂ =>
      (faultIf_sat _ _ s₂ hs₂ fun _ => h.fault _ s₂ rfl hs₂).andThen fun _ s₃ hs₃ =>
        (requireParam_sat _ _ _ s₃ hs₃ fun _ => h.param _ _ s₃ hs₃).andThen fun _ s₄ hs₄ =>
          (requireParam_sat _ _ _ s₄ hs₄ fun _ => h.param _ _ s₄ hs₄).andThen fun _ s₅ hs₅ =>
            (requireParam_sat _ _ _ s₅ hs₅ fun _ => h.param _ _ s₅ hs₅).andThen fun _ s₆ hs₆ =>
              (requireParam_sat _ _ _ s₆ hs₆ fun _ => h.param _ _ s₆ hs₆).andThen fun _ s₇ hs₇ =>
                (requireParam_sat _ _ _ s₇ hs₇ fun _ => h.param _ _ s₇ hs₇).andThen fun _ _ hs₈ => hs₈

theorem writeFields_sat (h : Closed P E F) (l : List (FieldId × Int)) (s : State) (hs : P s) :
    (writeFields l s).Sat P E F := by
  induction l generalizing s with
  | nil => exact hs
  | cons c l ih =>
    obtain ⟨f, v⟩ := c
    exact (writeField_sat h f v s hs).andThen fun _ s₁ hs₁ => ih s₁ hs₁

theorem configureRampOp_sat (h : Closed P E F) (a b c : Rat) (d e : Bool) (s : State) (hs : P s) :
    (configureRampOp a b c d e s).Sat P E F :=
  (checkReadback_sat h.toReadClosed _ s hs).andThen fun _ s₁ hs₁ =>
    (computeFpd_sat h.toReadClosed s₁ hs₁).andThen fun _ s₂ hs₂ =>
      (fvcoFrom_sat h.toReadClosed _ s₂ hs₂).andThen fun _ s₃ hs₃ =>
        (deriveRamp_sat h.toReadClosed a b c d _ _ s₃ hs₃).andThen fun _ s₄ hs₄ => writeFields_sat h _ s₄ hs₄

theorem setDividerOp_sat (h : Closed P E F) (n num den : Int) (s : State) (hs : P s) :
    (setDividerOp n num den s).Sat P E F :=
  (requireParam_sat _ _ _ s hs fun _ => h.param _ _ s hs).andThen fun _ s₁ hs₁ =>
    (requireParam_sat _ _ _ s₁ hs₁ fun _ => h.param _ _ s₁ hs₁).andThen fun _ s₂ hs₂ =>
      (requireParam_sat _ _ _ s₂ hs₂ fun _ => h.param _ _ s₂ hs₂).andThen fun _ s₃ hs₃ =>
        (checkReadback_sat h.toReadClosed _ s₃ hs₃).andThen fun _ s₄ hs₄ => writeFields_sat h _ s₄ hs₄

theorem setOutputPowerOp_sat (h : Closed P E F) (c : Channel) (l : Int) (s : State) (hs : P s) :
    (setOutputPowerOp c l s).Sat P E F :=
  (requireParam_sat _ _ _ s hs fun _ => h.param _ _ s hs).andThen fun _ s₁ hs₁ => writeField_sat h _ l s₁ hs₁

theorem armOp_sat (h : Closed P E F) (s : State) (hs : P s) : (armOp s).Sat P E F :=
  (checkReadback_sat h.toReadClosed _ s hs).andThen fun _ s₁ hs₁ =>
    (readField_sat h.toReadClosed _ s₁ hs₁).andThen fun _ s₂ hs₂ => by
      refine Reply.Sat.andThen (P := P) ?_ fun _ s₃ hs₃ => modifyRegister_sat h 0 3 3 1 s₃ hs₃
      split
      · exact modifyRegister_sat h 0 3 3 0 s₂ hs₂
      · exact hs₂

/-! ## The write transaction, case by case -/

/-- A property of how a write transaction ends, shown case by case of what the device does. -/
theorem memWrite_sat_of {P : State → Prop} {E : BlockError → State → Prop} {F : FaultRecord → State → Prop} (a : Nat) (v : Word) (s : State)
    (herr : ∀ info, nextAnswer s = .fault info → E (.bus info s.nextIndex) ((s.logged ⟨writeFrameBytes (busAddr a) v, [], .fault info⟩).writeFailed a v))
    (hok : ∀ s', s' = s.logged ⟨writeFrameBytes (busAddr a) v, [], .ok⟩ → nextAnswer s = .ok →
      (fcalHazard a s = true → F (.hazardFcal a) (s'.maybeStored a v)) ∧
      (fcalHazard a s = false → a ≠ 0 → P ((s'.storeWord a v).lifeUpdate a v false)) ∧
      (fcalHazard a s = false → a = 0 → v[1] = true → P (s'.deviceReset.lifeUpdate 0 v false)) ∧
      (∀ s₁ edge, fcalHazard a s = false → a = 0 → v[1] = false → edgeOf v s' = (edge, s₁) → (s₁ = s' ∨ s₁ = s'.drawn) → 
        (edge = true → s₁.nConsistent = true → P ((s₁.storeWord 0 v).commit.lifeUpdate 0 v true)) ∧
        (edge = true → s₁.nConsistent = false → F .hazardOrder (s₁.maybeStored 0 v)) ∧
        (edge = false → P ((s₁.storeWord 0 v).lifeUpdate 0 v false)))) : (memWrite a v s).Sat P E F := by
  obtain ⟨hn, e⟩ | ⟨info, hn, e⟩ := memWrite_cases a v s
  · rw [e]
    obtain ⟨h1, h2, h3, h4⟩ := hok _ rfl hn
    obtain ⟨hz, e⟩ | ⟨hz, h0, e⟩ | ⟨hz, h0, e⟩ := deviceWrite_cases a v (s.logged ⟨writeFrameBytes (busAddr a) v, [], .ok⟩)
    · rw [e]; exact h1 (by simpa using hz)
    · rw [fcalHazard_logged] at hz
      rw [e]
      obtain ⟨hv, e⟩ | ⟨hv, edge, s₁, he, h⟩ := deviceWriteR0_cases v (s.logged ⟨writeFrameBytes (busAddr a) v, [], .ok⟩)
      · rw [e]; exact h3 hz h0 hv
      · have hs : s₁ = (s.logged ⟨writeFrameBytes (busAddr a) v, [], .ok⟩) ∨ s₁ = (s.logged ⟨writeFrameBytes (busAddr a) v, [], .ok⟩).drawn := by have := edgeOf_state v (s.logged ⟨writeFrameBytes (busAddr a) v, [], .ok⟩); rw [he] at this; exact this
        obtain ⟨k1, k2, k3⟩ := h4 s₁ edge hz h0 hv he hs
        obtain ⟨a1, a2, e⟩ | ⟨a1, a2, e⟩ | ⟨a1, e⟩ := h <;> rw [e]
        · exact k1 a1 a2
        · exact k2 a1 a2
        · exact k3 a1
    · rw [fcalHazard_logged] at hz
      rw [e]; exact h2 hz h0
  · rw [e]; exact herr info hn

/-- What holds whether or not the faulting write was stored. -/
theorem maybeStored_ind {Q : State → Prop} (s : State) (a v) (h1 : Q (s.drawn.storeWord a v)) (h2 : Q s.drawn) : Q (s.maybeStored a v) := by
  obtain h | h := maybeStored_cases s a v <;> rw [h] <;> assumption

/-! ## All commands at once -/

/-- The body that `exec` runs for an instruction. -/
def bodyOf (i : Instr) (s : State) : Reply Value :=
  match i with
  | .setBits word low high data => (setBitsOp word low high data s).andThen fun r s₁ => .ok (.word r) s₁
  | .getBits word low high => (getBitsOp word low high s).andThen fun r s₁ => .ok (.nat r) s₁
  | .read addr => (readRegister addr s).andThen fun w s₁ => .ok (.word w) s₁
  | .write addr word => (writeRegister addr word s).andThen fun _ s₁ => .ok .unit s₁
  | .modify addr low high data => (modifyRegister addr low high data s).andThen fun _ s₁ => .ok .unit s₁
  | .fieldRead field => (readField field s).andThen fun v s₁ => .ok (.nat v) s₁
  | .fieldWrite field value => (writeField field value s).andThen fun _ s₁ => .ok .unit s₁
  | .readGroup group => readGroupOp group s
  | .getFpd => (computeFpd s).andThen fun q s₁ => .ok (.freq q) s₁
  | .getFvco => (computeFvco s).andThen fun q s₁ => .ok (.freq q) s₁
  | .getFsmclk => (computeFsmclk s).andThen fun q s₁ => .ok (.freq q) s₁
  | .configureRamp a b c d e => (configureRampOp a b c d e s).andThen fun _ s₁ => .ok .unit s₁
  | .setDivider n num den => (setDividerOp n num den s).andThen fun _ s₁ => .ok .unit s₁
  | .setOutputPower c l => (setOutputPowerOp c l s).andThen fun _ s₁ => .ok .unit s₁
  | .reset => (writeRegister 0 s.cfg.r0ResetWord s).andThen fun _ s₁ => .ok .unit s₁
  | .unlock => (writeRegister 0 unlockWord s).andThen fun _ s₁ => .ok .unit s₁
  | .arm => (armOp s).andThen fun _ s₁ => .ok .unit s₁
  | .writeFrame a d => (writeRegister a.toNat d s).andThen fun _ s₁ => .ok .unit s₁
  | .readFrame a => (readRegister a.toNat s).andThen fun w s₁ => .ok (.word w) s₁

/-- Every well-formed instruction answers the next state in which its body has run to its end. -/
theorem exec_eq (i : Instr) (s : State) (h : WellFormed i = true) : exec i s = .next (bodyOf i s.begin).finish := by
  cases i with
  | writeFrame a d =>
    have : ¬ 113 ≤ a.toNat := by simp [WellFormed] at h; omega
    simp [exec, execWriteFrame, this, runCommand, bodyOf]
  | readFrame a =>
    have : ¬ 113 ≤ a.toNat := by simp [WellFormed] at h; omega
    simp [exec, execReadFrame, this, runCommand, bodyOf]
  | _ => rfl

/-- An instruction answers a next state, or it is a frame that is never sent. -/
theorem exec_cases (i : Instr) (s : State) :
    exec i s = .next (bodyOf i s.begin).finish ∨
    (WellFormed i = false ∧ ∃ a, exec i s = .refused (.frameAddressNeverSent a)) := by
  cases hw : WellFormed i with
  | true => exact .inl (exec_eq i s hw)
  | false =>
    refine .inr ⟨rfl, ?_⟩
    cases i with
    | writeFrame a d =>
      have : 113 ≤ a.toNat := by simp [WellFormed] at hw; omega
      exact ⟨a, by simp [exec, execWriteFrame, this]⟩
    | readFrame a =>
      have : 113 ≤ a.toNat := by simp [WellFormed] at hw; omega
      exact ⟨a, by simp [exec, execReadFrame, this]⟩
    | _ => simp [WellFormed] at hw

/-- What the transactions keep and the checks answer with holds of every command. -/
theorem bodyOf_sat (h : Closed P E F) (i : Instr) (s : State) (hs : P s) : (bodyOf i s).Sat P E F := by
  cases i with
  | setBits w lo hi d => exact (setBitsOp_sat h.toReadClosed w lo hi d s hs).andThen fun _ _ h₁ => h₁
  | getBits w lo hi => exact (getBitsOp_sat h.toReadClosed w lo hi s hs).andThen fun _ _ h₁ => h₁
  | read a => exact (readRegister_sat h.toReadClosed a s hs).andThen fun _ _ h₁ => h₁
  | write a w => exact (writeRegister_sat h a w s hs).andThen fun _ _ h₁ => h₁
  | modify a lo hi d => exact (modifyRegister_sat h a lo hi d s hs).andThen fun _ _ h₁ => h₁
  | fieldRead f => exact (readField_sat h.toReadClosed f s hs).andThen fun _ _ h₁ => h₁
  | fieldWrite f v => exact (writeField_sat h f v s hs).andThen fun _ _ h₁ => h₁
  | readGroup g => exact readGroupOp_sat h.toReadClosed g s hs
  | getFpd => exact (computeFpd_sat h.toReadClosed s hs).andThen fun _ _ h₁ => h₁
  | getFvco =>
    exact ((computeFpd_sat h.toReadClosed s hs).andThen fun q s₁ h₁ => fvcoFrom_sat h.toReadClosed q s₁ h₁).andThen fun _ _ h₂ => h₂
  | getFsmclk =>
    exact (computeFsmclk_sat h.toReadClosed s hs).andThen fun _ _ h₁ => h₁
  | configureRamp a b c d e => exact (configureRampOp_sat h a b c d e s hs).andThen fun _ _ h₁ => h₁
  | setDivider n num den => exact (setDividerOp_sat h n num den s hs).andThen fun _ _ h₁ => h₁
  | setOutputPower c l => exact (setOutputPowerOp_sat h c l s hs).andThen fun _ _ h₁ => h₁
  | reset => exact (writeRegister_sat h _ _ s hs).andThen fun _ _ h₁ => h₁
  | unlock => exact (writeRegister_sat h _ _ s hs).andThen fun _ _ h₁ => h₁
  | arm => exact (armOp_sat h s hs).andThen fun _ _ h₁ => h₁
  | writeFrame a d => exact (writeRegister_sat h _ _ s hs).andThen fun _ _ h₁ => h₁
  | readFrame a => exact (readRegister_sat h.toReadClosed _ s hs).andThen fun _ _ h₁ => h₁

/-- Everything a step that answers a next state can do: wait, run a decoded instruction, or refuse a request that is no command. -/
theorem step_next_cases {s t : State} (h : step s = .next t) : paramsOk s.cfg = true ∧ stuckOn s = none ∧
    ((s.requests = [] ∧ t = s) ∨ (∃ r rest, s.requests = r :: rest ∧
      ((∃ i, decode r = .ok i ∧ t = (bodyOf i ({ s with requests := rest } : State).begin).finish) ∨
       (∃ op codes, r = .command op codes ∧ t = ({ s with requests := rest } : State).refuseRequest r)))) := by
  unfold step at h
  split at h
  swap
  · cases h
  rename_i hp
  split at h
  · cases h
  rename_i hs
  refine ⟨hp, hs, ?_⟩
  unfold fetch at h
  cases hr : s.requests with
  | nil => rw [hr] at h; simp at h; exact .inl ⟨rfl, h.symm⟩
  | cons r rest =>
    rw [hr] at h
    simp only at h
    refine .inr ⟨r, rest, rfl, ?_⟩
    unfold stepRequest at h
    split at h
    · rename_i i hd
      obtain e | ⟨_, a, e⟩ := exec_cases i { s with requests := rest }
      · rw [e] at h; exact .inl ⟨i, hd, by cases h; rfl⟩
      · rw [e] at h; cases h
    · cases r with
      | command op codes => simp [rejectRequest] at h; exact .inr ⟨op, codes, rfl, h.symm⟩
      | frame b => cases h

end Sys2Proof.Machine
end

