-- ==== Sys2Proof/Laws/Decode.lean ====
section
/-!
SUPPORT. The decoder on the form of each opcode's requests, and what reading an operand code gives on the code of that operand.
-/
namespace Sys2Proof

/-! ## Operand codes -/

theorem natOfCode_ofNat (n : Nat) : natOfCode (n : Int) = .ok n := by simp [natOfCode]

theorem wordOfCode_toNat (w : Word) : wordOfCode (w.toNat : Int) = .ok w := by
  have := w.isLt
  simp [wordOfCode]
  omega

theorem fieldOfCode_code (f : FieldId) : fieldOfCode (fieldCode f : Int) = .ok f := by cases f <;> decide

theorem groupOfCode_code (g : GroupId) : groupOfCode (groupCode g : Int) = .ok g := by cases g <;> decide

theorem channelOfCode_code (c : Channel) : channelOfCode (channelCode c) = .ok c := by cases c <;> decide

theorem boolOfCode_code (b : Bool) : boolOfCode (boolCode b) = .ok b := by cases b <;> decide

theorem ratOfCodes_codes (q : Rat) : ratOfCodes q.num (q.den - 1) = .ok q := by
  have := q.den_pos
  have h : ((q.den : Int) - 1) = ((q.den - 1 : Nat) : Int) := by omega
  rw [ratOfCodes, h, natOfCode_ofNat]
  simp only [Except.map]
  rw [Nat.sub_add_cancel (by omega), Rat.mkRat_self]

/-! ## Frame bytes -/

theorem writeByte_msb (a : BusAddr) : (writeByte a).msb = false := by revert a; decide

theorem readByte_msb (a : BusAddr) : (readByte a).msb = true := by revert a; decide

theorem frameAddr_writeByte (a : BusAddr) : frameAddr (writeByte a) = a := by revert a; decide

theorem frameAddr_readByte (a : BusAddr) : frameAddr (readByte a) = a := by revert a; decide

theorem writeByte_frameAddr (b : Byte) (h : b.msb = false) : writeByte (frameAddr b) = b := by revert b; decide

theorem readByte_frameAddr (b : Byte) (h : b.msb = true) : readByte (frameAddr b) = b := by revert b; decide

/-- Every bit of a word made of two bytes. -/
theorem wordOfBytes_getLsbD (hi lo : Byte) (i : Nat) :
    (wordOfBytes hi lo).getLsbD i = if i < 8 then lo.getLsbD i else hi.getLsbD (i - 8) :=
  BitVec.getLsbD_append

theorem wordOfBytes_high (hi lo : Byte) : (wordOfBytes hi lo).extractLsb' 8 8 = hi := by
  apply BitVec.eq_of_getLsbD_eq
  intro i h
  rw [BitVec.getLsbD_extractLsb', wordOfBytes_getLsbD]
  simp [h]

theorem wordOfBytes_low (hi lo : Byte) : (wordOfBytes hi lo).extractLsb' 0 8 = lo := by
  apply BitVec.eq_of_getLsbD_eq
  intro i h
  rw [BitVec.getLsbD_extractLsb', wordOfBytes_getLsbD]
  simp [h]

theorem wordOfBytes_wordBytes (w : Word) : wordOfBytes (w.extractLsb' 8 8) (w.extractLsb' 0 8) = w := by
  apply BitVec.eq_of_getLsbD_eq
  intro i h
  rw [wordOfBytes_getLsbD, BitVec.getLsbD_extractLsb', BitVec.getLsbD_extractLsb']
  by_cases hi : i < 8
  · simp [hi]
  · have h1 : i - 8 < 8 := by omega
    have h2 : 8 + (i - 8) = i := by omega
    simp [hi, h1, h2]

/-! ## The opcodes -/

theorem decode_01 (w lo hi d : Int) :
    decode (.command 0x01#8 [w, lo, hi, d]) = (do return .setBits (← wordOfCode w) lo hi (← natOfCode d)) := rfl
theorem decode_02 (w lo hi : Int) : decode (.command 0x02#8 [w, lo, hi]) = (do return .getBits (← wordOfCode w) lo hi) := rfl
theorem decode_03 (a : Int) : decode (.command 0x03#8 [a]) = (do return .read (← natOfCode a)) := rfl
theorem decode_04 (a w : Int) :
    decode (.command 0x04#8 [a, w]) = (do return .write (← natOfCode a) (← wordOfCode w)) := rfl
theorem decode_05 (a lo hi d : Int) :
    decode (.command 0x05#8 [a, lo, hi, d]) = (do return .modify (← natOfCode a) lo hi (← natOfCode d)) := rfl
theorem decode_06 (f : Int) : decode (.command 0x06#8 [f]) = (do return .fieldRead (← fieldOfCode f)) := rfl
theorem decode_07 (f v : Int) : decode (.command 0x07#8 [f, v]) = (do return .fieldWrite (← fieldOfCode f) v) := rfl
theorem decode_08 (g : Int) : decode (.command 0x08#8 [g]) = (do return .readGroup (← groupOfCode g)) := rfl
theorem decode_0C (sn sd tn td hn hd d f : Int) :
    decode (.command 0x0C#8 [sn, sd, tn, td, hn, hd, d, f]) = (do
      return .configureRamp (← ratOfCodes sn sd) (← ratOfCodes tn td) (← ratOfCodes hn hd) (← boolOfCode d)
        (← boolOfCode f)) := rfl
theorem decode_0D (n num den : Int) : decode (.command 0x0D#8 [n, num, den]) = .ok (.setDivider n num den) := rfl
theorem decode_0E (c l : Int) : decode (.command 0x0E#8 [c, l]) = (do return .setOutputPower (← channelOfCode c) l) := rfl

end Sys2Proof
end

