-- ==== Sys2Proof/Laws/Transactions.lean ====
section
/-!
SUPPORT. What a read or a write transaction leaves when the transport lets it succeed, as relations between states that compose
over the transactions of a command.
-/
namespace Sys2Proof.Safety

open Sys2Proof.Machine

theorem SameController.refl (s : State) : SameController s s := ⟨rfl, rfl, rfl, rfl⟩

theorem SameController.trans {s t u : State} (h : SameController s t) (k : SameController t u) : SameController s u :=
  ⟨k.fOscIn.trans h.fOscIn, k.faults.trans h.faults, k.cfg.trans h.cfg, k.requests.trans h.requests⟩

theorem SameDevice.refl (s : State) : SameDevice s s := ⟨rfl, rfl, rfl⟩

theorem SameDevice.trans {s t u : State} (h : SameDevice s t) (k : SameDevice t u) : SameDevice s u :=
  ⟨k.x.trans h.x, k.committed.trans h.committed, k.nConsistent.trans h.nConsistent⟩

end Sys2Proof.Safety

namespace Sys2Proof.Machine

open Sys2Proof.Safety

/-- `t` is `s` after the successful transactions `l`: the transport's answers are used up, and the controller is as it was but for
the lifecycle. -/
structure Ran (l : List Transaction) (s t : State) : Prop where
  controller : SameController s t
  trace : t.trace = s.trace ++ l
  transport : t.transport = s.transport.drop l.length
  txns : t.txns = s.txns + l.length

/-- As `Ran`, with device and lifecycle as they were. -/
structure Looked (l : List Transaction) (s t : State) : Prop where
  ran : Ran l s t
  life : t.life = s.life
  device : SameDevice s t

theorem Ran.refl (s : State) : Ran [] s s := ⟨.refl s, by simp, by simp, by simp⟩

theorem Looked.refl (s : State) : Looked [] s s := ⟨.refl s, rfl, .refl s⟩

theorem Ran.trans {l m : List Transaction} {s t u : State} (h : Ran l s t) (k : Ran m t u) : Ran (l ++ m) s u :=
  ⟨h.controller.trans k.controller, by rw [k.trace, h.trace, List.append_assoc],
    by rw [k.transport, h.transport, List.drop_drop, List.length_append],
    by rw [k.txns, h.txns, List.length_append, Nat.add_assoc]⟩

theorem Looked.trans {l m : List Transaction} {s t u : State} (h : Looked l s t) (k : Looked m t u) : Looked (l ++ m) s u :=
  ⟨h.ran.trans k.ran, k.life.trans h.life, h.device.trans k.device⟩

/-- What is left of the transport's answers. -/
theorem Ran.transportOk {l : List Transaction} {s t : State} (h : Ran l s t) {k m : Nat} (hk : Safety.transportOk m s)
    (hm : k + l.length ≤ m) : Safety.transportOk k t := by
  have h0 := transportOk_mono (k := k + l.length) hk hm
  unfold Safety.transportOk at *
  rw [h.transport, List.take_drop, Nat.add_comm, h0]
  simp

/-- The predicates of a state that depend only on the device, the lifecycle and the parameters. -/
theorem Looked.readbackOk {l : List Transaction} {s t : State} (h : Looked l s t) : readbackOk t = readbackOk s := by
  unfold Machine.readbackOk; rw [h.life, h.device.x]

theorem Looked.fieldValue {l : List Transaction} {s t : State} (h : Looked l s t) (f : FieldId) :
    fieldValue t f = fieldValue s f := by
  unfold Safety.fieldValue; rw [h.device.x, h.ran.controller.cfg]

theorem Looked.fcalHazard {l : List Transaction} {s t : State} (h : Looked l s t) (a : Nat) :
    fcalHazard a t = fcalHazard a s := by
  unfold Machine.fcalHazard; rw [h.device.x, h.ran.controller.cfg]

/-- The bytes of a read transaction, as 30_encoding.md R81 writes them. -/
theorem readFrameBytes_busAddr (a : Nat) (h : a < 128) : readFrameBytes (busAddr a) = [BitVec.ofNat 8 (128 + a)] := by
  unfold readFrameBytes readByte busAddr
  congr 1
  apply BitVec.eq_of_toNat_eq
  rw [BitVec.toNat_append]
  simp [Nat.mod_eq_of_lt h]
  rw [show (128 : Nat) = 1 <<< 7 from rfl, ← Nat.shiftLeft_add_eq_or_of_lt (by omega)]
  omega

/-- The two bytes of a word. -/
theorem wordBytes_eq (w : Word) : wordBytes w = [BitVec.ofNat 8 (w.toNat / 256), BitVec.ofNat 8 (w.toNat % 256)] := by
  unfold wordBytes
  congr 1
  · apply BitVec.eq_of_toNat_eq
    simp [BitVec.extractLsb'_toNat, Nat.shiftRight_eq_div_pow]
  · congr 1
    apply BitVec.eq_of_toNat_eq
    simp [BitVec.extractLsb'_toNat]

/-- The bytes of a write transaction, as 30_encoding.md R80 writes them. -/
theorem writeFrameBytes_busAddr (a : Nat) (v : Word) (h : a < 128) :
    writeFrameBytes (busAddr a) v =
      [BitVec.ofNat 8 a, BitVec.ofNat 8 (v.toNat / 256), BitVec.ofNat 8 (v.toNat % 256)] := by
  unfold writeFrameBytes
  rw [wordBytes_eq]
  congr 1
  unfold writeByte busAddr
  apply BitVec.eq_of_toNat_eq
  rw [BitVec.toNat_append]
  simp [Nat.mod_eq_of_lt h]
  omega

/-- A read transaction that the transport lets succeed: the word, and nothing changed but at most one draw made (20_memory.md
R67). -/
theorem memRead_spec (a : Nat) (s : State) (ha : a < 113) (ht : transportOk 1 s) :
    ∃ w t, memRead a s = .ok w t ∧ Looked [readTransaction a w] s t ∧
      (if a < 110 ∧ readbackOk s = true ∧ (regGet s.x a).isSome then regGet s.x a = some w ∧ t.draws = s.draws
       else w = Config.draw s.draws ∧ t.draws = s.draws + 1) := by
  obtain ⟨_, e⟩ | ⟨info, h, _⟩ := memRead_cases a s
  · refine ⟨_, _, e, ?_, ?_⟩
    · rw [readFrameBytes_busAddr a (by omega), wordBytes_eq]
      obtain h | h := deviceRead_state a s <;> rw [h] <;>
        exact ⟨⟨⟨rfl, rfl, rfl, rfl⟩, rfl, by simp, by simp⟩, rfl, ⟨rfl, rfl, rfl⟩⟩
    · unfold deviceRead
      by_cases h1 : 110 ≤ a
      · have : ¬ a < 110 := by omega
        simp [h1, this]
      · have h1' : a < 110 := by omega
        by_cases h2 : readbackOk s = true
        · cases h3 : regGet s.x a <;> simp [h1, h1', h2]
        · simp [h1, h2]
  · rw [nextAnswer_of_transportOk ht] at h; cases h

/-- The store of a word follows R37 (10_state.md R37, 20_memory.md R66). -/
theorem storeWord_consistentAfter (s : State) (a : Nat) (v : Word) : (s.storeWord a v).nConsistent = consistentAfter s a v := by
  unfold consistentAfter
  simp only [State.storeWord]
  by_cases h36 : a = 36
  · simp [h36]
  · by_cases h34 : a = 34
    · subst h34
      simp only [Nat.reduceEqDiff, if_false, if_true]
      cases regGet s.x 34 with
      | none => rfl
      | some old =>
        have hx : (old.extractLsb' 0 3 = v.extractLsb' 0 3) ↔ old.toNat % 8 = v.toNat % 8 := by
          rw [← BitVec.toNat_inj]; simp [BitVec.extractLsb'_toNat]
        by_cases hh : old.toNat % 8 = v.toNat % 8 <;> simp [hx, hh]
    · simp [h36, h34]

/-- A write transaction to a register other than R0 that the transport lets succeed and that breaks no requirement (20_memory.md
R66, 44_lifecycle.md R210). -/
theorem memWrite_spec (a : Nat) (v : Word) (s : State) (h0 : a ≠ 0) (ha : a < 110) (hz : fcalHazard a s = false)
    (ht : transportOk 1 s) :
    ∃ t, memWrite a v s = .ok () t ∧ Ran [writeTransaction a v] s t ∧ t.x = regSet s.x a v ∧ t.committed = s.committed ∧
      t.nConsistent = consistentAfter s a v ∧ t.life = lifeAfterPlainWrite s.life ∧ t.draws = s.draws := by
  obtain ⟨_, e⟩ | ⟨info, h, _⟩ := memWrite_cases a v s
  · obtain ⟨h1, _⟩ | ⟨_, h1, _⟩ | ⟨_, _, e2⟩ := deviceWrite_cases a v (s.logged ⟨writeFrameBytes (busAddr a) v, [], .ok⟩)
    · rw [fcalHazard_logged, hz] at h1; cases h1
    · exact absurd h1 h0
    · refine ⟨_, e.trans e2, ?_, rfl, rfl, ?_, ?_, rfl⟩
      · rw [writeFrameBytes_busAddr a v (by omega)]
        exact ⟨⟨rfl, rfl, rfl, rfl⟩, rfl, by simp, by simp⟩
      · exact storeWord_consistentAfter (s.logged _) a v
      · simp only [State.lifeUpdate_life, State.storeWord_life, State.logged_life]
        unfold lifeAfterWrite lifeAfterPlainWrite
        cases s.life <;> simp [h0]
  · rw [nextAnswer_of_transportOk ht] at h; cases h

theorem ran_logged (s : State) (t : Transaction) : Ran [t] s (s.logged t) := ⟨⟨rfl, rfl, rfl, rfl⟩, rfl, by simp, by simp⟩

/-- An update that keeps the controller but for the lifecycle, and the interface, issues no transaction. -/
theorem Ran.of_fields {l : List Transaction} {s t u : State} (h : Ran l s t) (h1 : u.fOscIn = t.fOscIn)
    (h2 : u.faults = t.faults) (h3 : u.cfg = t.cfg) (h4 : u.requests = t.requests) (h5 : u.trace = t.trace)
    (h6 : u.transport = t.transport) (h7 : u.txns = t.txns) : Ran l s u :=
  ⟨h.controller.trans ⟨h1, h2, h3, h4⟩, h5.trans h.trace, h6.trans h.transport, h7.trans h.txns⟩

/-! ## The write that raises a hazard fault -/

/-- What `maybeStored` leaves: the word stored, or nothing (60_exceptions.md R234; log 10). -/
theorem storedOrNot_maybeStored (a : Nat) (v : Word) (s : State) (ha : a < 110) : StoredOrNot a v s (s.maybeStored a v) := by
  obtain h | h := maybeStored_cases s a v <;> rw [h]
  · exact ⟨.inl ⟨regGet_set_same _ _ _ ha, storeWord_consistentAfter s.drawn a v⟩,
      fun b hb => regGet_set_other _ _ _ _ (by simpa using hb), rfl, rfl⟩
  · exact ⟨.inr ⟨rfl, rfl⟩, fun _ _ => rfl, rfl, rfl⟩

theorem Ran.maybeStored {l : List Transaction} {s t : State} (h : Ran l s t) (a : Nat) (v : Word) : Ran l s (t.maybeStored a v) := by
  obtain h' | h' := maybeStored_cases t a v <;> rw [h'] <;> exact h.of_fields rfl rfl rfl rfl rfl rfl rfl

/-- The outcome depends on the device and the lifecycle alone. -/
theorem storedOrNot_congr {a : Nat} {v : Word} {s s' t : State} (h : StoredOrNot a v s' t) (hx : s'.x = s.x)
    (hc : s'.committed = s.committed) (hn : s'.nConsistent = s.nConsistent) (hl : s'.life = s.life) : StoredOrNot a v s t := by
  have hk : consistentAfter s' a v = consistentAfter s a v := by unfold consistentAfter; rw [hx, hn]
  obtain ⟨h1, h2, h3, h4⟩ := h
  rw [hx, hk, hn] at h1
  exact ⟨h1, fun b hb => by rw [h2 b hb, hx], h3.trans hc, h4.trans hl⟩

/-- Reads before the write that raised a hazard fault do not change what it left. -/
theorem Looked.storedOrNot {a : Nat} {v : Word} {l : List Transaction} {s s₁ t : State} (hl : Looked l s s₁)
    (h : StoredOrNot a v s₁ t) : StoredOrNot a v s t :=
  storedOrNot_congr h hl.device.x hl.device.committed hl.device.nConsistent hl.life

/-- A write transaction that breaks the calibration-enable requirement (70_reset_and_hazards.md R271). -/
theorem memWrite_hazard (a : Nat) (v : Word) (s : State) (ha : a < 110) (hz : fcalHazard a s = true) (ht : transportOk 1 s) :
    ∃ t, memWrite a v s = .fault (.hazardFcal a) t ∧ Ran [writeTransaction a v] s t ∧ StoredOrNot a v s t := by
  refine ⟨(s.logged (writeTransaction a v)).maybeStored a v, ?_, (ran_logged s _).maybeStored a v,
    storedOrNot_congr (storedOrNot_maybeStored a v (s.logged (writeTransaction a v)) ha) rfl rfl rfl rfl⟩
  rw [memWrite, nextAnswer_of_transportOk ht]
  simp only
  rw [deviceWrite, fcalHazard_logged, hz, if_pos rfl, writeFrameBytes_busAddr a v (by omega)]
  rfl

theorem fcalHazard_of_set {a : Nat} {s : State} (hm : a ∈ rampRegs s.cfg) (hf : fcalClear s = false) : fcalHazard a s = true := by
  unfold fcalClear at hf
  unfold fcalHazard
  cases hg : regGet s.x 0 <;> simp_all

/-- Of all that decides what a later transaction does, a plain write changes only the register it writes. -/
theorem readbackOk_of_plainWrite {s t : State} (hx : regGet t.x 0 = regGet s.x 0) (hl : t.life = lifeAfterPlainWrite s.life) :
    readbackOk t = readbackOk s := by
  unfold readbackOk; rw [hx, hl]; cases s.life <;> rfl

theorem fcalHazard_congr {s t : State} (hx : regGet t.x 0 = regGet s.x 0) (hc : t.cfg = s.cfg) (a : Nat) :
    fcalHazard a t = fcalHazard a s := by
  unfold fcalHazard; rw [hx, hc]

theorem lifeAfterPlainWrite_idem (l : Lifecycle) : lifeAfterPlainWrite (lifeAfterPlainWrite l) = lifeAfterPlainWrite l := by
  cases l <;> rfl

/-- The hazard premise of the statements, as the check the device makes. -/
theorem fcalHazard_of_noFcalHazard {l : List Nat} {s : State} (h : noFcalHazard l s) {a : Nat} (ha : a ∈ l) :
    fcalHazard a s = false := by
  unfold fcalHazard
  by_cases hr : a ∈ rampRegs s.cfg
  · have := h a ha hr
    unfold fcalClear at this
    cases hg : regGet s.x 0 <;> simp_all
  · simp [hr]

/-- No ramp register is R0: a write of R0 is never checked against FCAL_EN (70_reset_and_hazards.md R271; log 5). -/
theorem zero_notMem_rampRegs (p : Params) (h : paramsOk p = true) : 0 ∉ rampRegs p := by
  simp only [paramsOk, locOk, List.all_cons, List.all_nil, id, Bool.and_eq_true, decide_eq_true_eq] at h
  unfold rampRegs rampFields
  cases hl : p.incLayout <;> simp [fieldParts, hl] <;> omega

theorem fcalHazard_zero (s : State) (h : paramsOk s.cfg = true) : fcalHazard 0 s = false := by
  simp [fcalHazard, zero_notMem_rampRegs _ h]

/-! ## From the body of a command to the command -/

/-- A command whose body ends with a value answers the state it leaves, with that value as its result. -/
theorem exec_of_ok {i : Instr} {s t : State} {v : Value} (hw : WellFormed i = true) (h : bodyOf i s.begin = .ok v t) :
    exec i s = .next { t with result := some (.ok v) } := by
  rw [exec_eq i s hw, h]; rfl

theorem exec_of_error {i : Instr} {s t : State} {e : BlockError} (hw : WellFormed i = true)
    (h : bodyOf i s.begin = .error e t) : exec i s = .next { t with result := some (.error e) } := by
  rw [exec_eq i s hw, h]; rfl

theorem exec_of_fault {i : Instr} {s t : State} {f : FaultRecord} (hw : WellFormed i = true)
    (h : bodyOf i s.begin = .fault f t) : exec i s = .next (t.takeFault f) := by
  rw [exec_eq i s hw, h]; rfl

/-- The controller after a command that ran the transactions `l`. -/
theorem Ran.controller_done {l : List Transaction} {s t : State} (h : Ran l s.begin t) (r : Option CommandResult) :
    SameController s { t with result := r } :=
  ⟨h.controller.fOscIn, h.controller.faults, h.controller.cfg, h.controller.requests⟩

theorem Ran.trace_done {l : List Transaction} {s t : State} (h : Ran l s.begin t) : t.trace = l := by
  simpa using h.trace

/-- The transport's answers after a command that ran the transactions `l`. -/
theorem Ran.used_done {l : List Transaction} {s t : State} (h : Ran l s.begin t) (r : Option CommandResult) :
    Used l.length s { t with result := r } :=
  ⟨congrArg List.length h.trace_done, h.transport, h.txns⟩

/-- The block after a command that only read. -/
theorem Looked.block_done {l : List Transaction} {s t : State} (h : Looked l s.begin t) (r : Option CommandResult) :
    SameBlock s { t with result := r } :=
  ⟨h.ran.controller_done r, h.life, ⟨h.device.x, h.device.committed, h.device.nConsistent⟩⟩

/-- A command whose body took a fault (60_exceptions.md R234). -/
theorem Ran.fault_done {l : List Transaction} {s t : State} (h : Ran l s.begin t) (f : FaultRecord) :
    FaultTaken f s (t.takeFault f) ∧ (t.takeFault f).trace = l ∧ Used l.length s (t.takeFault f) :=
  ⟨⟨rfl, by rw [State.takeFault_faults, h.controller.faults]; rfl, h.controller.fOscIn, h.controller.cfg, h.controller.requests⟩,
    h.trace_done, ⟨(h.used_done none).1, (h.used_done none).2, (h.used_done none).3⟩⟩

end Sys2Proof.Machine
end

