-- ==== Sys2Proof/Laws/Fields.lean ====
section
/-!
SUPPORT. What READ, WRITE, MODIFY, FIELD_READ and FIELD_WRITE leave when their checks pass and the transport lets every transaction
succeed, part by part and for whole fields.
-/
namespace Sys2Proof.Machine

open Sys2Proof.Safety

/-! ## Checks that pass -/

theorem checkAddr_ok {a : Nat} {s : State} (h : accessible s.cfg a) : checkAddr a s = .ok () s := by
  have h1 : ¬ 113 ≤ a := by omega
  simp [checkAddr, h1, h.2]

theorem checkWritable_ok {a : Nat} (s : State) (h : a < 110) : checkWritable a s = .ok () s := by
  have h1 : ¬ 110 ≤ a := by omega
  simp [checkWritable, h1]

theorem checkReadback_ok {c : LockedCommand} {s : State} (h : readbackOk s = true) : checkReadback c s = .ok () s := by
  simp [checkReadback, h]

theorem checkRange_ok {low high : Int} (s : State) (h : 0 ≤ low ∧ low ≤ high ∧ high ≤ 15) :
    checkRange low high s = .ok () s := by
  simp [checkRange, h]

theorem getBitsOp_ok {low high : Nat} (w : Word) (s : State) (h₁ : low ≤ high) (h₂ : high ≤ 15) :
    getBitsOp w low high s = .ok (w.toNat / 2 ^ low % 2 ^ (high - low + 1)) s := by
  rw [getBitsOp, checkRange_ok s (by omega)]
  simp [getBitsWord_eq w low high h₁ h₂, natBits]

theorem readRegister_ok {a : Nat} {s : State} (h : accessible s.cfg a) : readRegister a s = memRead a s := by
  rw [readRegister, checkAddr_ok h]; rfl

theorem writeRegister_ok {a : Nat} {s : State} (w : Word) (h : accessible s.cfg a) (ha : a < 110) :
    writeRegister a w s = memWrite a w s := by
  rw [writeRegister, checkAddr_ok h]; simp [checkWritable_ok s ha]

/-! ## MODIFY -/

/-- MODIFY whose checks pass and whose read succeeds is the write of the changed word (41_register_access.md R124). -/
theorem modifyRegister_read {a : Nat} {low high : Int} {d : Nat} {s : State} (h : accessible s.cfg a) (ha : a < 110)
    (hr : 0 ≤ low ∧ low ≤ high ∧ high ≤ 15) (hb : readbackOk s = true) (ht : transportOk 1 s) :
    ∃ old s₁, Looked [readTransaction a old] s s₁ ∧
      (match regGet s.x a with
       | some w => old = w ∧ s₁.draws = s.draws
       | none => old = Config.draw s.draws ∧ s₁.draws = s.draws + 1) ∧
      modifyRegister a low high d s = memWrite a (setBitsWord old low.toNat high.toNat d) s₁ := by
  obtain ⟨old, s₁, e, hl, hc⟩ := memRead_spec a s h.1 ht
  refine ⟨old, s₁, hl, ?_, ?_⟩
  · cases hg : regGet s.x a with
    | none => simpa [hg] using hc
    | some w =>
      simp [hg, ha, hb] at hc
      exact ⟨hc.1.symm, hc.2⟩
  · rw [modifyRegister, checkRange_ok s hr]
    simp [checkAddr_ok h, checkWritable_ok s ha, checkReadback_ok hb, e, setBitsOp, checkRange_ok s₁ hr]

/-- MODIFY of a register other than R0 that breaks no requirement. -/
theorem modifyRegister_spec {a : Nat} {low high : Int} {d : Nat} {s : State} (h0 : a ≠ 0) (h : accessible s.cfg a)
    (ha : a < 110) (hr : 0 ≤ low ∧ low ≤ high ∧ high ≤ 15) (hb : readbackOk s = true) (hz : fcalHazard a s = false)
    (ht : transportOk 2 s) :
    ∃ old t, modifyRegister a low high d s = .ok () t ∧
      (match regGet s.x a with
       | some w => old = w ∧ t.draws = s.draws
       | none => old = Config.draw s.draws ∧ t.draws = s.draws + 1) ∧
      Ran [readTransaction a old, writeTransaction a (setBitsWord old low.toNat high.toNat d)] s t ∧
      t.x = regSet s.x a (setBitsWord old low.toNat high.toNat d) ∧ t.committed = s.committed ∧
      t.nConsistent = consistentAfter s a (setBitsWord old low.toNat high.toNat d) ∧
      t.life = lifeAfterPlainWrite s.life := by
  obtain ⟨old, s₁, hl, hc, e⟩ := modifyRegister_read (d := d) h ha hr hb (transportOk_mono ht (by omega))
  obtain ⟨t, e₂, hran, hx, hco, hn, hli, hd⟩ := memWrite_spec a (setBitsWord old low.toNat high.toNat d) s₁ h0 ha
    (by rw [hl.fcalHazard]; exact hz) (hl.ran.transportOk ht (by simp))
  refine ⟨old, t, e.trans e₂, ?_, hl.ran.trans hran, by rw [hx, hl.device.x], hco.trans hl.device.committed, ?_, ?_⟩
  · cases hg : regGet s.x a <;> simp [hg] at hc ⊢ <;> exact ⟨hc.1, hd.trans hc.2⟩
  · rw [hn]; unfold consistentAfter; rw [hl.device.x, hl.device.nConsistent]
  · rw [hli, hl.life]

/-! ## Field layouts -/

/-- A part of a field lies in one read-write register. -/
abbrev PartOk (p : Part) : Prop := p.addr < 110 ∧ p.lo ≤ p.hi ∧ p.hi ≤ 15

/-- The facts of a checked configuration about the `LOC_*` parameters. -/
theorem paramsOk_locs (p : Params) (h : paramsOk p = true) :
    ((PartOk p.locRampManual ∧ 1 ≤ p.locRampManual.addr) ∧ (PartOk p.locRamp0Next ∧ 1 ≤ p.locRamp0Next.addr) ∧
     (PartOk p.locRamp0NextTrig ∧ 1 ≤ p.locRamp0NextTrig.addr) ∧ (PartOk p.locLdDly ∧ 1 ≤ p.locLdDly.addr) ∧
     (PartOk p.locRampTrigA ∧ 1 ≤ p.locRampTrigA.addr) ∧ (PartOk p.locRampTrigB ∧ 1 ≤ p.locRampTrigB.addr) ∧
     (PartOk p.locRampBurstTrig ∧ 1 ≤ p.locRampBurstTrig.addr) ∧
     (PartOk p.locQuickRecalEn ∧ 1 ≤ p.locQuickRecalEn.addr) ∧
     (PartOk p.locVcoCapctrlStrt ∧ 1 ≤ p.locVcoCapctrlStrt.addr) ∧
     (PartOk p.locRampThreshHdr ∧ 1 ≤ p.locRampThreshHdr.addr)) ∧
    (p.locRampThreshHdr.addr ≠ 79 ∧ p.locRampThreshHdr.addr ≠ 80) ∧ p.r0ResetWord[1] = true ∧
    regWf p.powerupContent = true ∧ regWf p.resetDefaults = true := by
  simp only [paramsOk, locOk, List.all_cons, List.all_nil, id, Bool.and_eq_true, decide_eq_true_eq] at h
  obtain ⟨h1, h2, h3, h4, h5, h6, h7, h8, h9, h10, h11, h12, h13, h14, h15, h16⟩ := h
  unfold PartOk
  exact ⟨⟨by omega, by omega, by omega, by omega, by omega, by omega, by omega, by omega, by omega, by omega⟩, h15, h3, h1, h2⟩

theorem fieldParts_ok (p : Params) (h : paramsOk p = true) (f : FieldId) : ∀ q ∈ fieldParts p f, PartOk q := by
  obtain ⟨⟨a, b, c, d, e, f', g, i, j, k⟩, _⟩ := paramsOk_locs p h
  cases f <;> (try cases hl : p.incLayout) <;> simp [fieldParts, *] <;> grind

theorem fieldParts_nodup (p : Params) (h : paramsOk p = true) (f : FieldId) :
    ((fieldParts p f).map Part.addr).Nodup := by
  obtain ⟨_, h79, _⟩ := paramsOk_locs p h
  cases f <;> (try cases hl : p.incLayout) <;> simp [fieldParts, *]

/-- Every field has a part. -/
theorem fieldParts_ne_nil (p : Params) (f : FieldId) : fieldParts p f ≠ [] := by
  cases f <;> (try cases hl : p.incLayout) <;> simp [fieldParts, *]

/-- A field of more than one part has none in R0: whatever a part has after it lies elsewhere. -/
theorem fieldParts_before_notR0 (p : Params) (h : paramsOk p = true) (f : FieldId) {before after : List Part} {q : Part}
    (hf : fieldParts p f = before ++ q :: after) : ∀ r ∈ before, r.addr ≠ 0 := by
  obtain ⟨⟨a, b, c, d, e, f', g, i, j, k⟩, _⟩ := paramsOk_locs p h
  intro r hr
  have hm : r ∈ fieldParts p f := by rw [hf]; simp [hr]
  have hlen : (fieldParts p f).length ≠ 1 := by
    have := List.length_pos_of_mem hr
    rw [hf]; simp; omega
  clear hf hr
  cases f <;> (try cases hl : p.incLayout) <;> simp [fieldParts, hl] at hm hlen <;> grind

/-- Of the parts of a field before another one, at most one lies in R34 or R36, the registers of PLL_N. -/
theorem fieldParts_before_unique (p : Params) (f : FieldId) {before after : List Part} {q : Part}
    (hf : fieldParts p f = before ++ q :: after) {r u : Part} (hr : r ∈ before) (hu : u ∈ before)
    (hr' : r.addr = 34 ∨ r.addr = 36) (hu' : u.addr = 34 ∨ u.addr = 36) : u = r := by
  match before with
  | [] => simp at hr
  | [x] => simp at hr hu; rw [hr, hu]
  | x :: y :: zs =>
    have hlen : 3 ≤ (fieldParts p f).length := by rw [hf]; simp; omega
    have hr : r ∈ fieldParts p f := hf ▸ List.mem_append_left _ hr
    have hu : u ∈ fieldParts p f := hf ▸ List.mem_append_left _ hu
    clear hf
    cases f <;> (try cases hl : p.incLayout) <;> simp [fieldParts, hl] at hr hu hlen <;> grind

theorem partsWidth_append (ps qs : List Part) : partsWidth (ps ++ qs) = partsWidth ps + partsWidth qs := by
  induction ps with
  | nil => simp [partsWidth]
  | cons p ps ih => simp [partsWidth, ih, Nat.add_assoc]

/-- FIELD_READ of a part list is the read of its first parts, then of the others (41_register_access.md R127). -/
theorem readParts_append (ps qs : List Part) (acc : Nat) (s : State) :
    readParts (ps ++ qs) acc s = (readParts ps acc s).andThen fun v s₁ => readParts qs v s₁ := by
  induction ps generalizing acc s with
  | nil => rfl
  | cons p ps ih => simp only [List.cons_append, readParts, andThen_assoc, ih]

/-- FIELD_WRITE of a part list is the write of its first parts, with the value's high bits, then of the others
(41_register_access.md R128, 30_encoding.md R93). -/
theorem writeParts_append (ps qs : List Part) (v : Nat) (s : State) :
    writeParts (ps ++ qs) v s = (writeParts ps (v / 2 ^ partsWidth qs) s).andThen fun _ s₁ => writeParts qs v s₁ := by
  induction ps generalizing s with
  | nil => rfl
  | cons p ps ih =>
    have : partOfValue v p (ps ++ qs) = partOfValue (v / 2 ^ partsWidth qs) p ps := by
      unfold partOfValue natBits
      rw [partsWidth_append, Nat.div_div_eq_div_mul, ← Nat.pow_add, Nat.add_comm (partsWidth ps)]
      simp only [Nat.add_sub_cancel_left]
    simp only [List.cons_append, writeParts, andThen_assoc, this, ih]

/-! ## FIELD_READ -/

/-- The byte a read of each part sends. -/
abbrev partReads (ps : List Part) : List (List Byte) := ps.map fun p => [BitVec.ofNat 8 (128 + p.addr)]

/-- The parts of FIELD_READ whose addresses pass the checks (41_register_access.md R127). -/
theorem readParts_spec (ps : List Part) (acc : Nat) (s : State) (hp : ∀ p ∈ ps, PartOk p ∧ accessible s.cfg p.addr)
    (ht : transportOk ps.length s) :
    ∃ v t l, readParts ps acc s = .ok (acc * 2 ^ partsWidth ps + v) t ∧ v < 2 ^ partsWidth ps ∧ Looked l s t ∧
      l.map Transaction.sent = partReads ps ∧
      (readbackOk s = true → ∀ u, partsValue s.x ps = some u → v = u ∧ t.draws = s.draws) := by
  induction ps generalizing acc s with
  | nil => exact ⟨0, s, [], by simp [readParts, partsWidth], by simp [partsWidth], .refl s, rfl, by simp [partsValue]⟩
  | cons p ps ih =>
    obtain ⟨⟨ha, h1, h2⟩, hacc⟩ := hp p (by simp)
    obtain ⟨w, s₁, e, hl, hc⟩ := memRead_spec p.addr s hacc.1 (transportOk_mono ht (by simp))
    obtain ⟨v, t, l, e₂, hv, hl₂, hs, hk⟩ := ih (acc * 2 ^ partWidth p + w.toNat / 2 ^ p.lo % 2 ^ (p.hi - p.lo + 1)) s₁
      (fun q hq => by rw [hl.ran.controller.cfg]; exact hp q (by simp [hq])) (hl.ran.transportOk ht (by simp))
    refine ⟨w.toNat / 2 ^ p.lo % 2 ^ partWidth p * 2 ^ partsWidth ps + v, t, _, ?_, ?_, hl.trans hl₂, ?_, ?_⟩
    · rw [readParts, readRegister_ok hacc, e]
      simp only [andThen_ok, getBitsOp_ok w s₁ h1 h2, e₂]
      congr 1
      simp only [partsWidth, Nat.pow_add, partWidth]
      ring
    · have : w.toNat / 2 ^ p.lo % 2 ^ partWidth p < 2 ^ partWidth p := Nat.mod_lt _ (Nat.two_pow_pos _)
      simp only [partsWidth, Nat.pow_add]
      nlinarith
    · simp [hs, readTransaction]
    · intro hr u hu
      unfold partsValue at hu
      cases hg : regGet s.x p.addr with
      | none => simp [hg] at hu
      | some w' =>
        cases hpv : partsValue s.x ps with
        | none => simp [hg, hpv] at hu
        | some u' =>
          simp [hg, hpv] at hu
          simp [hg, ha, hr] at hc
          have := hk (by rw [hl.readbackOk]; exact hr) u' (by rw [hl.device.x]; exact hpv)
          rw [← hc.1, this.1]
          exact ⟨hu, this.2.trans hc.2⟩

/-- FIELD_READ of an accessible field (41_register_access.md R127). -/
theorem readField_spec (f : FieldId) (s : State) (hp : paramsOk s.cfg = true) (ha : fieldAccessible s.cfg f)
    (ht : transportOk (fieldParts s.cfg f).length s) :
    ∃ v t l, readField f s = .ok v t ∧ v < 2 ^ fieldWidth s.cfg f ∧ Looked l s t ∧
      l.map Transaction.sent = partReads (fieldParts s.cfg f) ∧ l.length = (fieldParts s.cfg f).length ∧
      (readbackOk s = true → ∀ u, fieldValue s f = some u → v = u ∧ t.draws = s.draws) := by
  obtain ⟨v, t, l, e, hv, hl, hs, hk⟩ := readParts_spec (fieldParts s.cfg f) 0 s
    (fun q hq => ⟨fieldParts_ok _ hp f q hq, ha q hq⟩) ht
  refine ⟨v, t, l, by simpa [readField] using e, hv, hl, hs, ?_, hk⟩
  simpa using congrArg List.length hs

/-! ## FIELD_WRITE -/

/-- What the write of one part does, with no requirement broken (41_register_access.md R128). -/
theorem writePart_spec (p : Part) (d : Nat) (s : State) (h0 : p.addr ≠ 0) (hp : PartOk p) (ha : accessible s.cfg p.addr)
    (hb : partFull p = true ∨ readbackOk s = true) (hz : fcalHazard p.addr s = false) (hd : d < 2 ^ partWidth p)
    (ht : transportOk (partWrites p) s) :
    ∃ w t l, (if partFull p then writeRegister p.addr (BitVec.ofNat 16 d) s else modifyRegister p.addr p.lo p.hi d s) =
        .ok () t ∧ Ran l s t ∧ l.length = partWrites p ∧ t.x = regSet s.x p.addr w ∧
      w.toNat / 2 ^ p.lo % 2 ^ partWidth p = d ∧
      (∀ old, regGet s.x p.addr = some old → ∀ i, i < p.lo ∨ p.hi < i → w.getLsbD i = old.getLsbD i) ∧
      t.committed = s.committed ∧ t.nConsistent = consistentAfter s p.addr w ∧ t.life = lifeAfterPlainWrite s.life := by
  obtain ⟨hlt, h1, h2⟩ := hp
  by_cases hf : partFull p = true
  · obtain ⟨t, e, hr, hx, hc, hn, hl, _⟩ := memWrite_spec p.addr (BitVec.ofNat 16 d) s h0 hlt hz (transportOk_mono ht (by unfold partWrites; simp [hf]))
    have hlo : p.lo = 0 ∧ p.hi = 15 := by simp [partFull] at hf; omega
    refine ⟨_, t, _, ?_, hr, by simp [hf], hx, ?_, ?_, hc, hn, hl⟩
    · simp [hf, writeRegister_ok _ ha hlt, e]
    · simp [partWidth, hlo] at hd ⊢; omega
    · intro old _ i hi
      have : 16 ≤ i := by omega
      rw [BitVec.getLsbD_of_ge _ _ this, BitVec.getLsbD_of_ge _ _ this]
  · simp only [Bool.not_eq_true] at hf
    obtain ⟨old, t, e, hc, hr, hx, hco, hn, hl⟩ := modifyRegister_spec (low := p.lo) (high := p.hi) (d := d) h0 ha hlt
      (by omega) (by simpa [hf] using hb) hz (transportOk_mono ht (by unfold partWrites; simp [hf]))
    refine ⟨_, t, _, ?_, hr, by simp [hf], hx, ?_, ?_, hco, hn, hl⟩
    · simp [hf, e]
    · have hg := getBitsWord_setBitsWord old p.lo p.hi d h1 h2
      rw [getBitsWord_eq _ _ _ h1 h2] at hg
      simp only [natBits] at hg
      simpa [partWidth, Nat.mod_eq_of_lt hd] using hg.trans (Nat.mod_eq_of_lt hd)
    · intro w hw i hi
      have ho : old = w := by simp [hw] at hc; exact hc.1
      simp only [Int.toNat_natCast]
      rw [setBitsWord_getLsbD _ _ _ _ _ h1 h2, ho]
      have : ¬ (p.lo ≤ i ∧ i ≤ p.hi) := by omega
      simp [this]

/-- Two register files that agree on the parts' registers give the parts the same value. -/
theorem partsValue_congr {x y : RegFile} (ps : List Part) (h : ∀ p ∈ ps, regGet x p.addr = regGet y p.addr) :
    partsValue x ps = partsValue y ps := by
  induction ps with
  | nil => rfl
  | cons p ps ih =>
    unfold partsValue
    rw [h p (by simp), ih fun q hq => h q (by simp [hq])]

/-- What the write of a list of parts does, with no requirement broken (41_register_access.md R128, 30_encoding.md R93). -/
theorem writeParts_spec (ps : List Part) (v : Nat) (s : State)
    (hp : ∀ p ∈ ps, p.addr ≠ 0 ∧ PartOk p ∧ accessible s.cfg p.addr ∧ fcalHazard p.addr s = false)
    (hn : (ps.map Part.addr).Nodup) (hb : ps.all partFull = true ∨ readbackOk s = true)
    (ht : transportOk (ps.map partWrites).sum s) :
    ∃ t l, writeParts ps v s = .ok () t ∧ Ran l s t ∧ l.length = (ps.map partWrites).sum ∧
      partsValue t.x ps = some (v % 2 ^ partsWidth ps) ∧ OthersKept (ps.map Part.addr) s t ∧
      (∀ p ∈ ps, ∀ old, regGet s.x p.addr = some old →
        ∃ w, regGet t.x p.addr = some w ∧ ∀ i, i < p.lo ∨ p.hi < i → w.getLsbD i = old.getLsbD i) ∧
      t.committed = s.committed ∧
      ((∀ p ∈ ps, p.addr ≠ 34 ∧ p.addr ≠ 36) → t.nConsistent = s.nConsistent) ∧
      (∀ p, ps.getLast? = some p → p.addr = 36 → t.nConsistent = true) ∧
      t.life = (if ps = [] then s.life else lifeAfterPlainWrite s.life) ∧
      (∀ q ∈ ps, (∀ r ∈ ps, r ≠ q → r.addr ≠ 34 ∧ r.addr ≠ 36) →
        ∀ w, regGet t.x q.addr = some w → t.nConsistent = consistentAfter s q.addr w) := by
  induction ps generalizing s with
  | nil => exact ⟨s, [], rfl, .refl s, rfl, by simp [partsValue, partsWidth, Nat.mod_one],
    fun _ _ => rfl, by simp, rfl, by simp, by simp, by simp, by simp⟩
  | cons p ps ih =>
    obtain ⟨h0, hok, hacc, hz⟩ := hp p (by simp)
    simp only [List.map_cons, List.nodup_cons] at hn
    obtain ⟨w, s₁, l₁, e₁, hr₁, hlen₁, hx₁, hw, hout, hc₁, hn₁, hl₁⟩ := writePart_spec p (partOfValue v p ps) s h0 hok hacc
      (by rcases hb with hb | hb
          · simp at hb; exact .inl hb.1
          · exact .inr hb) hz
      (by unfold partOfValue natBits partWidth
          rw [Nat.add_sub_cancel_left]; exact Nat.mod_lt _ (Nat.two_pow_pos _)) (transportOk_mono ht (by simp))
    have hg : ∀ b, regGet s₁.x b = if b = p.addr then some w else regGet s.x b := fun b => by
      rw [hx₁, regGet_set _ _ _ _ hok.1]
    have hg0 : regGet s₁.x 0 = regGet s.x 0 := by rw [hg]; simp [Ne.symm h0]
    obtain ⟨t, l, e, hr, hlen, hv, ho, hob, hc, hns, hnl, hl, hone⟩ := ih s₁
      (fun q hq => by
        have := hp q (by simp [hq])
        rw [hr₁.controller.cfg, fcalHazard_congr hg0 hr₁.controller.cfg]; exact this)
      hn.2
      (by rcases hb with hb | hb
          · simp at hb; exact .inl (by simpa using hb.2)
          · exact .inr (by rw [readbackOk_of_plainWrite hg0 hl₁]; exact hb))
      (hr₁.transportOk ht (by rw [hlen₁]; simp; omega))
    have hkeep : regGet t.x p.addr = some w := by rw [ho _ hn.1, hg]; simp
    refine ⟨t, l₁ ++ l, ?_, hr₁.trans hr, by simp [hlen₁, hlen], ?_, ?_, ?_, hc.trans hc₁, ?_, ?_, ?_, ?_⟩
    · rw [writeParts, e₁]; exact e
    · unfold partsValue
      rw [hkeep, hv]
      simp only [hw]
      simp only [partOfValue, natBits, partsWidth, Nat.add_sub_cancel_left]
      rw [Nat.add_comm (partWidth p), Nat.pow_add 2 (partsWidth ps), Nat.mod_mul (a := 2 ^ partsWidth ps) (b := 2 ^ partWidth p) (x := v),
        Nat.add_comm, Nat.mul_comm]
      rfl
    · intro b hb'
      simp only [List.map_cons, List.mem_cons, not_or] at hb'
      rw [ho b hb'.2, hg]; simp [hb'.1]
    · intro q hq old hold
      rcases List.mem_cons.1 hq with rfl | hq
      · exact ⟨w, hkeep, hout old hold⟩
      · refine hob q hq old ?_
        rw [hg]
        have : q.addr ≠ p.addr := fun h => hn.1 (h ▸ List.mem_map_of_mem hq)
        simp [this, hold]
    · intro h
      rw [hns fun q hq => h q (by simp [hq]), hn₁]
      have := h p (by simp)
      simp [consistentAfter, this.1, this.2]
    · intro q hq h36
      cases ps with
      | nil =>
        simp at hq; subst hq
        have ht' : t = s₁ := by simpa [writeParts] using e.symm
        rw [ht', hn₁]
        simp [consistentAfter, h36]
      | cons r rs =>
        exact hnl q (by simpa [List.getLast?_cons_cons] using hq) h36
    · rw [hl, hl₁]
      split <;> simp [lifeAfterPlainWrite_idem]
    · intro q hq hothers u hu
      rcases List.mem_cons.1 hq with rfl | hq
      · rw [hkeep] at hu
        cases hu
        exact (hns fun r hr => hothers r (by simp [hr]) fun h => hn.1 (h ▸ List.mem_map_of_mem hr)).trans hn₁
      · have hpq : p.addr ≠ q.addr := fun h => hn.1 (h ▸ List.mem_map_of_mem hq)
        have hp34 := hothers p (by simp) fun h => hpq (h ▸ rfl)
        rw [hone q hq (fun r hr => hothers r (by simp [hr])) u hu]
        unfold consistentAfter at hn₁ ⊢
        rw [hn₁, hg 34]
        simp [hp34.1, hp34.2, Ne.symm hp34.1]

/-- FIELD_WRITE of an accessible field outside R0 (41_register_access.md R128). -/
theorem writeField_spec (f : FieldId) (v : Int) (s : State) (hp : paramsOk s.cfg = true) (ha : fieldAccessible s.cfg f)
    (h0 : notInR0 s.cfg f) (h1 : 0 ≤ v) (h2 : v < 2 ^ fieldWidth s.cfg f)
    (hb : (fieldParts s.cfg f).all partFull = true ∨ readbackOk s = true)
    (hz : ∀ p ∈ fieldParts s.cfg f, fcalHazard p.addr s = false)
    (ht : transportOk ((fieldParts s.cfg f).map partWrites).sum s) :
    ∃ t l, writeField f v s = .ok () t ∧ Ran l s t ∧ l.length = ((fieldParts s.cfg f).map partWrites).sum ∧
      fieldValue t f = some v.toNat ∧ OthersKept ((fieldParts s.cfg f).map Part.addr) s t ∧
      (∀ p ∈ fieldParts s.cfg f, ∀ old, regGet s.x p.addr = some old →
        ∃ w, regGet t.x p.addr = some w ∧ ∀ i, i < p.lo ∨ p.hi < i → w.getLsbD i = old.getLsbD i) ∧
      t.committed = s.committed ∧
      ((∀ p ∈ fieldParts s.cfg f, p.addr ≠ 34 ∧ p.addr ≠ 36) → t.nConsistent = s.nConsistent) ∧
      (f = .PLL_N → t.nConsistent = true) ∧ t.life = lifeAfterPlainWrite s.life := by
  obtain ⟨t, l, e, hr, hlen, hv, ho, hob, hc, hns, hnl, hl, _⟩ := writeParts_spec (fieldParts s.cfg f) v.toNat s
    (fun p hq => ⟨h0 p hq, fieldParts_ok _ hp f p hq, ha p hq, hz p hq⟩) (fieldParts_nodup _ hp f) hb ht
  refine ⟨t, l, ?_, hr, hlen, ?_, ho, hob, hc, hns, ?_, ?_⟩
  · have hw : (0 ≤ v ∧ v < 2 ^ fieldWidth s.cfg f) := ⟨h1, h2⟩
    have hg : (!(fieldParts s.cfg f).all partFull && !readbackOk s) = false := by
      rcases hb with hb | hb <;> simp [hb]
    rw [writeField]
    simp only [hw, and_self, decide_true, requireParam_true, andThen_ok, hg, faultIf_false]
    exact e
  · unfold fieldValue
    rw [hr.controller.cfg, hv]
    have : v.toNat < 2 ^ partsWidth (fieldParts s.cfg f) := by
      unfold fieldWidth at h2
      zify; omega
    rw [Nat.mod_eq_of_lt this]
  · intro h
    subst h
    exact hnl ⟨36, 15, 0⟩ (by simp [fieldParts]) rfl
  · rw [hl, if_neg (fieldParts_ne_nil _ f)]

end Sys2Proof.Machine
end

