-- ==== Sys2Proof/Laws/Frequency.lean ====
section
/-!
SUPPORT. The reads of the frequency model, in any state and with readback reliable and the frequency plan known.
-/
namespace Sys2Proof.Machine

open Sys2Proof.Safety

/-- FIELD_READ of a field whose parts are at accessible read-write addresses, in any state (41_register_access.md R127): some value
of the field's width, and the field's value where readback is reliable and every part known. -/
theorem readField_any (f : FieldId) (s : State) (hp : ∀ q ∈ fieldParts s.cfg f, PartOk q) (ha : fieldAccessible s.cfg f)
    (ht : transportOk (fieldParts s.cfg f).length s) :
    ∃ v t l, readField f s = .ok v t ∧ Looked l s t ∧ l.map Transaction.sent = partReads (fieldParts s.cfg f) ∧
      v < 2 ^ fieldWidth s.cfg f ∧ (readbackOk s = true → ∀ u, fieldValue s f = some u → v = u) := by
  obtain ⟨v, t, l, e, hv, hl, hs, hk⟩ := readParts_spec (fieldParts s.cfg f) 0 s (fun q hq => ⟨hp q hq, ha q hq⟩) ht
  exact ⟨v, t, l, by simpa [readField] using e, hl, hs, hv, fun hr u hu => (hk hr u hu).1⟩

/-- What four values read for the plan of `f_pd` are (42_frequency_model.md R151). -/
structure FpdRead (s : State) (osc2x rpre mult r : Nat) : Prop where
  osc2x_lt : osc2x < 2
  rpre_lt : rpre < 4096
  mult_lt : mult < 32
  r_lt : r < 256
  osc2x : readbackOk s = true → ∀ u, fieldValue s .OSC_2X = some u → osc2x = u
  rpre : readbackOk s = true → ∀ u, fieldValue s .PLL_R_PRE = some u → rpre = u
  mult : readbackOk s = true → ∀ u, fieldValue s .MULT = some u → mult = u
  r : readbackOk s = true → ∀ u, fieldValue s .PLL_R = some u → r = u

/-- The four reads and the two checks of `compute_fpd`, in any state (42_frequency_model.md R151). -/
theorem computeFpd_spec {s : State} (hacc : ∀ a ∈ [9, 12, 10, 11], accessible s.cfg a) (ht : transportOk 4 s) :
    ∃ osc2x rpre mult r t l, FpdRead s osc2x rpre mult r ∧ Looked l s t ∧
      l.map Transaction.sent = [[0x89], [0x8C], [0x8A], [0x8B]] ∧
      computeFpd s = (faultIf (decide (rpre = 0)) (.div0 .PLL_R_PRE) t).andThen fun _ s₅ =>
        (faultIf (decide (r = 0)) (.div0 .PLL_R) s₅).andThen fun _ s₆ => .ok (fpdOf s.fOscIn osc2x rpre mult r) s₆ := by
  obtain ⟨osc2x, s₁, l₁, e₁, h₁, q₁, w₁, k₁⟩ := readField_any .OSC_2X s (by simp [fieldParts, PartOk])
    (by simpa [fieldAccessible, fieldParts] using hacc 9 (by simp)) (transportOk_mono ht (by simp [fieldParts]))
  obtain ⟨rpre, s₂, l₂, e₂, h₂, q₂, w₂, k₂⟩ := readField_any .PLL_R_PRE s₁ (by simp [fieldParts, PartOk])
    (by rw [h₁.ran.controller.cfg]; simpa [fieldAccessible, fieldParts] using hacc 12 (by simp))
    (h₁.ran.transportOk ht (by have := congrArg List.length q₁; simp [fieldParts] at this ⊢; omega))
  have h₁₂ := h₁.trans h₂
  obtain ⟨mult, s₃, l₃, e₃, h₃, q₃, w₃, k₃⟩ := readField_any .MULT s₂ (by simp [fieldParts, PartOk])
    (by rw [h₁₂.ran.controller.cfg]; simpa [fieldAccessible, fieldParts] using hacc 10 (by simp))
    (h₁₂.ran.transportOk ht (by
      have := congrArg List.length q₁; have := congrArg List.length q₂; simp [fieldParts] at *; omega))
  have h₁₃ := h₁₂.trans h₃
  obtain ⟨r, s₄, l₄, e₄, h₄, q₄, w₄, k₄⟩ := readField_any .PLL_R s₃ (by simp [fieldParts, PartOk])
    (by rw [h₁₃.ran.controller.cfg]; simpa [fieldAccessible, fieldParts] using hacc 11 (by simp))
    (h₁₃.ran.transportOk ht (by
      have := congrArg List.length q₁; have := congrArg List.length q₂; have := congrArg List.length q₃
      simp [fieldParts] at *; omega))
  have h₁₄ := h₁₃.trans h₄
  rw [h₁.readbackOk, h₁.fieldValue] at k₂
  rw [h₁₂.readbackOk, h₁₂.fieldValue] at k₃
  rw [h₁₃.readbackOk, h₁₃.fieldValue] at k₄
  refine ⟨osc2x, rpre, mult, r, s₄, _, ⟨w₁, w₂, w₃, w₄, k₁, k₂, k₃, k₄⟩, h₁₄, ?_, ?_⟩
  · simp [q₁, q₂, q₃, q₄, fieldParts]
  · rw [computeFpd, e₁, andThen_ok, e₂, andThen_ok, e₃, andThen_ok, e₄, andThen_ok, ← h₁₄.ran.controller.fOscIn]
    by_cases a : rpre = 0 <;> by_cases b : r = 0 <;> simp [a, b]

/-- What the frequency plan holds (42_frequency_model.md R151, R152). -/
structure FpdKnown (s : State) (osc2x rpre mult r : Nat) : Prop where
  readback : readbackOk s = true
  access : ∀ a ∈ [9, 12, 10, 11], accessible s.cfg a
  osc2x : fieldValue s .OSC_2X = some osc2x
  rpre : fieldValue s .PLL_R_PRE = some rpre
  mult : fieldValue s .MULT = some mult
  r : fieldValue s .PLL_R = some r

/-- The four reads and the two checks of `compute_fpd` on a known plan (42_frequency_model.md R151). -/
theorem computeFpd_known {s : State} {osc2x rpre mult r : Nat} (h : FpdKnown s osc2x rpre mult r) (ht : transportOk 4 s) :
    ∃ t l, Looked l s t ∧ l.map Transaction.sent = [[0x89], [0x8C], [0x8A], [0x8B]] ∧
      computeFpd s = (faultIf (decide (rpre = 0)) (.div0 .PLL_R_PRE) t).andThen fun _ s₅ =>
        (faultIf (decide (r = 0)) (.div0 .PLL_R) s₅).andThen fun _ s₆ => .ok (fpdOf s.fOscIn osc2x rpre mult r) s₆ := by
  obtain ⟨o, p, m, q, t, l, k, hl, hs, e⟩ := computeFpd_spec h.access ht
  cases k.osc2x h.readback _ h.osc2x
  cases k.rpre h.readback _ h.rpre
  cases k.mult h.readback _ h.mult
  cases k.r h.readback _ h.r
  exact ⟨t, l, hl, hs, e⟩

/-- What three values read for the divider are (42_frequency_model.md R152). -/
structure FvcoRead (s : State) (n num den : Nat) : Prop where
  n_lt : n < 2 ^ 19
  num_lt : num < 2 ^ 32
  den_lt : den < 2 ^ 32
  n : readbackOk s = true → ∀ u, fieldValue s .PLL_N = some u → n = u
  num : readbackOk s = true → ∀ u, fieldValue s .PLL_NUM = some u → num = u
  den : readbackOk s = true → ∀ u, fieldValue s .PLL_DEN = some u → den = u

/-- The six reads and the check of `fvco_from`, in any state (42_frequency_model.md R152). -/
theorem fvcoFrom_spec {s : State} (fpd : Rat) (hacc : ∀ a ∈ [34, 36, 42, 43, 38, 39], accessible s.cfg a)
    (ht : transportOk 6 s) :
    ∃ n num den t l, FvcoRead s n num den ∧ Looked l s t ∧
      l.map Transaction.sent = [[0xA2], [0xA4], [0xAA], [0xAB], [0xA6], [0xA7]] ∧
      fvcoFrom fpd s = (faultIf (decide (den = 0)) (.div0 .PLL_DEN) t).andThen fun _ s₄ =>
        .ok (fvcoOf fpd n num den) s₄ := by
  obtain ⟨n, s₁, l₁, e₁, h₁, q₁, w₁, k₁⟩ := readField_any .PLL_N s (by simp [fieldParts, PartOk])
    (by simpa [fieldAccessible, fieldParts] using ⟨hacc 34 (by simp), hacc 36 (by simp)⟩)
    (transportOk_mono ht (by simp [fieldParts]))
  obtain ⟨num, s₂, l₂, e₂, h₂, q₂, w₂, k₂⟩ := readField_any .PLL_NUM s₁ (by simp [fieldParts, PartOk])
    (by rw [h₁.ran.controller.cfg]
        simpa [fieldAccessible, fieldParts] using ⟨hacc 42 (by simp), hacc 43 (by simp)⟩)
    (h₁.ran.transportOk ht (by have := congrArg List.length q₁; simp [fieldParts] at this ⊢; omega))
  have h₁₂ := h₁.trans h₂
  obtain ⟨den, s₃, l₃, e₃, h₃, q₃, w₃, k₃⟩ := readField_any .PLL_DEN s₂ (by simp [fieldParts, PartOk])
    (by rw [h₁₂.ran.controller.cfg]
        simpa [fieldAccessible, fieldParts] using ⟨hacc 38 (by simp), hacc 39 (by simp)⟩)
    (h₁₂.ran.transportOk ht (by
      have := congrArg List.length q₁; have := congrArg List.length q₂; simp [fieldParts] at *; omega))
  rw [h₁.readbackOk, h₁.fieldValue] at k₂
  rw [h₁₂.readbackOk, h₁₂.fieldValue] at k₃
  refine ⟨n, num, den, s₃, _, ⟨w₁, w₂, w₃, k₁, k₂, k₃⟩, h₁₂.trans h₃, ?_, ?_⟩
  · simp [q₁, q₂, q₃, fieldParts]
  · rw [fvcoFrom, e₁, andThen_ok, e₂, andThen_ok, e₃, andThen_ok]

/-- What the divider fields hold (42_frequency_model.md R152). -/
structure FvcoKnown (s : State) (n num den : Nat) : Prop where
  readback : readbackOk s = true
  access : ∀ a ∈ [34, 36, 42, 43, 38, 39], accessible s.cfg a
  n : fieldValue s .PLL_N = some n
  num : fieldValue s .PLL_NUM = some num
  den : fieldValue s .PLL_DEN = some den

/-- The six reads and the check of `fvco_from` on a known divider (42_frequency_model.md R152). -/
theorem fvcoFrom_known {s : State} {n num den : Nat} (fpd : Rat) (h : FvcoKnown s n num den) (ht : transportOk 6 s) :
    ∃ t l, Looked l s t ∧ l.map Transaction.sent = [[0xA2], [0xA4], [0xAA], [0xAB], [0xA6], [0xA7]] ∧
      fvcoFrom fpd s = (faultIf (decide (den = 0)) (.div0 .PLL_DEN) t).andThen fun _ s₄ =>
        .ok (fvcoOf fpd n num den) s₄ := by
  obtain ⟨a, b, c, t, l, k, hl, hs, e⟩ := fvcoFrom_spec fpd h.access ht
  cases k.n h.readback _ h.n
  cases k.num h.readback _ h.num
  cases k.den h.readback _ h.den
  exact ⟨t, l, hl, hs, e⟩

theorem Looked.fvcoKnown {l : List Transaction} {s t : State} {n num den : Nat} (hl : Looked l s t)
    (h : FvcoKnown s n num den) : FvcoKnown t n num den :=
  ⟨by rw [hl.readbackOk]; exact h.readback, by rw [hl.ran.controller.cfg]; exact h.access,
    by rw [hl.fieldValue]; exact h.n, by rw [hl.fieldValue]; exact h.num, by rw [hl.fieldValue]; exact h.den⟩

end Sys2Proof.Machine
end

