-- ==== Sys2Proof/Laws/PerInstr.lean ====
section
/-!
SUPPORT. One lemma per instruction about its encoding: a command carries an opcode of 30_encoding.md R85 with that command's number
of operand codes, a frame its direction bit, its address and its number of bytes (R80 to R82).
-/
namespace Sys2Proof.Laws

/-- The shape of an instruction's encoding. -/
def EncodingShape.Statement (i : Instr) : Prop :=
  match encode i with
  | .command op codes => 1 ≤ op.toNat ∧ op.toNat ≤ 0x11 ∧ codes.length = operandCount op
  | .frame [b] => b.msb = true ∧ ∃ a, i = .readFrame a ∧ frameAddr b = a
  | .frame [b, hi, lo] => b.msb = false ∧ ∃ a w, i = .writeFrame a w ∧ frameAddr b = a ∧ wordOfBytes hi lo = w
  | .frame _ => False

namespace EncodingShape

theorem setBits (word : Word) (low high : Int) (data : Nat) : Statement (.setBits word low high data) :=
  ⟨by decide, by decide, rfl⟩
theorem getBits (word : Word) (low high : Int) : Statement (.getBits word low high) := ⟨by decide, by decide, rfl⟩
theorem read (addr : Nat) : Statement (.read addr) := ⟨by decide, by decide, rfl⟩
theorem write (addr : Nat) (word : Word) : Statement (.write addr word) := ⟨by decide, by decide, rfl⟩
theorem modify (addr : Nat) (low high : Int) (data : Nat) : Statement (.modify addr low high data) :=
  ⟨by decide, by decide, rfl⟩
theorem fieldRead (field : FieldId) : Statement (.fieldRead field) := ⟨by decide, by decide, rfl⟩
theorem fieldWrite (field : FieldId) (value : Int) : Statement (.fieldWrite field value) := ⟨by decide, by decide, rfl⟩
theorem readGroup (group : GroupId) : Statement (.readGroup group) := ⟨by decide, by decide, rfl⟩
theorem getFpd : Statement .getFpd := ⟨by decide, by decide, rfl⟩
theorem getFvco : Statement .getFvco := ⟨by decide, by decide, rfl⟩
theorem getFsmclk : Statement .getFsmclk := ⟨by decide, by decide, rfl⟩
theorem configureRamp (span duration threshold : Rat) (descending freeRun : Bool) :
    Statement (.configureRamp span duration threshold descending freeRun) := ⟨by decide, by decide, rfl⟩
theorem setDivider (n num den : Int) : Statement (.setDivider n num den) := ⟨by decide, by decide, rfl⟩
theorem setOutputPower (channel : Channel) (level : Int) : Statement (.setOutputPower channel level) :=
  ⟨by decide, by decide, rfl⟩
theorem reset : Statement .reset := ⟨by decide, by decide, rfl⟩
theorem unlock : Statement .unlock := ⟨by decide, by decide, rfl⟩
theorem arm : Statement .arm := ⟨by decide, by decide, rfl⟩
theorem writeFrame (addr : BusAddr) (data : Word) : Statement (.writeFrame addr data) :=
  ⟨writeByte_msb addr, addr, data, rfl, frameAddr_writeByte addr, wordOfBytes_wordBytes data⟩
theorem readFrame (addr : BusAddr) : Statement (.readFrame addr) :=
  ⟨readByte_msb addr, addr, rfl, frameAddr_readByte addr⟩

end EncodingShape

end Sys2Proof.Laws
end

