-- ==== Sys2Proof/Laws/R0.lean ====
section
/-!
SUPPORT. What a write transaction to R0 leaves when the transport lets it succeed: the device reset, the FCAL_EN edge with its
commit, and the lifecycle (44_lifecycle.md R210 to R214).
-/
namespace Sys2Proof.Machine

open Sys2Proof.Safety

theorem unlockWord_bits : unlockWord[0] = false ∧ unlockWord[1] = false ∧ unlockWord[2] = false ∧ unlockWord[3] = false := by
  decide

/-- A successful write transaction to R0 is the device's write of R0, its frame logged. -/
theorem memWrite_zero (v : Word) (s : State) (hp : paramsOk s.cfg = true) (ht : transportOk 1 s) :
    memWrite 0 v s = deviceWriteR0 v (s.logged (writeTransaction 0 v)) := by
  obtain ⟨_, e⟩ | ⟨info, h, _⟩ := memWrite_cases 0 v s
  · rw [e, writeFrameBytes_busAddr 0 v (by omega)]
    obtain ⟨h1, _⟩ | ⟨_, _, h1⟩ | ⟨_, h1, _⟩ := deviceWrite_cases 0 v (s.logged (writeTransaction 0 v))
    · rw [fcalHazard_logged, fcalHazard_zero _ hp] at h1; cases h1
    · exact h1
    · exact absurd rfl h1
  · rw [nextAnswer_of_transportOk ht] at h; cases h

theorem isSnapshot_snapshot (s : State) : IsSnapshot s.snapshot s := fun a => by
  simp [State.snapshot]

/-- A write of R0 with bit 1 set (44_lifecycle.md R211). -/
theorem memWrite_reset (v : Word) (s : State) (hp : paramsOk s.cfg = true) (ht : transportOk 1 s) (hv : v[1] = true) :
    ∃ t, memWrite 0 v s = .ok () t ∧ Ran [writeTransaction 0 v] s t ∧ t.x = s.cfg.resetDefaults ∧ t.committed = none ∧
      t.nConsistent = true ∧ t.life = .READBACK_LOCKED ∧ t.draws = s.draws := by
  refine ⟨(s.logged (writeTransaction 0 v)).deviceReset.lifeUpdate 0 v false, by
    rw [memWrite_zero v s hp ht, deviceWriteR0, if_pos hv],
    (ran_logged s _).of_fields rfl rfl rfl rfl rfl rfl rfl, rfl, rfl, rfl, ?_, rfl⟩
  simp [lifeAfterWrite, hv]

/-- What a write of R0 without a reset leaves, `s₁` being the state in which its edge was found out. -/
theorem r0Written_noReset (v : Word) (edge : Bool) (s s₁ : State) (hp : paramsOk s.cfg = true) (hv : v[1] = false)
    (hx : s₁.x = s.x) (hc : s₁.committed = s.committed) (hn : s₁.nConsistent = s.nConsistent) (hl : s₁.life = s.life)
    (hcfg : s₁.cfg = s.cfg) :
    R0Written edge v s
      (if edge then (s₁.storeWord 0 v).commit.lifeUpdate 0 v true else (s₁.storeWord 0 v).lifeUpdate 0 v false) := by
  have hlife : lifeAfterWrite s.life 0 v edge =
      match s.life with
      | .READBACK_LOCKED => if v = 0x2410 then .READBACK_UNLOCKED else .READBACK_LOCKED
      | .READBACK_UNLOCKED => if edge then .RAMPING else .CONFIGURED
      | .CONFIGURED => if edge then .RAMPING else .CONFIGURED
      | .RAMPING => .RAMPING
      | .RESET => .RESET := by
    unfold lifeAfterWrite unlockWord
    cases s.life <;> cases edge <;> simp [hv]
  have hst : regGet (regSet s.x 0 v) 0 = some v ∧ ∀ b, b ∉ [0] → regGet (regSet s.x 0 v) b = regGet s.x b :=
    ⟨regGet_set_same _ _ _ (by omega), fun b hb => regGet_set_other _ _ _ _ (by simpa using hb)⟩
  cases edge
  · refine ⟨fun h => (by simp [hv] at h), fun _ => ⟨?_, ?_, ?_⟩, fun _ h => (by cases h), fun _ _ => hc, fun _ => ?_⟩
    · simp only [if_false, Bool.false_eq_true, State.lifeUpdate_x, State.storeWord_x, hx, hst.1]
    · intro b hb
      simp only [if_false, Bool.false_eq_true, State.lifeUpdate_x, State.storeWord_x, hx, hst.2 b hb]
    · simp [State.storeWord, hn]
    · exact (congrArg (lifeAfterWrite · 0 v false) hl).trans hlife
  · refine ⟨fun h => (by simp [hv] at h), fun _ => ⟨?_, ?_, ?_⟩, fun _ _ => ⟨_, rfl, fun a => ?_⟩, fun _ h => (by cases h),
      fun _ => ?_⟩
    · simp only [if_true, State.lifeUpdate_x, State.commit_x, State.storeWord_x, hx, hst.1]
    · intro b hb
      simp only [if_true, State.lifeUpdate_x, State.commit_x, State.storeWord_x, hx, hst.2 b hb]
    · simp [State.storeWord, hn, State.commit]
    · simp only [State.snapshot, regGet_restrict, State.storeWord_x, State.storeWord_cfg, hx, hcfg]
      by_cases ha : a ∈ rampRegs s.cfg
      · have : a ≠ 0 := fun h => zero_notMem_rampRegs _ hp (h ▸ ha)
        simp [ha, regGet_set_other _ _ _ _ this]
      · simp [ha]
    · exact (congrArg (lifeAfterWrite · 0 v true) hl).trans hlife

/-- What the state is in which an edge has been decided: the same, or one draw later. -/
theorem edgeDecided {v : Word} {s s₁ : State} {edge : Bool} (he : edgeOf v (s.logged (writeTransaction 0 v)) = (edge, s₁)) :
    s₁ = s.logged (writeTransaction 0 v) ∨ s₁ = (s.logged (writeTransaction 0 v)).drawn := by
  have := edgeOf_state v (s.logged (writeTransaction 0 v)); rwa [he] at this

theorem edgeOf_of_edgeKnown {v : Word} {s : State} {edge : Bool} (he : EdgeKnown edge v s) :
    edgeOf v (s.logged (writeTransaction 0 v)) = (edge, s.logged (writeTransaction 0 v)) := by
  rcases he with ⟨old, ho, he⟩ | ⟨ho, h3, he⟩
  · exact (edgeOf_known v old (s.logged _) ho).trans (by rw [he])
  · simp [edgeOf, riseKnown, ho, h3, he]

/-- With R0's content not known and FCAL_EN written as 1, a draw is the edge (44_lifecycle.md R213; log 9). -/
theorem edgeOf_unknown {v : Word} {s : State} (h0 : regGet s.x 0 = none) (h3 : v[3] = true) :
    edgeOf v (s.logged (writeTransaction 0 v)) = (Config.drawBit s.draws, (s.logged (writeTransaction 0 v)).drawn) := by
  simp [edgeOf, riseKnown, h0, h3]

/-- A write of R0 that does not reset and whose edge, if it is one, finds PLL_N consistent (44_lifecycle.md R212 to R214). -/
theorem memWrite_zero_decided (v : Word) (edge : Bool) (s s₁ : State) (hp : paramsOk s.cfg = true) (ht : transportOk 1 s)
    (he : edgeOf v (s.logged (writeTransaction 0 v)) = (edge, s₁)) (hv : v[1] = false)
    (hn : edge = true → s.nConsistent = true) :
    ∃ t, memWrite 0 v s = .ok () t ∧ Ran [writeTransaction 0 v] s t ∧ R0Written edge v s t ∧ t.draws = s₁.draws := by
  have h₁ := edgeDecided he
  have hn₁ : s₁.nConsistent = s.nConsistent := by obtain rfl | rfl := h₁ <;> rfl
  have hran : Ran [writeTransaction 0 v] s s₁ := by
    obtain rfl | rfl := h₁ <;> exact (ran_logged s _).of_fields rfl rfl rfl rfl rfl rfl rfl
  have hw : R0Written edge v s _ := r0Written_noReset v edge s s₁ hp hv (by obtain rfl | rfl := h₁ <;> rfl)
    (by obtain rfl | rfl := h₁ <;> rfl) (by obtain rfl | rfl := h₁ <;> rfl) (by obtain rfl | rfl := h₁ <;> rfl)
    (by obtain rfl | rfl := h₁ <;> rfl)
  have hdev : deviceWriteR0 v (s.logged (writeTransaction 0 v)) =
      .ok () (if edge then (s₁.storeWord 0 v).commit.lifeUpdate 0 v true else (s₁.storeWord 0 v).lifeUpdate 0 v false) := by
    cases edge with
    | false => simp [deviceWriteR0, hv, he]
    | true => simp [deviceWriteR0, hv, he, hn₁, hn rfl]
  refine ⟨_, (memWrite_zero v s hp ht).trans hdev, ?_, hw, ?_⟩
  · cases edge <;> exact hran.of_fields rfl rfl rfl rfl rfl rfl rfl
  · cases edge <;> rfl

/-- A write of R0 that resets, or whose edge the old word decides and finds PLL_N consistent (44_lifecycle.md R210 to R214). -/
theorem memWrite_zero_spec (v : Word) (edge : Bool) (s : State) (hp : paramsOk s.cfg = true) (ht : transportOk 1 s)
    (he : EdgeKnown edge v s) (hn : v[1] = false → edge = true → s.nConsistent = true) :
    ∃ t, memWrite 0 v s = .ok () t ∧ Ran [writeTransaction 0 v] s t ∧ R0Written edge v s t ∧ t.draws = s.draws := by
  cases hv : v[1] with
  | true =>
    obtain ⟨t, e, hr, hx, hc, hn, hl, hd⟩ := memWrite_reset v s hp ht hv
    exact ⟨t, e, hr, ⟨fun _ => ⟨hx, hc, hn, hl⟩, by simp [hv], by simp [hv], by simp [hv], by simp [hv]⟩, hd⟩
  | false => exact memWrite_zero_decided v edge s (s.logged (writeTransaction 0 v)) hp ht (edgeOf_of_edgeKnown he) hv (hn hv)

/-- An FCAL_EN edge that finds PLL_N inconsistent (70_reset_and_hazards.md R272), `s₁` being the state in which the edge has been
decided (44_lifecycle.md R213). -/
theorem memWrite_zero_inconsistent (v : Word) (s s₁ : State) (hp : paramsOk s.cfg = true) (ht : transportOk 1 s)
    (he : edgeOf v (s.logged (writeTransaction 0 v)) = (true, s₁)) (hv : v[1] = false) (hn : s.nConsistent = false) :
    ∃ t, memWrite 0 v s = .fault .hazardOrder t ∧ Ran [writeTransaction 0 v] s t ∧ StoredOrNot 0 v s t ∧
      t.nConsistent = false := by
  have h₁ := edgeDecided he
  have hn₁ : s₁.nConsistent = false := by obtain rfl | rfl := h₁ <;> exact hn
  have hran : Ran [writeTransaction 0 v] s s₁ := by
    obtain rfl | rfl := h₁ <;> exact (ran_logged s _).of_fields rfl rfl rfl rfl rfl rfl rfl
  have hx : s₁.x = s.x := by obtain rfl | rfl := h₁ <;> rfl
  have hdev : deviceWriteR0 v (s.logged (writeTransaction 0 v)) = .fault .hazardOrder (s₁.maybeStored 0 v) := by
    simp [deviceWriteR0, hv, he, hn₁]
  have hst : StoredOrNot 0 v s (s₁.maybeStored 0 v) :=
    storedOrNot_congr (storedOrNot_maybeStored 0 v s₁ (by omega)) hx (by obtain rfl | rfl := h₁ <;> rfl)
      (by obtain rfl | rfl := h₁ <;> rfl) (by obtain rfl | rfl := h₁ <;> rfl)
  refine ⟨_, (memWrite_zero v s hp ht).trans hdev, hran.maybeStored 0 v, hst, ?_⟩
  rcases hst.register with h | h
  · rw [h.2]; exact hn
  · rw [h.2, hn]

end Sys2Proof.Machine
end

