-- ==== Sys2Proof/Laws/Ramp.lean ====
section
/-!
SUPPORT. Sequences of FIELD_WRITEs to fields that share no bit: every field holds its value, every other known field what it held.
-/
namespace Sys2Proof.Machine

open Sys2Proof.Safety

/-- Words that agree on a range of bits agree on its value. -/
theorem bits_eq_of_getLsbD {w w' : Word} {lo hi : Nat} (h₁ : lo ≤ hi) (h₂ : hi ≤ 15)
    (h : ∀ i, lo ≤ i → i ≤ hi → w'.getLsbD i = w.getLsbD i) :
    w'.toNat / 2 ^ lo % 2 ^ (hi - lo + 1) = w.toNat / 2 ^ lo % 2 ^ (hi - lo + 1) := by
  have hw := getBitsWord_eq w lo hi h₁ h₂
  have hw' := getBitsWord_eq w' lo hi h₁ h₂
  unfold natBits at hw hw'
  rw [← hw, ← hw']
  apply Nat.eq_of_testBit_eq
  intro i
  rw [getBitsWord_testBit _ _ _ _ h₁ h₂, getBitsWord_testBit _ _ _ _ h₁ h₂]
  by_cases hi' : i ≤ hi - lo
  · rw [h (i + lo) (by omega) (by omega)]
  · simp [hi']

/-- A part whose bits were kept has the value it had. -/
theorem partsValue_keep {x y : RegFile} (ps : List Part) (hp : ∀ p ∈ ps, PartOk p)
    (h : ∀ p ∈ ps, ∀ w, regGet x p.addr = some w →
      ∃ w', regGet y p.addr = some w' ∧ ∀ i, p.lo ≤ i → i ≤ p.hi → w'.getLsbD i = w.getLsbD i) (u : Nat)
    (hu : partsValue x ps = some u) : partsValue y ps = some u := by
  induction ps generalizing u with
  | nil => exact hu
  | cons p ps ih =>
    unfold partsValue at hu ⊢
    cases hg : regGet x p.addr with
    | none => simp [hg] at hu
    | some w =>
      cases hv : partsValue x ps with
      | none => simp [hg, hv] at hu
      | some v =>
        obtain ⟨w', hw', hb⟩ := h p (by simp) w hg
        rw [hw', ih (fun q hq => hp q (by simp [hq])) (fun q hq => h q (by simp [hq])) v hv]
        simp only [hg, hv, Option.some.injEq] at hu ⊢
        rw [← hu]
        have := bits_eq_of_getLsbD (hp p (by simp)).2.1 (hp p (by simp)).2.2 hb
        unfold partWidth
        rw [this]

/-- The value of a known field, where its registers outside a written field were kept (30_encoding.md R93). -/
theorem fieldValue_keep {s t : State} {f g : FieldId} (hp : paramsOk s.cfg = true) (hc : t.cfg = s.cfg)
    (hd : fieldsDisjoint s.cfg g f) (ho : OthersKept ((fieldParts s.cfg f).map Part.addr) s t)
    (hob : ∀ p ∈ fieldParts s.cfg f, ∀ old, regGet s.x p.addr = some old →
      ∃ w, regGet t.x p.addr = some w ∧ ∀ i, i < p.lo ∨ p.hi < i → w.getLsbD i = old.getLsbD i)
    (u : Nat) (hu : fieldValue s g = some u) : fieldValue t g = some u := by
  unfold fieldValue at hu ⊢
  rw [hc]
  refine partsValue_keep _ (fieldParts_ok _ hp g) (fun q hq w hw => ?_) u hu
  by_cases hm : q.addr ∈ (fieldParts s.cfg f).map Part.addr
  · obtain ⟨r, hr, he⟩ := List.mem_map.1 hm
    obtain ⟨w', hw', hb⟩ := hob r hr w (by rw [he]; exact hw)
    refine ⟨w', by rw [← he]; exact hw', fun i h₁ h₂ => hb i ?_⟩
    have := hd q hq r hr
    omega
  · exact ⟨w, by rw [ho _ hm]; exact hw, fun _ _ _ => rfl⟩

/-- What must hold for a FIELD_WRITE outside R0 to complete. -/
structure FieldWritable (s : State) (e : FieldId × Int) : Prop where
  access : fieldAccessible s.cfg e.1
  notR0 : notInR0 s.cfg e.1
  nonneg : 0 ≤ e.2
  fits : e.2 < 2 ^ fieldWidth s.cfg e.1
  noHazard : ∀ p ∈ fieldParts s.cfg e.1, fcalHazard p.addr s = false

/-- A sequence of FIELD_WRITEs to fields that share no bit (43_ramp_configurator.md R170 phase 3, R190). -/
theorem writeFields_spec (l : List (FieldId × Int)) (s : State) (hp : paramsOk s.cfg = true) (hb : readbackOk s = true)
    (hw : ∀ e ∈ l, FieldWritable s e) (hd : l.Pairwise fun e e' => fieldsDisjoint s.cfg e.1 e'.1)
    (ht : transportOk (l.map fun e => fieldWrites s.cfg e.1).sum s) :
    ∃ t ts, writeFields l s = .ok () t ∧ Ran ts s t ∧ ts.length = (l.map fun e => fieldWrites s.cfg e.1).sum ∧
      (∀ e ∈ l, fieldValue t e.1 = some e.2.toNat) ∧
      (∀ g, (∀ e ∈ l, fieldsDisjoint s.cfg g e.1) → ∀ u, fieldValue s g = some u → fieldValue t g = some u) ∧
      OthersKept (l.flatMap fun e => (fieldParts s.cfg e.1).map Part.addr) s t ∧ t.committed = s.committed ∧
      ((∀ e ∈ l, ∀ p ∈ fieldParts s.cfg e.1, p.addr ≠ 34 ∧ p.addr ≠ 36) → t.nConsistent = s.nConsistent) ∧
      t.life = (if l = [] then s.life else lifeAfterPlainWrite s.life) := by
  induction l generalizing s with
  | nil => exact ⟨s, [], rfl, .refl s, rfl, by simp, by simp, fun _ _ => rfl, rfl, by simp, rfl⟩
  | cons e l ih =>
    obtain ⟨f, v⟩ := e
    have hwf := hw (f, v) (by simp)
    obtain ⟨s₁, ts₁, e₁, hr₁, hlen₁, hv₁, ho₁, hob₁, hc₁, hn₁, _, hl₁⟩ := writeField_spec f v s hp hwf.access hwf.notR0 hwf.nonneg
      hwf.fits (.inr hb) hwf.noHazard (transportOk_mono ht (by simp))
    have hcfg := hr₁.controller.cfg
    have h0 : regGet s₁.x 0 = regGet s.x 0 := ho₁ 0 fun h => by
      obtain ⟨p, hp₁, hp₂⟩ := List.mem_map.1 h
      exact hwf.notR0 p hp₁ hp₂
    have hd' := List.pairwise_cons.1 hd
    obtain ⟨t, ts, e₂, hr₂, hlen₂, hv₂, hk₂, ho₂, hc₂, hn₂, hl₂⟩ := ih s₁ (by rw [hcfg]; exact hp)
      (by rw [readbackOk_of_plainWrite h0 hl₁]; exact hb)
      (fun e he => by
        have h := hw e (by simp [he])
        exact ⟨by rw [hcfg]; exact h.access, by rw [hcfg]; exact h.notR0, h.nonneg, by rw [hcfg]; exact h.fits,
          fun p hq => by rw [fcalHazard_congr h0 hcfg]; exact h.noHazard p (by rw [← hcfg]; exact hq)⟩)
      (by rw [hcfg]; exact hd'.2) (by rw [hcfg]; exact hr₁.transportOk ht (by
        rw [hlen₁, List.map_cons, List.sum_cons]; exact Nat.le_of_eq (Nat.add_comm _ _)))
    rw [hcfg] at hlen₂ hk₂ ho₂ hn₂
    refine ⟨t, ts₁ ++ ts, by rw [writeFields, e₁]; exact e₂, hr₁.trans hr₂, by simp [hlen₁, hlen₂], ?_, ?_, ?_, hc₂.trans hc₁,
      ?_, ?_⟩
    · intro e he
      rcases List.mem_cons.1 he with rfl | he
      · exact hk₂ f (fun e' he' => hd'.1 e' he') _ hv₁
      · exact hv₂ e he
    · intro g hg u hu
      exact hk₂ g (fun e he => hg e (by simp [he])) u
        (fieldValue_keep hp hcfg (hg (f, v) (by simp)) ho₁ hob₁ u hu)
    · intro b hb'
      simp only [List.flatMap_cons, List.mem_append, not_or] at hb'
      rw [ho₂ b hb'.2, ho₁ b hb'.1]
    · intro h
      rw [hn₂ fun e he => h e (by simp [he]), hn₁ (h (f, v) (by simp))]
    · rw [hl₂, hl₁]
      split <;> simp [lifeAfterPlainWrite_idem]

end Sys2Proof.Machine
end

