-- ==== Sys2Proof/Tests/Slice0.lean ====
section
/-!
SUPPORT. The tests: ill-formed terms that each check refuses, one written-out request per constructor that decodes to its
instruction, one-step tests whose expected results are those of 95_test_vectors.md, and for every statement with hypotheses a
concrete state and operands that meet them all.
-/
namespace Sys2Proof.Tests

open Sys2Proof Sys2Proof.Machine Sys2Proof.Safety

-- one proof after another: each `decide +kernel` would else hold a thread while it waits for the kernel
set_option Elab.async false

/-! ## Small states -/

/-- A state with a 100 MHz reference, the default parameters, and `k` transactions that will succeed. -/
def stateOf (life : Lifecycle) (x : RegFile) (k : Nat) : State :=
  { State.powerUp 100000000 defaultParams with life := life, x := x, transport := List.replicate k .ok }

/-- S_PU of 95_test_vectors.md: power-up. -/
def sPU (k : Nat) : State := stateOf .READBACK_LOCKED [] k

/-- S_U of 95_test_vectors.md, with further registers: after RESET and UNLOCK. -/
def sU (x : RegFile) (k : Nat) : State := stateOf .READBACK_UNLOCKED ((0, 0x2410) :: x) k

/-- The registers of S_P2's frequency plan (program P2 of 95_test_vectors.md): f_pd is 10 MHz, f_vco 1 GHz. -/
def plan : RegFile :=
  [(9, 0), (10, 0x80), (11, 0xA0), (12, 1), (34, 0), (36, 0x64), (38, 0), (39, 1), (42, 0), (43, 0)]

/-- S_P2 of 95_test_vectors.md. -/
def sP2 (k : Nat) : State := stateOf .CONFIGURED ((0, 0x2410) :: plan) k

/-- The state after an instruction. -/
def after (i : Instr) (s : State) : State :=
  match exec i s with
  | .next t => t
  | .fault _ => s
  | .refused _ => s

/-- The state after a step. -/
def afterStep (s : State) : State :=
  match step s with
  | .next t => t
  | .fault _ => s
  | .refused _ => s

/-- The bytes sent by a command, transaction by transaction. -/
def sent (s : State) : List (List Byte) := s.trace.map Transaction.sent

/-! ## WellFormed and the configuration check refuse -/

theorem test_writeFrame_113_illFormed : WellFormed (.writeFrame 113 0) = false := by decide
theorem test_readFrame_127_illFormed : WellFormed (.readFrame 127) = false := by decide
theorem test_readFrame_112_wellFormed : WellFormed (.readFrame 112) = true := by decide
theorem test_defaultParams_ok : paramsOk defaultParams = true := by decide +kernel
theorem test_code_too_wide_refused : paramsOk { defaultParams with codeNextTrigTrigA := 4 } = false := by decide +kernel
theorem test_reset_word_without_reset_refused : paramsOk { defaultParams with r0ResetWord := 0x2410 } = false := by
  decide +kernel
theorem test_loc_in_R0_refused : paramsOk { defaultParams with locRampManual := ⟨0, 5, 5⟩ } = false := by decide +kernel
theorem test_loc_wrong_width_refused : paramsOk { defaultParams with locLdDly := ⟨60, 7, 0⟩ } = false := by decide +kernel

/-! ## Decoding: one request per constructor, written out from 30_encoding.md R80, R81, R85 to R87 -/

theorem test_decode_setBits : decode (.command 0x01 [0x1234, 4, 7, 0x1F]) = .ok (.setBits 0x1234 4 7 0x1F) := rfl
theorem test_decode_getBits : decode (.command 0x02 [0x2410, 3, 3]) = .ok (.getBits 0x2410 3 3) := rfl
theorem test_decode_read : decode (.command 0x03 [100]) = .ok (.read 100) := rfl
theorem test_decode_write : decode (.command 0x04 [100, 0x4E20]) = .ok (.write 100 0x4E20) := rfl
theorem test_decode_modify : decode (.command 0x05 [0, 1, 1, 1]) = .ok (.modify 0 1 1 1) := rfl
theorem test_decode_fieldRead : decode (.command 0x06 [31]) = .ok (.fieldRead .LD_DLY) := rfl
theorem test_decode_fieldWrite : decode (.command 0x07 [3, 0]) = .ok (.fieldWrite .FCAL_EN 0) := rfl
theorem test_decode_readGroup : decode (.command 0x08 [6]) = .ok (.readGroup .status) := rfl
theorem test_decode_getFpd : decode (.command 0x09 []) = .ok .getFpd := rfl
theorem test_decode_getFvco : decode (.command 0x0A []) = .ok .getFvco := rfl
theorem test_decode_getFsmclk : decode (.command 0x0B []) = .ok .getFsmclk := rfl
theorem test_decode_configureRamp :
    decode (.command 0x0C [100000000, 0, 1, 499, 150000000, 0, 1, 0]) =
      .ok (.configureRamp 100000000 (1 / 500) 150000000 true false) := by decide +kernel
theorem test_decode_setDivider : decode (.command 0x0D [100, 0, 1]) = .ok (.setDivider 100 0 1) := rfl
theorem test_decode_setOutputPower : decode (.command 0x0E [1, 63]) = .ok (.setOutputPower .B 63) := rfl
theorem test_decode_reset : decode (.command 0x0F []) = .ok .reset := rfl
theorem test_decode_unlock : decode (.command 0x10 []) = .ok .unlock := rfl
theorem test_decode_arm : decode (.command 0x11 []) = .ok .arm := rfl
/-- `64 4E 20` (95_test_vectors.md L1.3): bit 7 is 0, bits 6..0 are 1100100. -/
theorem test_decode_writeFrame : decode (.frame [0b01100100, 0x4E, 0x20]) = .ok (.writeFrame 100 20000) := by decide
/-- `F0`: bit 7 is 1, bits 6..0 are 1110000. -/
theorem test_decode_readFrame : decode (.frame [0b11110000]) = .ok (.readFrame 112) := by decide
theorem test_decode_rejects_113 : decode (.frame [0x71, 0, 0]) = .error (.badFrameAddress 113) := by decide
theorem test_table_words :
    decodeTableWord 24 0x00A410 = some (.writeFrame 0 0xA410) ∧ decodeTableWord 8 0x80 = some (.readFrame 0) ∧
    decodeTableWord 8 0x11 = some .arm ∧ decodeTableWord 8 0x12 = none := by decide

/-! ## BitField (L2.1) -/

theorem test_setBits_truncates : (after (.setBits 0x1234 4 7 0x1F) (sPU 0)).result = some (.ok (.word 0x12F4)) := by
  decide +kernel
theorem test_setBits_range : (after (.setBits 0 5 4 1) (sPU 0)).faults = [.range 5 4] := by decide +kernel
theorem test_getBits_middle : (after (.getBits 0x1234 2 15) (sPU 0)).result = some (.ok (.nat 0x48D)) := by decide +kernel
theorem test_getBits_unsigned : (after (.getBits 0x8000 15 15) (sPU 0)).result = some (.ok (.nat 1)) := by decide +kernel

/-! ## RegisterAccess (L1.6, L2.3, L2.4) -/

theorem test_read_known :
    (after (.read 0) (sU [] 1)).result = some (.ok (.word 0x2410)) ∧ (after (.read 0) (sU [] 1)).trace =
      [⟨[0x80], [0x24, 0x10], .ok⟩] := by decide +kernel
theorem test_read_200_not_masked : (after (.read 200) (sU [] 1)).result = some (.error (.addr 200)) := by decide +kernel
theorem test_write_ramp_register_unlocked :
    (after (.write 100 5) (sU [] 1)).life = .CONFIGURED ∧ sent (after (.write 100 5) (sU [] 1)) = [[0x64, 0x00, 0x05]] := by
  decide +kernel
theorem test_write_reset_bit_wins :
    (after (.write 0 0x241A) (sU [] 1)).life = .READBACK_LOCKED ∧ (after (.write 0 0x241A) (sU [] 1)).x = [] ∧
    (after (.write 0 0x241A) (sU [] 1)).committed = none := by decide +kernel
theorem test_modify_keeps_other_bits :
    (after (.modify 44 8 13 0) (sU [(44, 0xFFFF)] 2)).x = [(0, 0x2410), (44, 0xC0FF)] := by decide +kernel
theorem test_modify_status_before_lock : (after (.modify 110 0 0 1) (sPU 2)).faults = [.readOnly 110] := by decide +kernel
theorem test_fieldRead_three_parts :
    (after (.fieldRead .RAMP_LIMIT_HIGH) (sU [(81, 1), (82, 0xEC00), (83, 0)] 3)).result =
      some (.ok (.nat 0x1EC000000)) := by decide +kernel
theorem test_fieldRead_high_part_first :
    sent (after (.fieldRead .PLL_N) (sU [(34, 4), (36, 0x1234)] 2)) = [[0xA2], [0xA4]] := by decide +kernel
theorem test_fieldWrite_increment :
    sent (after (.fieldWrite .RAMP0_INC 0x3FFFDF3B) (sU [(98, 0)] 3)) = [[0xE2], [0x62, 0xFF, 0xFC], [0x63, 0xDF, 0x3B]] := by
  decide +kernel
theorem test_fieldWrite_width_before_gate :
    (after (.fieldWrite .MULT 32) (sPU 2)).result = some (.error (.param (.width .MULT) 32)) := by decide +kernel
theorem test_readGroup_inputPath :
    (after (.readGroup .inputPath) (sP2 4)).result =
      some (.ok (.fields [(.OSC_2X, 0), (.MULT, 1), (.PLL_R, 10), (.PLL_R_PRE, 1)])) := by decide +kernel
theorem test_readGroup_status_bytes : sent (after (.readGroup .status) (sPU 3)) = [[0xEE], [0xEF], [0xF0]] := by
  decide +kernel

/-! ## FrequencyModel (L2.5) -/

theorem test_getFpd_doubled :
    (after .getFpd (sU [(9, 0x1000), (10, 0x180), (11, 0x50), (12, 2)] 4)).result = some (.ok (.freq 60000000)) := by
  decide +kernel
theorem test_getFpd_divisor_zero :
    (after .getFpd (sU [(9, 0), (10, 0x80), (11, 0), (12, 1)] 4)).faults = [.div0 .PLL_R] := by decide +kernel
theorem test_getFvco_integer : (after .getFvco (sP2 10)).result = some (.ok (.freq 1000000000)) := by decide +kernel
theorem test_getFvco_fraction :
    (after .getFvco (sU [(9, 0), (10, 0x80), (11, 0xA0), (12, 1), (34, 0), (36, 0x64), (38, 0), (39, 2), (42, 0), (43, 1)] 10)).result =
      some (.ok (.freq 1005000000)) := by decide +kernel
theorem test_getFsmclk_eighth : (after .getFsmclk (sU [(1, 3)] 1)).result = some (.ok (.freq 12500000)) := by decide +kernel
theorem test_round_ties : roundHalfEven (5 / 2) = 2 ∧ roundHalfEven (7 / 2) = 4 ∧ roundHalfEven (-3 / 2) = -2 := by
  decide +kernel

/-! ## RampConfigurator (L2.7, L2.8, programs P3 and P4) -/

/-- S_P2 with the partly written ramp registers cleared (program P3). -/
def sP3start (k : Nat) : State :=
  stateOf .CONFIGURED
    ((0, 0x2410) :: plan ++ [(78, 0), (81, 0), (84, 0), (97, 0), (98, 0), (101, 0), (105, 0), (106, 0)]) k

theorem test_configureRamp_codes :
    [97, 98, 99, 100, 101, 79, 82, 84, 85].map
        (regGet (after (.configureRamp 100000000 (1 / 500) 150000000 true false) (sP3start 43)).x) =
      [some 0x8008, some 0xFFFC, some 0xDF3B, some 0x4E20, some 0x0001, some 0x0F00, some 0x1400, some 0x0001,
       some 0xEC00] := by decide +kernel
theorem test_configureRamp_too_long :
    (after (.configureRamp 100000000 (7 / 1000) 150000000 true false) (sP2 10)).result =
      some (.error (.param .ramp_len 70000)) := by decide +kernel
theorem test_setDivider_high_part_first :
    sent (after (.setDivider 0x41234 0 1) (sU [(34, 0)] 7)) =
      [[0xA2], [0x22, 0x00, 0x04], [0x24, 0x12, 0x34], [0x2A, 0, 0], [0x2B, 0, 0], [0x26, 0, 0], [0x27, 0, 1]] := by
  decide +kernel
theorem test_setDivider_range_before_gate :
    (after (.setDivider 524288 0 1) (sPU 7)).result = some (.error (.param .pll_n 524288)) := by decide +kernel
theorem test_setOutputPower_A :
    (after (.setOutputPower .A 31) (sU [(44, 0)] 2)).x = [(0, 0x2410), (44, 0x1F00)] := by decide +kernel
theorem test_setOutputPower_B_keeps :
    (after (.setOutputPower .B 0) (sU [(45, 0xFFFF)] 2)).x = [(0, 0x2410), (45, 0xFFC0)] := by decide +kernel

/-! ## DeviceLifecycle (L2.9, L2.10) -/

theorem test_reset_forgets : (after .reset (sP2 1)).x = [] ∧ (after .reset (sP2 1)).life = .READBACK_LOCKED := by
  decide +kernel
theorem test_unlock_from_powerUp :
    (after .unlock (sPU 1)).life = .READBACK_UNLOCKED ∧ sent (after .unlock (sPU 1)) = [[0x00, 0x24, 0x10]] := by
  decide +kernel
theorem test_arm_commits :
    (after .arm (sU [(100, 0x4E20)] 3)).committed = some [(100, 0x4E20)] ∧
    (after .arm (sU [(100, 0x4E20)] 3)).life = .RAMPING := by decide +kernel
theorem test_arm_again_clears_first :
    sent (after .arm (stateOf .RAMPING [(0, 0x2418)] 5)) = [[0x80], [0x80], [0, 0x24, 0x10], [0x80], [0, 0x24, 0x18]] := by
  decide +kernel
theorem test_writeFrame_stores : (after (.writeFrame 36 0x1234) (sPU 1)).x = [(36, 0x1234)] := by decide +kernel
theorem test_readFrame_answers : (after (.readFrame 0) (sU [] 1)).result = some (.ok (.word 0x2410)) := by decide +kernel
/-- The failed second transaction of a MODIFY (L2.10): E_BUS names it, and the register is not known afterwards. -/
theorem test_modify_write_fails :
    (after (.modify 44 8 13 31) { sU [(44, 0)] 1 with transport := [.ok, .fault .noResponse] }).result =
      some (.error (.bus .noResponse 2)) ∧
    (after (.modify 44 8 13 31) { sU [(44, 0)] 1 with transport := [.ok, .fault .noResponse] }).x = [(0, 0x2410)] := by
  decide +kernel

/-! ## The step -/

theorem test_step_refuses_opcode_0 :
    (afterStep { sPU 0 with requests := [.command 0 []] }).faults = [.refused (.command 0 [])] := by decide +kernel
theorem test_step_runs_the_fetched_word :
    (afterStep ((sPU 1).withFetchWord 24 0x241234)).x = [(36, 0x1234)] := by decide +kernel

/-! ## Witnesses: for each statement, a state and operands that meet all its hypotheses, clause by clause -/

/-- The addresses of the frequency plan's fields, in the order CONFIGURE_RAMP reads them. -/
def planAddrs : List Nat := [9, 12, 10, 11, 34, 36, 42, 43, 38, 39]

theorem witness_DecodeOfEncodeIsTheInstruction :
    WellFormed (.writeFrame 112 0xFFFF) = true ∧ WellFormed (.readFrame 112) = true ∧
    WellFormed (.configureRamp (-1) 0 (5 / 3) false true) = true := by decide

theorem witness_RequestThatIsNoCommandIsRefused :
    ((0 : Byte) = 0 ∧ 0x12 ≤ (0x12 : Byte).toNat ∧ 0x12 ≤ (0xFF : Byte).toNat) ∧ ((-1 : Int) < 0 ∧ (31 : Int) < 32) ∧
    ((-1 : Int) < 0 ∧ (6 : Int) < 7) ∧ ((2 : Int) ≠ 0 ∧ (2 : Int) ≠ 1) ∧
    paramsOk defaultParams = true ∧ stuckOn (sPU 0) = none ∧ decode (.command 0x12 [5]) = .error (.badOpcode 0x12) := by
  decide +kernel

/-- The range is the whole word, one bit at the top, and three that are not well-formed (SET_BITS and GET_BITS). -/
theorem witness_SetBitsWritesItsRange_GetBitsReadsItsRange :
    (0 ≤ (0 : Int) ∧ (0 : Int) ≤ 15 ∧ (15 : Int) ≤ 15) ∧ (0 ≤ (15 : Int) ∧ (15 : Int) ≤ 15 ∧ (15 : Int) ≤ 15) ∧
    ¬ (0 ≤ (5 : Int) ∧ (5 : Int) ≤ 4 ∧ (4 : Int) ≤ 15) ∧ ¬ (0 ≤ (0 : Int) ∧ (0 : Int) ≤ 16 ∧ (16 : Int) ≤ 15) ∧
    ¬ (0 ≤ (-1 : Int) ∧ (-1 : Int) ≤ 3 ∧ (3 : Int) ≤ 15) := by decide

theorem witness_SetThenGetLaws_DisjointSetBitsCommute : 0 ≤ 7 ∧ 7 ≤ 15 ∧ 8 ≤ 15 ∧ 15 ≤ 15 ∧ 7 < 8 := by decide

/-- A state whose parameters reserve one address more. -/
def reserving (a : Nat) (s : State) : State := { s with cfg := { s.cfg with reserved := a :: s.cfg.reserved } }

/-- Addresses at the boundary, by command and by frame; PLL_N with its second part reserved, at its largest value; LD_DLY, whose one
part is LOC_LD_DLY, with readback locked. -/
theorem witness_AddressIsCheckedBeforeAnyTransaction :
    (113 ≤ 113 ∧ (2 < 113 ∧ 2 ∈ (sPU 1).cfg.reserved) ∧ (109 < 113 ∧ 109 ∈ (sPU 1).cfg.reserved) ∧
      (0 ≤ (0 : Int) ∧ (0 : Int) ≤ 15 ∧ (15 : Int) ≤ 15)) ∧
    (∀ s ∈ [reserving 36 (sU [(34, 0xFFFF)] 2)],
      paramsOk s.cfg = true ∧ fieldParts s.cfg .PLL_N = [⟨34, 2, 0⟩] ++ ⟨36, 15, 0⟩ :: [] ∧ 36 ∈ s.cfg.reserved ∧
      accessible s.cfg 34 ∧ (524287 : Int) < 2 ^ fieldWidth s.cfg .PLL_N ∧ readbackOk s = true ∧ noFcalHazard [34] s ∧
      transportOk (partWrites ⟨34, 2, 0⟩) s) ∧
    (∀ s ∈ [reserving 60 (sPU 0)],
      paramsOk s.cfg = true ∧ fieldParts s.cfg .LD_DLY = [] ++ ⟨60, 15, 0⟩ :: [] ∧ 60 ∈ s.cfg.reserved ∧
      (65535 : Int) < 2 ^ fieldWidth s.cfg .LD_DLY ∧ (fieldParts s.cfg .LD_DLY).all partFull = true) := by decide +kernel

theorem witness_StatusRegistersAreReadOnly :
    110 ≤ 110 ∧ accessible (sPU 1).cfg 110 ∧ accessible (sPU 1).cfg 112 := by decide +kernel

/-- A known register with readback reliable, an unknown one, and a status register. -/
theorem witness_ReadAnswersTheRegisterOrADraw :
    (accessible (sU [] 1).cfg 0 ∧ transportOk 1 (sU [] 1) ∧ readbackOk (sU [] 1) = true ∧ regGet (sU [] 1).x 0 = some 0x2410) ∧
    (accessible (sPU 1).cfg 36 ∧ transportOk 1 (sPU 1) ∧ regGet (sPU 1).x 36 = none) ∧ accessible (sPU 1).cfg 112 := by
  decide +kernel

theorem witness_WriteReplacesTheWholeRegister :
    (∀ a ∈ [1, 34, 36, 60, 106], 1 ≤ a ∧ a < 110 ∧ accessible (sU [] 1).cfg a ∧ noFcalHazard [a] (sU [] 1)) ∧
    transportOk 1 (sU [] 1) := by decide +kernel

theorem witness_RampWriteWithFcalSetFaults :
    100 < 110 ∧ 100 ∉ (stateOf .RAMPING [(0, 0x2418)] 1).cfg.reserved ∧ 100 ∈ rampRegs (stateOf .RAMPING [(0, 0x2418)] 1).cfg ∧
    fcalClear (stateOf .RAMPING [(0, 0x2418)] 1) = false ∧ transportOk 1 (stateOf .RAMPING [(0, 0x2418)] 1) ∧
    fcalClear (sPU 1) = false ∧ transportOk 1 (sPU 1) := by decide +kernel

/-- R101, whose word an older write left, with readback reliable. -/
theorem witness_RampModifyWithFcalSetFaults :
    (101 < 110 ∧ 101 ∉ (stateOf .RAMPING [(0, 0x2418), (101, 7)] 2).cfg.reserved ∧
      101 ∈ rampRegs (stateOf .RAMPING [(0, 0x2418), (101, 7)] 2).cfg) ∧ (0 ≤ (4 : Int) ∧ (4 : Int) ≤ 4 ∧ (4 : Int) ≤ 15) ∧
    readbackOk (stateOf .RAMPING [(0, 0x2418), (101, 7)] 2) = true ∧
    fcalClear (stateOf .RAMPING [(0, 0x2418), (101, 7)] 2) = false ∧
    transportOk 2 (stateOf .RAMPING [(0, 0x2418), (101, 7)] 2) := by decide +kernel

/-- RAMP0_LEN, a whole register, with readback locked; RAMP_THRESH at its largest value, whose first part is one bit. -/
theorem witness_RampFieldWriteWithFcalSetFaults :
    (paramsOk (sPU 1).cfg = true ∧ fieldParts (sPU 1).cfg .RAMP0_LEN = ⟨100, 15, 0⟩ :: [] ∧ accessible (sPU 1).cfg 100 ∧
      100 ∈ rampRegs (sPU 1).cfg ∧ fcalClear (sPU 1) = false ∧ (65535 : Int) < 2 ^ fieldWidth (sPU 1).cfg .RAMP0_LEN ∧
      (fieldParts (sPU 1).cfg .RAMP0_LEN).all partFull = true ∧ transportOk (partWrites ⟨100, 15, 0⟩) (sPU 1)) ∧
    (fieldParts (stateOf .RAMPING [(0, 0x2418)] 2).cfg .RAMP_THRESH = ⟨78, 11, 11⟩ :: [⟨79, 15, 0⟩, ⟨80, 15, 0⟩] ∧
      78 ∈ rampRegs (stateOf .RAMPING [(0, 0x2418)] 2).cfg ∧ fcalClear (stateOf .RAMPING [(0, 0x2418)] 2) = false ∧
      (8589934591 : Int) < 2 ^ fieldWidth (stateOf .RAMPING [(0, 0x2418)] 2).cfg .RAMP_THRESH ∧
      readbackOk (stateOf .RAMPING [(0, 0x2418)] 2) = true ∧
      transportOk (partWrites ⟨78, 11, 11⟩) (stateOf .RAMPING [(0, 0x2418)] 2)) := by decide +kernel

theorem witness_ResetBitResetsTheDevice :
    paramsOk (sP2 1).cfg = true ∧ accessible (sP2 1).cfg 0 ∧ transportOk 1 (sP2 1) ∧ (0xFFFF : Word)[1] = true ∧
    (0x2412 : Word) = (sP2 1).cfg.r0ResetWord := by decide +kernel

/-- A rising edge, a write without one, and a write of FCAL_EN 0 over an unknown R0. -/
theorem witness_WriteOfR0HasItsEffects :
    (paramsOk (sU [] 1).cfg = true ∧ accessible (sU [] 1).cfg 0 ∧ transportOk 1 (sU [] 1) ∧ (sU [] 1).nConsistent = true) ∧
    EdgeKnown true 0x2418 (sU [] 1) ∧ EdgeKnown false 0x2410 (sU [] 1) ∧
    transportOk 1 (sPU 1) ∧ EdgeKnown false 0x2410 (sPU 1) :=
  ⟨by decide +kernel, .inl ⟨0x2410, by decide, by decide⟩, .inl ⟨0x2410, by decide, by decide⟩, by decide +kernel,
    .inr (by decide +kernel)⟩

theorem witness_EdgeOnUnknownR0IsADraw :
    paramsOk (sPU 1).cfg = true ∧ accessible (sPU 1).cfg 0 ∧ transportOk 1 (sPU 1) ∧ regGet (sPU 1).x 0 = none ∧
    (0x2418 : Word)[1] = false ∧ (0x2418 : Word)[3] = true ∧ (sPU 1).nConsistent = true := by decide +kernel

/-- A state in which PLL_N's parts are inconsistent. -/
def sInconsistent (w : Word) (k : Nat) : State :=
  { stateOf .READBACK_UNLOCKED [(0, w), (34, 1)] k with nConsistent := false }

/-- WRITE over a known R0 with FCAL_EN 0; MODIFY of bit 3, and FIELD_WRITE FCAL_EN, 1, with readback reliable. -/
theorem witness_EdgeWithInconsistentDividerFaults :
    (paramsOk (sInconsistent 0x2410 2).cfg = true ∧ accessible (sInconsistent 0x2410 2).cfg 0 ∧
      transportOk 1 (sInconsistent 0x2410 2) ∧ (0x2418 : Word)[1] = false ∧ (sInconsistent 0x2410 2).nConsistent = false) ∧
    EdgeKnown true 0x2418 (sInconsistent 0x2410 2) ∧
    ((0 ≤ (3 : Int) ∧ (3 : Int) ≤ 3 ∧ (3 : Int) ≤ 15) ∧ readbackOk (sInconsistent 0x2410 2) = true ∧
      regGet (sInconsistent 0x2410 2).x 0 = some 0x2410 ∧ (0x2410 : Word)[3] = false ∧ (0x2418 : Word)[3] = true ∧
      transportOk 2 (sInconsistent 0x2410 2) ∧
      ∀ k, k < 16 → (0x2418 : Word).getLsbD k = if (3 : Int).toNat ≤ k ∧ k ≤ (3 : Int).toNat then
        (1 : Nat).testBit (k - (3 : Int).toNat) else (0x2410 : Word).getLsbD k) :=
  ⟨by decide +kernel, .inl ⟨0x2410, by decide, by decide⟩, by decide +kernel⟩

/-- Readback locked and R34 written before R0 is known. -/
theorem witness_EdgeOnUnknownR0WithInconsistentDivider :
    paramsOk (sPU 1).cfg = true ∧ accessible (sPU 1).cfg 0 ∧
    (∀ s ∈ [{ sPU 1 with x := [(34, 1)], nConsistent := false }],
      transportOk 1 s ∧ regGet s.x 0 = none ∧ s.nConsistent = false) ∧
    (0x2418 : Word)[1] = false ∧ (0x2418 : Word)[3] = true := by decide +kernel

theorem witness_UnlockMakesReadbackReliable :
    paramsOk (sPU 1).cfg = true ∧ accessible (sPU 1).cfg 0 ∧ transportOk 1 (sPU 1) ∧ (sPU 1).life ≠ .RESET ∧
    transportOk 1 (sP2 1) ∧ (sP2 1).life ≠ .READBACK_LOCKED := by decide +kernel

/-- A known and an unknown register; a register of PLL_N and a ramp register. -/
theorem witness_ModifyIsReadThenWrite :
    (∀ a ∈ [34, 36, 44, 106], 1 ≤ a ∧ a < 110 ∧ accessible (sU [(44, 5)] 2).cfg a ∧ noFcalHazard [a] (sU [(44, 5)] 2)) ∧
    (0 ≤ (8 : Int) ∧ (8 : Int) ≤ 13 ∧ (13 : Int) ≤ 15) ∧ readbackOk (sU [(44, 5)] 2) = true ∧ transportOk 2 (sU [(44, 5)] 2) := by
  decide +kernel

/-- Bit 3 set (an edge), and bit 1 set (a reset). -/
theorem witness_ModifyOfR0HasTheEffectsOfAWrite :
    (paramsOk (sU [] 2).cfg = true ∧ accessible (sU [] 2).cfg 0 ∧ readbackOk (sU [] 2) = true ∧
      regGet (sU [] 2).x 0 = some 0x2410 ∧ transportOk 2 (sU [] 2) ∧ (sU [] 2).nConsistent = true) ∧
    (∀ k, k < 16 → (0x2418 : Word).getLsbD k =
      if (3 : Int).toNat ≤ k ∧ k ≤ (3 : Int).toNat then (1 : Nat).testBit (k - (3 : Int).toNat) else (0x2410 : Word).getLsbD k) ∧
    (∀ k, k < 16 → (0x2412 : Word).getLsbD k =
      if (1 : Int).toNat ≤ k ∧ k ≤ (1 : Int).toNat then (1 : Nat).testBit (k - (1 : Int).toNat) else (0x2410 : Word).getLsbD k) := by
  decide +kernel

theorem witness_LockedCommandsFaultBeforeAnyTransaction :
    readbackOk (sPU 1) = false ∧ (0 < 110 ∧ 0 ∉ (sPU 1).cfg.reserved) ∧
    ((31 : Int) < 2 ^ fieldWidth (sPU 1).cfg .MULT ∧ (fieldParts (sPU 1).cfg .MULT).all partFull = false) ∧
    ((524287 : Int) < 2 ^ 19 ∧ (4294967295 : Int) < 2 ^ 32) ∧ ((63 : Int) ≤ (sPU 1).cfg.outPwrMax ∧ (63 : Int) < 64) := by
  decide +kernel

theorem witness_FieldReadJoinsItsParts :
    paramsOk (sU [(81, 1), (82, 0xEC00), (83, 0)] 3).cfg = true ∧
    fieldAccessible (sU [(81, 1), (82, 0xEC00), (83, 0)] 3).cfg .RAMP_LIMIT_HIGH ∧
    transportOk (fieldParts (sU [(81, 1), (82, 0xEC00), (83, 0)] 3).cfg .RAMP_LIMIT_HIGH).length
      (sU [(81, 1), (82, 0xEC00), (83, 0)] 3) ∧
    readbackOk (sU [(81, 1), (82, 0xEC00), (83, 0)] 3) = true ∧
    fieldValue (sU [(81, 1), (82, 0xEC00), (83, 0)] 3) .RAMP_LIMIT_HIGH = some 0x1EC000000 := by decide +kernel

theorem witness_FieldWriteChecksWidthThenGate :
    (-1 : Int) < 0 ∧ (2 : Int) ^ fieldWidth (sPU 1).cfg .MULT ≤ 32 ∧ (31 : Int) < 2 ^ fieldWidth (sPU 1).cfg .MULT ∧
    (fieldParts (sPU 1).cfg .MULT).all partFull = false ∧ readbackOk (sPU 1) = false := by decide +kernel

/-- PLL_NUM, two whole registers, with readback locked; RAMP_THRESH at its largest value, with a partial part, unlocked. -/
theorem witness_FieldWriteStoresTheValue :
    (paramsOk (sPU 2).cfg = true ∧ fieldAccessible (sPU 2).cfg .PLL_NUM ∧ notInR0 (sPU 2).cfg .PLL_NUM ∧
      (4294967295 : Int) < 2 ^ fieldWidth (sPU 2).cfg .PLL_NUM ∧ (fieldParts (sPU 2).cfg .PLL_NUM).all partFull = true ∧
      noFcalHazard ((fieldParts (sPU 2).cfg .PLL_NUM).map Part.addr) (sPU 2) ∧
      transportOk (fieldWrites (sPU 2).cfg .PLL_NUM) (sPU 2)) ∧
    (fieldAccessible (sU [(78, 7)] 4).cfg .RAMP_THRESH ∧ notInR0 (sU [(78, 7)] 4).cfg .RAMP_THRESH ∧
      (8589934591 : Int) < 2 ^ fieldWidth (sU [(78, 7)] 4).cfg .RAMP_THRESH ∧ readbackOk (sU [(78, 7)] 4) = true ∧
      noFcalHazard ((fieldParts (sU [(78, 7)] 4).cfg .RAMP_THRESH).map Part.addr) (sU [(78, 7)] 4) ∧
      transportOk (fieldWrites (sU [(78, 7)] 4).cfg .RAMP_THRESH) (sU [(78, 7)] 4)) := by decide +kernel

theorem witness_FieldReadsBackWhatWasWritten :
    transportOk (fieldWrites (sU [] 7).cfg .RAMP_THRESH + (fieldParts (sU [] 7).cfg .RAMP_THRESH).length) (sU [] 7) ∧
    readbackOk (sU [] 7) = true ∧ noFcalHazard ((fieldParts (sU [] 7).cfg .RAMP_THRESH).map Part.addr) (sU [] 7) := by
  decide +kernel

theorem witness_ReadGroupReadsItsFields :
    GroupId.inputPath ≠ .status ∧ paramsOk (sP2 4).cfg = true ∧
    (∀ f ∈ groupFields .inputPath, fieldAccessible (sP2 4).cfg f) ∧
    transportOk ((groupFields .inputPath).map fun f => (fieldParts (sP2 4).cfg f).length).sum (sP2 4) ∧
    readbackOk (sP2 4) = true ∧ fieldValue (sP2 4) .PLL_R = some 10 := by decide +kernel

theorem witness_StatusGroupIsThreeDraws :
    accessible (sPU 3).cfg 110 ∧ accessible (sPU 3).cfg 111 ∧ accessible (sPU 3).cfg 112 ∧ transportOk 3 (sPU 3) := by
  decide +kernel

/-- Both divisors nonzero, PLL_R_PRE zero, and PLL_R alone zero. -/
theorem witness_GetFpdComputesThePhaseDetectorFrequency :
    (∀ a ∈ [9, 12, 10, 11], accessible (sP2 4).cfg a) ∧
    (∀ s ∈ [sP2 4, sU [(9, 0), (10, 0x80), (11, 0xA0), (12, 0)] 4, sU [(9, 0), (10, 0x80), (11, 0), (12, 1)] 4],
      readbackOk s = true ∧ fieldValue s .OSC_2X = some 0 ∧ fieldValue s .MULT = some 1 ∧ transportOk 4 s) ∧
    (fieldValue (sP2 4) .PLL_R_PRE = some 1 ∧ fieldValue (sP2 4) .PLL_R = some 10) ∧
    fieldValue (sU [(9, 0), (10, 0x80), (11, 0xA0), (12, 0)] 4) .PLL_R_PRE = some 0 ∧
    (fieldValue (sU [(9, 0), (10, 0x80), (11, 0), (12, 1)] 4) .PLL_R_PRE = some 1 ∧
      fieldValue (sU [(9, 0), (10, 0x80), (11, 0), (12, 1)] 4) .PLL_R = some 0) := by decide +kernel

/-- The state of the plan with another divider denominator. -/
def sDen (den : Word) (k : Nat) : State := { sP2 k with x := regSet (sP2 k).x 39 den }

theorem witness_GetFvcoComputesTheVcoFrequency :
    ∀ s ∈ [sP2 10, sDen 0 10],
      ((∀ a ∈ planAddrs, accessible s.cfg a) ∧ readbackOk s = true ∧ transportOk 10 s) ∧
      (fieldValue s .OSC_2X = some 0 ∧ fieldValue s .PLL_R_PRE = some 1 ∧ fieldValue s .MULT = some 1 ∧
        fieldValue s .PLL_R = some 10 ∧ fieldValue s .PLL_N = some 100 ∧ fieldValue s .PLL_NUM = some 0) ∧
      (fieldValue (sP2 10) .PLL_DEN = some 1 ∧ fieldValue (sDen 0 10) .PLL_DEN = some 0) := by decide +kernel

/-- PLL_R_PRE zero, both zero, PLL_R alone zero; and PLL_DEN zero with the two not. -/
theorem witness_ZeroDivisorEndsThePlanReads :
    (∀ s ∈ [sU [(9, 0), (10, 0x80), (11, 0xA0), (12, 0)] 4, sU [(9, 0), (10, 0x80), (11, 0), (12, 0)] 4,
        sU [(9, 0), (10, 0x80), (11, 0), (12, 1)] 4],
      (∀ a ∈ [9, 12, 10, 11], accessible s.cfg a) ∧ readbackOk s = true ∧ fieldValue s .OSC_2X = some 0 ∧
      fieldValue s .MULT = some 1 ∧ (fieldValue s .PLL_R_PRE = some 0 ∨ fieldValue s .PLL_R = some 0) ∧
      (fieldValue s .PLL_R_PRE).isSome ∧ (fieldValue s .PLL_R).isSome ∧ transportOk 4 s) ∧
    ((∀ a ∈ planAddrs, accessible (sDen 0 10).cfg a) ∧ readbackOk (sDen 0 10) = true ∧
      fieldValue (sDen 0 10) .PLL_R_PRE = some 1 ∧ fieldValue (sDen 0 10) .PLL_R = some 10 ∧
      fieldValue (sDen 0 10) .PLL_N = some 100 ∧ fieldValue (sDen 0 10) .PLL_NUM = some 0 ∧
      fieldValue (sDen 0 10) .PLL_DEN = some 0 ∧ transportOk 10 (sDen 0 10)) := by decide +kernel

/-- Power-up, where every value read is a draw; the known plan, whose divisors are not 0; a plan with PLL_R_PRE 0, and one with
PLL_R 0; a plan with PLL_DEN 0. -/
theorem witness_FrequencyCommandsRunInEveryState :
    (∀ s ∈ [sPU 10, sP2 10, sDen 0 10, sU [(9, 0), (10, 0x80), (11, 0xA0), (12, 0)] 10,
        sU [(9, 0), (10, 0x80), (11, 0), (12, 1)] 10],
      (∀ a ∈ planAddrs, accessible s.cfg a) ∧ transportOk 4 s ∧ transportOk 10 s) ∧
    readbackOk (sPU 10) = false ∧ readbackOk (sP2 10) = true ∧ fieldValue (sP2 10) .PLL_R_PRE = some 1 ∧
    fieldValue (sP2 10) .PLL_R = some 10 := by decide +kernel

theorem witness_GetFsmclkDividesTheReference :
    accessible (sU [(1, 7)] 1).cfg 1 ∧ transportOk 1 (sU [(1, 7)] 1) ∧ readbackOk (sU [(1, 7)] 1) = true ∧
    fieldValue (sU [(1, 7)] 1) .CAL_CLK_DIV = some 7 := by decide +kernel

theorem witness_LimitCodesSumToTheWrap : (10000000 : Rat) ≠ 0 := by decide +kernel

/-- The frequency plan of `plan` is known, readable, and gives 10 MHz and 1 GHz. -/
def PlanKnown (s : State) : Prop :=
  (∀ a ∈ planAddrs, accessible s.cfg a) ∧ readbackOk s = true ∧
  fieldValue s .OSC_2X = some 0 ∧ fieldValue s .PLL_R_PRE = some 1 ∧ fieldValue s .MULT = some 1 ∧
  fieldValue s .PLL_R = some 10 ∧ fieldValue s .PLL_N = some 100 ∧ fieldValue s .PLL_NUM = some 0 ∧
  fieldValue s .PLL_DEN = some 1 ∧ (10000000 : Rat) = s.fOscIn * ((0 : Nat) + 1) / (1 : Nat) * (1 : Nat) / (10 : Nat) ∧
  (1000000000 : Rat) = 10000000 * ((100 : Nat) + ((0 : Nat) : Rat) / (1 : Nat))

/-- The codes of program P4 (95_test_vectors.md) meet the premises on the codes. -/
theorem witness_codes :
    (0 ≤ (1 / 500 : Rat) * 10000000 ∧ (1 / 500 : Rat) * 10000000 ≤ 65535 ∧ 20000 = roundHalfEven (1 / 500 * 10000000)) ∧
    8389 = roundHalfEven ((100000000 : Rat) / 10000000 * 16777216 / (20000 : Int)) ∧
    (0x3FFFDF3B : Int) = (if (true : Bool) then 2 ^ 30 - 8389 else 8389) ∧ (0x3FFFDF3B : Int) ≤ 0x3FFFFFFF ∧
    0x0F000000 = roundHalfEven ((150000000 : Rat) / 10000000 * 16777216) ∧
    0x14000000 = roundHalfEven (((1000000000 : Rat) + 2 * 100000000 - 1000000000) / 10000000 * 16777216) ∧
    0x1EC000000 = roundHalfEven (2 ^ 33 - 16777216 * ((1000000000 : Rat) - (1000000000 - 2 * 100000000)) / 10000000) := by
  decide +kernel

theorem witness_ConfigureRampStagesTheRamp :
    PlanKnown (sP3start 43) ∧ paramsOk (sP3start 43).cfg = true ∧
    (∀ f ∈ rampFields, fieldAccessible (sP3start 43).cfg f) ∧
    (rampFields.Pairwise fun f g => fieldsDisjoint (sP3start 43).cfg f g) ∧ fcalClear (sP3start 43) = true ∧
    transportOk (10 + (rampFields.map (fieldWrites (sP3start 43).cfg)).sum) (sP3start 43) := by
  unfold PlanKnown; decide +kernel

/-- The state of the plan with MULT 0: the phase-detector frequency is 0. -/
def sMult0 (k : Nat) : State := { sP2 k with x := regSet (sP2 k).x 10 0 }

/-- One set of operands per branch, in the order of the checks: too long a ramp; a zero frequency; a zero length; a negative
span, and a span of 0 descending; a negative threshold; a span of 3 GHz; a span of 0 ascending (the low limit wraps). -/
theorem witness_ConfigureRampRejectsBeforeAnyWrite :
    (PlanKnown (sP2 10) ∧ transportOk 10 (sP2 10)) ∧
    (fieldValue (sMult0 10) .MULT = some 0 ∧ readbackOk (sMult0 10) = true ∧ transportOk 10 (sMult0 10)) ∧
    ¬ (7 / 1000 * 10000000 ≤ (65535 : Rat)) ∧ roundHalfEven ((0 : Rat) * 10000000) = 0 ∧
    roundHalfEven ((-1000000 : Rat) / 10000000 * 16777216 / (20000 : Int)) < 0 ∧
    (roundHalfEven ((0 : Rat) / 10000000 * 16777216 / (20000 : Int)) = 0 ∧ (0x3FFFFFFF : Int) < 2 ^ 30 - 0) ∧
    roundHalfEven ((-1 : Rat) / 10000000 * 16777216) = -2 ∧
    (2 ^ 33 ≤ roundHalfEven (((1000000000 : Rat) + 2 * 3000000000 - 1000000000) / 10000000 * 16777216) ∧
      roundHalfEven ((3000000000 : Rat) / 10000000 * 16777216 / (20000 : Int)) ≤ 0x3FFFFFFF) ∧
    roundHalfEven (2 ^ 33 - 16777216 * ((1000000000 : Rat) - (1000000000 - 2 * 0)) / 10000000) = 2 ^ 33 := by
  unfold PlanKnown; decide +kernel

/-- The state of the plan with FCAL_EN 1. -/
def sFcal (k : Nat) : State := stateOf .RAMPING ((0, 0x2418) :: plan) k

theorem witness_ConfigureRampWithFcalSetFaults :
    PlanKnown (sFcal 12) ∧ paramsOk (sFcal 12).cfg = true ∧ accessible (sFcal 12).cfg (sFcal 12).cfg.locRampManual.addr ∧
    fcalClear (sFcal 12) = false ∧ transportOk 12 (sFcal 12) := by
  unfold PlanKnown; decide +kernel

theorem witness_SetDividerProgramsTheDivider :
    (paramsOk (sU [(34, 0xFFFF)] 7).cfg = true ∧
      (∀ a ∈ [34, 36, 42, 43, 38, 39], accessible (sU [(34, 0xFFFF)] 7).cfg a) ∧
      noFcalHazard [34, 36, 42, 43, 38, 39] (sU [(34, 0xFFFF)] 7) ∧ readbackOk (sU [(34, 0xFFFF)] 7) = true ∧
      transportOk 7 (sU [(34, 0xFFFF)] 7)) ∧
    (524287 : Int) < 2 ^ 19 ∧ (4294967295 : Int) < 2 ^ 32 := by decide +kernel

theorem witness_SetDividerChecksItsOperandsFirst :
    ¬ (0 ≤ (524288 : Int) ∧ (524288 : Int) < 2 ^ 19) ∧ ¬ (0 ≤ (-1 : Int) ∧ (-1 : Int) < 2 ^ 32) ∧
    ¬ (0 ≤ (4294967296 : Int) ∧ (4294967296 : Int) < 2 ^ 32) := by decide

theorem witness_SetOutputPowerProgramsItsChannel :
    (∀ a ∈ [44, 45], accessible (sU [(44, 0), (45, 0)] 2).cfg a ∧ noFcalHazard [a] (sU [(44, 0), (45, 0)] 2)) ∧
    readbackOk (sU [(44, 0), (45, 0)] 2) = true ∧ transportOk 2 (sU [(44, 0), (45, 0)] 2) ∧
    (63 : Int) ≤ (sU [(44, 0), (45, 0)] 2).cfg.outPwrMax ∧ ¬ ((64 : Int) ≤ (sU [(44, 0), (45, 0)] 2).cfg.outPwrMax) := by
  decide +kernel

/-- A state with R0 at a word that holds no set RESET bit meets the invariant. -/
theorem inv_stateOf (life : Lifecycle) (w : Word) (k : Nat) (hl : life ≠ .RESET) (hw : w[1] = false) :
    Inv (stateOf life [(0, w)] k) where
  freq_pos := by show (0 : Rat) < 100000000; decide +kernel
  cfg_ok := test_defaultParams_ok
  x_wf := by rfl
  committed_wf := fun _ h => nomatch h
  life_ne_reset := hl
  r0_reset_clear := by
    intro _ v h
    cases (Option.some.inj h : w = v)
    exact hw

/-- FCAL_EN clear (three transactions) and set (five). -/
theorem witness_ArmCommitsTheStagedRamp :
    Inv (stateOf .CONFIGURED [(0, 0x2410)] 5) ∧ Inv (stateOf .RAMPING [(0, 0x2418)] 5) ∧
    ∀ s ∈ [stateOf .CONFIGURED [(0, 0x2410)] 5, stateOf .RAMPING [(0, 0x2418)] 5],
      accessible s.cfg 0 ∧ readbackOk s = true ∧ (regGet s.x 0).isSome ∧ s.nConsistent = true ∧ transportOk 5 s :=
  ⟨inv_stateOf _ _ _ (by decide) (by decide), inv_stateOf _ _ _ (by decide) (by decide), by decide +kernel⟩

/-- FCAL_EN clear and set. -/
theorem witness_ArmWithInconsistentDividerFaults :
    Inv { stateOf .CONFIGURED [(0, 0x2410)] 5 with nConsistent := false } ∧
    Inv { stateOf .READBACK_UNLOCKED [(0, 0x2418)] 5 with nConsistent := false } ∧
    ∀ s ∈ [stateOf .CONFIGURED [(0, 0x2410)] 5, stateOf .READBACK_UNLOCKED [(0, 0x2418)] 5],
      accessible s.cfg 0 ∧ readbackOk { s with nConsistent := false } = true ∧ (regGet s.x 0).isSome ∧ transportOk 5 s :=
  have h := inv_stateOf .CONFIGURED 0x2410 5 (by decide) (by decide)
  have k := inv_stateOf .READBACK_UNLOCKED 0x2418 5 (by decide) (by decide)
  ⟨⟨h.1, h.2, h.3, h.4, h.5, h.6⟩, ⟨k.1, k.2, k.3, k.4, k.5, k.6⟩, by decide +kernel⟩

theorem witness_FrameOutsideTheRegistersIsNeverSent : 113 ≤ (113 : BusAddr).toNat ∧ 113 ≤ (127 : BusAddr).toNat := by decide

theorem witness_StepRunsTheDecodedInstruction :
    paramsOk defaultParams = true ∧ stuckOn (sPU 1) = none ∧ decode (.command 0x10 []) = .ok .unlock ∧
    decode (.frame [0xF0]) = .ok (.readFrame 112) := by decide +kernel

/-- A run with a fault recorded, and one with only REFUSED recorded and no request. -/
theorem witness_StuckRunHasNoStepAndIdleBlockWaits :
    isFault (.locked .arm) = true ∧ isFault (.refused (.command 0 [])) = false ∧ (sPU 1).requests = [] ∧
    paramsOk (sPU 1).cfg = true := by decide +kernel

/-- A locked readback that moves: the unlock word goes out, and the lifecycle is unlocked. -/
theorem witness_LifecycleMovesForwardButForReset :
    ({ sPU 1 with requests := [.command 0x10 []] } : State).life = .READBACK_LOCKED ∧
    (afterStep { sPU 1 with requests := [.command 0x10 []] }).life = .READBACK_UNLOCKED ∧
    writeTransaction 0 0x2410 ∈ (afterStep { sPU 1 with requests := [.command 0x10 []] }).trace := by decide +kernel

/-- A step from a state of the invariant that answers a next state, commits a ramp and moves the lifecycle (for the statements
about every step). -/
theorem witness_everyStep :
    Inv { stateOf .CONFIGURED [(0, 0x2410)] 5 with requests := [.command 0x11 []] } ∧
    (afterStep { stateOf .CONFIGURED [(0, 0x2410)] 5 with requests := [.command 0x11 []] }).life = .RAMPING ∧
    (afterStep { stateOf .CONFIGURED [(0, 0x2410)] 5 with requests := [.command 0x11 []] }).committed ≠
      ({ stateOf .CONFIGURED [(0, 0x2410)] 5 with requests := [.command 0x11 []] } : State).committed :=
  have h := inv_stateOf .CONFIGURED 0x2410 5 (by decide) (by decide)
  ⟨⟨h.1, h.2, h.3, h.4, h.5, h.6⟩, by decide +kernel, by decide +kernel⟩

/-- E_ADDR without a transaction, E_PARAM after CONFIGURE_RAMP's ten reads. -/
theorem witness_AddressAndParameterErrorsArePrecise :
    paramsOk (sP2 10).cfg = true ∧ (after (.read 113) (sPU 1)).result = some (.error (.addr 113)) ∧
    (after (.configureRamp 100000000 (7 / 1000) 150000000 true false) (sP2 10)).trace.length = 10 := by decide +kernel

/-- A transport whose first answer is a fault; a register, a part of PLL_N, and R0 with RESET, with FCAL_EN, with both (log 11)
and with neither. -/
theorem witness_FailedTransactionLeavesTheDeviceUncertain :
    ({ sU [] 0 with transport := [.fault .noResponse] } : State).transport = .fault .noResponse :: [] ∧
    (∀ a ∈ [0, 34, 36, 60], a < 110 ∧ accessible (sU [] 0).cfg a) ∧
    ((0x2412 : Word)[1] = true ∧ (0x2418 : Word)[1] = false ∧ (0x2418 : Word)[3] = true ∧ (0 : Word)[3] = false ∧
      (0x241A : Word)[1] = true ∧ (0x241A : Word)[3] = true) ∧
    (after (.write 34 1) { sU [] 0 with transport := [.fault .noResponse] }).result = some (.error (.bus .noResponse 1)) := by
  decide +kernel

/-- The premise of the statements about the reading commands: they answer a next state. -/
theorem witness_ReadingCommandsChangeNothing_BusFaultEndsTheCommand :
    (∃ t, exec (.readGroup .status) (sPU 3) = .next t) ∧ (∃ t, exec .getFsmclk (sPU 1) = .next t) :=
  ⟨⟨_, rfl⟩, ⟨_, rfl⟩⟩

end Sys2Proof.Tests
end

/-!
PROOFS. The statements about 00_scope.md: ROUND (R13), and the step that runs one whole request (R5).
-/

namespace Sys2Proof.Machine

/-! ## ROUND -/

/-- Below the midpoint ROUND goes down. -/
theorem roundHalfEven_of_lt_half {q : Rat} (h : q - ⌊q⌋ < 1 / 2) : roundHalfEven q = ⌊q⌋ := if_pos h

/-- Above the midpoint ROUND goes up. -/
theorem roundHalfEven_of_half_lt {q : Rat} (h : 1 / 2 < q - ⌊q⌋) : roundHalfEven q = ⌊q⌋ + 1 :=
  (if_neg h.not_gt).trans (if_pos h)

/-- At the midpoint ROUND goes up exactly when the integer below is odd (log 6). -/
theorem roundHalfEven_of_eq_half {q : Rat} (h : q - ⌊q⌋ = 1 / 2) : roundHalfEven q = ⌊q⌋ + ⌊q⌋ % 2 := by
  have tie : roundHalfEven q = if ⌊q⌋ % 2 = 0 then ⌊q⌋ else ⌊q⌋ + 1 :=
    (if_neg h.not_lt).trans (if_neg h.not_gt)
  split at tie <;> omega

/-- A tie goes to an even integer. -/
theorem roundHalfEven_even_of_eq_half {q : Rat} (h : q - ⌊q⌋ = 1 / 2) : roundHalfEven q % 2 = 0 := by
  rw [roundHalfEven_of_eq_half h]; omega

/-- Off a tie ROUND is nearer than one half. -/
theorem abs_roundHalfEven_sub_lt {q : Rat} (h : q - ⌊q⌋ ≠ 1 / 2) : |(roundHalfEven q : Rat) - q| < 1 / 2 := by
  have floor_le := Int.floor_le q
  have lt_floor := Int.lt_floor_add_one q
  rw [abs_lt]
  rcases lt_or_gt_of_ne h with below | above
  · rw [roundHalfEven_of_lt_half below]
    constructor <;> linarith
  · rw [roundHalfEven_of_half_lt above]
    push_cast
    constructor <;> linarith

/-- On a tie both neighbours, and so ROUND, are one half away. -/
theorem abs_roundHalfEven_sub_eq {q : Rat} (h : q - ⌊q⌋ = 1 / 2) : |(roundHalfEven q : Rat) - q| = 1 / 2 := by
  rw [roundHalfEven_of_eq_half h, abs_eq (by norm_num)]
  rcases Int.emod_two_eq_zero_or_one ⌊q⌋ with even | odd
  · rw [even]
    push_cast
    right; linarith
  · rw [odd]
    push_cast
    left; linarith

/-! ## The step -/

/-- The host's next request is accepted: it leaves the queue. -/
theorem fetch_of_requests {s : State} {r : Request} {rest : List Request} (h : s.requests = r :: rest) :
    fetch s = some (r, { s with requests := rest }) := by
  simp only [fetch, h]

/-- With the configuration in order and no fault recorded, a step is what the machine does with the accepted request. -/
theorem step_of_requests {s : State} {r : Request} {rest : List Request} (hcfg : paramsOk s.cfg = true)
    (hstuck : stuckOn s = none) (h : s.requests = r :: rest) : step s = stepRequest r { s with requests := rest } := by
  simp only [step, hcfg, if_true, hstuck, fetch_of_requests h]

/-- A request that decodes is executed. -/
theorem stepRequest_of_decode {r : Request} {i : Instr} (h : decode r = .ok i) (s : State) : stepRequest r s = exec i s := by
  simp only [stepRequest, h]

end Sys2Proof.Machine

namespace Sys2Proof.Proofs

open Sys2Proof.Machine

/-- Settles O37: on a tie ROUND is even and exactly one half away, off a tie it is nearer than one half. -/
theorem roundIsNearestTiesToEven : Obligations.RoundIsNearestTiesToEven := by
  intro q
  by_cases tie : q - ⌊q⌋ = 1 / 2
  · exact ⟨(abs_roundHalfEven_sub_eq tie).le, fun _ => roundHalfEven_even_of_eq_half tie⟩
  · have nearer := abs_roundHalfEven_sub_lt tie
    exact ⟨nearer.le, fun half => absurd half nearer.ne⟩

/-- Settles O49: the step accepts the request, and a request that decodes is executed. -/
theorem stepRunsTheDecodedInstruction : Obligations.StepRunsTheDecodedInstruction := by
  intro s r rest i hcfg hstuck hreq hdec
  rw [step_of_requests hcfg hstuck hreq, stepRequest_of_decode hdec]

end Sys2Proof.Proofs

/-!
PROOFS. The statements about 10_state.md: what every step keeps of the controller and the device (R21, R24, R25, R36, R50), and
the read-only status registers (R27).
-/

namespace Sys2Proof.Machine

open Sys2Proof.Safety

/-! ## What holds of the state a part leaves, however it ends -/

/-- `P` holds of the state that the part leaves, with a value, an error or a fault. -/
abbrev Reply.Leaves {α : Type} (r : Reply α) (P : State → Prop) : Prop := r.Sat P (fun _ => P) (fun _ => P)

theorem Reply.Leaves.mono {α : Type} {r : Reply α} {P Q : State → Prop} (h : r.Leaves P) (hPQ : ∀ u, P u → Q u) :
    r.Leaves Q :=
  Reply.Sat.mono h hPQ (fun _ => hPQ) (fun _ => hPQ)

/-- `t` is `u` at the end of its command: the result is set, and at most one record is appended to `faults` (60_exceptions.md
R230, R234, R237). -/
def Ended (u t : State) : Prop :=
  ∃ r, t = { u with result := r } ∨ ∃ f, t = { u with result := r, faults := u.faults ++ [f] }

theorem ended_finish {P : State → Prop} {r : Reply Value} (h : r.Leaves P) : ∃ u, P u ∧ Ended u r.finish := by
  cases r with
  | ok v u => exact ⟨u, h, _, .inl rfl⟩
  | error e u => exact ⟨u, h, _, .inl rfl⟩
  | fault f u => exact ⟨u, h, _, .inr ⟨f, rfl⟩⟩

theorem ended_refuseRequest (s : State) (r : Request) : Ended s.begin (s.refuseRequest r) := ⟨_, .inr ⟨_, rfl⟩⟩

/-! What the end of a command leaves alone. -/

theorem Ended.fOscIn {u t : State} (h : Ended u t) : t.fOscIn = u.fOscIn := by
  obtain ⟨_, rfl | ⟨_, rfl⟩⟩ := h <;> rfl

theorem Ended.cfg {u t : State} (h : Ended u t) : t.cfg = u.cfg := by
  obtain ⟨_, rfl | ⟨_, rfl⟩⟩ := h <;> rfl

theorem Ended.life {u t : State} (h : Ended u t) : t.life = u.life := by
  obtain ⟨_, rfl | ⟨_, rfl⟩⟩ := h <;> rfl

theorem Ended.device {u t : State} (h : Ended u t) : SameDevice u t := by
  obtain ⟨_, rfl | ⟨_, rfl⟩⟩ := h <;> exact ⟨rfl, rfl, rfl⟩

theorem Ended.trace {u t : State} (h : Ended u t) : t.trace = u.trace := by
  obtain ⟨_, rfl | ⟨_, rfl⟩⟩ := h <;> rfl

theorem Ended.faults {u t : State} (h : Ended u t) : t.faults = u.faults ∨ ∃ f, t.faults = u.faults ++ [f] := by
  obtain ⟨_, rfl | ⟨f, rfl⟩⟩ := h
  · exact .inl rfl
  · exact .inr ⟨f, rfl⟩

/-! ## What a step leaves -/

/-- `s₀` is `s` at the start of a command: the request has been accepted and the trace is empty. -/
structure Started (s s₀ : State) : Prop where
  fOscIn : s₀.fOscIn = s.fOscIn
  faults : s₀.faults = s.faults
  cfg : s₀.cfg = s.cfg
  life : s₀.life = s.life
  device : SameDevice s s₀
  trace : s₀.trace = []

theorem started_begin (s : State) (rest : List Request) : Started s ({ s with requests := rest } : State).begin :=
  ⟨rfl, rfl, rfl, rfl, ⟨rfl, rfl, rfl⟩, rfl⟩

/-- A step waits, or ends a command: what holds at the command's start and after every body holds of the state that ended. -/
theorem step_ended {P : State → Prop} {s t : State} (hstep : step s = .next t) (start : ∀ s₀, Started s s₀ → P s₀)
    (body : ∀ i s₀, Started s s₀ → (bodyOf i s₀).Leaves P) : t = s ∨ ∃ u, P u ∧ Ended u t := by
  obtain ⟨_, _, ⟨_, waits⟩ | ⟨r, rest, _, ⟨i, _, rfl⟩ | ⟨_, _, _, rfl⟩⟩⟩ := step_next_cases hstep
  · exact .inl waits
  · exact .inr (ended_finish (body i _ (started_begin s rest)))
  · exact .inr ⟨_, start _ (started_begin s rest), ended_refuseRequest _ r⟩

/-- The same for what every read and every write transaction keeps. -/
theorem step_keeps {P : State → Prop} {s t : State} (hstep : step s = .next t) (start : ∀ s₀, Started s s₀ → P s₀)
    (closed : Closed P (fun _ => P) fun _ => P) : t = s ∨ ∃ u, P u ∧ Ended u t :=
  step_ended hstep start fun i s₀ h₀ => bodyOf_sat closed i s₀ (start s₀ h₀)

/-! ## What one transaction leaves, whether or not it succeeds -/

section
variable {l : List Transaction} {s t : State} (h : Ran l s t)
include h

/-! The operations on device and lifecycle put nothing on the bus and leave the rest of the controller alone. -/

theorem Ran.drawn : Ran l s t.drawn := h.of_fields rfl rfl rfl rfl rfl rfl rfl

theorem Ran.storeWord (a : Nat) (v : Word) : Ran l s (t.storeWord a v) := h.of_fields rfl rfl rfl rfl rfl rfl rfl

theorem Ran.commit : Ran l s t.commit := h.of_fields rfl rfl rfl rfl rfl rfl rfl

theorem Ran.deviceReset : Ran l s t.deviceReset := h.of_fields rfl rfl rfl rfl rfl rfl rfl

theorem Ran.lifeUpdate (a : Nat) (v : Word) (edge : Bool) : Ran l s (t.lifeUpdate a v edge) :=
  h.of_fields rfl rfl rfl rfl rfl rfl rfl

theorem Ran.writeFailed (a : Nat) (v : Word) : Ran l s (t.writeFailed a v) := by
  unfold State.writeFailed
  split_ifs <;> exact h.of_fields rfl rfl rfl rfl rfl rfl rfl

end

/-- A read transaction puts one frame on the bus and changes neither controller nor device (20_memory.md R67, R69). -/
theorem memRead_looked (a : Nat) (s : State) : (memRead a s).Leaves fun u => ∃ x, Looked [x] s u := by
  obtain ⟨_, e⟩ | ⟨info, _, e⟩ := memRead_cases a s <;> rw [e]
  · obtain h | h := deviceRead_state a s <;> rw [h]
    · exact ⟨_, ran_logged s _, rfl, ⟨rfl, rfl, rfl⟩⟩
    · exact ⟨_, (Ran.refl s).drawn.trans (ran_logged s.drawn _), rfl, ⟨rfl, rfl, rfl⟩⟩
  · exact ⟨_, ran_logged s _, rfl, ⟨rfl, rfl, rfl⟩⟩

/-- What only reads is kept by a predicate that looking at the device does not disturb. -/
theorem readClosed_of_looked {P : State → Prop} (looked : ∀ x s u, P s → Looked [x] s u → P u) :
    ReadClosed P (fun _ => P) fun _ => P where
  read a s hs := (memRead_looked a s).mono fun u ⟨x, h⟩ => looked x s u hs h
  addr _ _ hs := hs
  param _ _ _ hs := hs
  fault _ _ _ hs := hs

/-- A write of R0 is an edge of FCAL_EN only if its word has FCAL_EN set (44_lifecycle.md R213). -/
theorem fcalEn_of_edgeOf {v : Word} {s s₁ : State} (h : edgeOf v s = (true, s₁)) : v[3] = true := by
  unfold edgeOf riseKnown at h
  cases hg : regGet s.x 0 <;> cases hv : v[3] <;> simp_all

/-- What a write of `v` to register `a` leaves of controller, lifecycle and snapshot, however it ends: its frame has been sent, the
lifecycle follows R210 if it succeeded, and only a write of R0 with RESET or FCAL_EN set touches the snapshot (20_memory.md R66,
R69; 44_lifecycle.md R210 to R214). -/
structure Wrote (a : Nat) (v : Word) (s u : State) : Prop where
  ran : ∃ x, Ran [x] s u ∧ x.sent = (writeTransaction a v).sent
  life : u.life = s.life ∨ (writeTransaction a v ∈ u.trace ∧ ∃ edge, u.life = lifeAfterWrite s.life a v edge)
  committed : u.committed = s.committed ∨ (a = 0 ∧ (v[1] = true ∨ v[3] = true))

/-- A failed write leaves the lifecycle as the controller tracks it (20_memory.md R69). -/
theorem writeFailed_life (s : State) (a : Nat) (v : Word) : (s.writeFailed a v).life = s.life := by
  unfold State.writeFailed
  split_ifs <;> rfl

theorem writeFailed_committed (s : State) (a : Nat) (v : Word) :
    (s.writeFailed a v).committed = s.committed ∨ (a = 0 ∧ (v[1] = true ∨ v[3] = true)) := by
  unfold State.writeFailed
  split_ifs with h0 h1 h3 <;> simp [*]

/-- What the device makes of a write whose frame went out. -/
theorem wrote_of_logged {a : Nat} {v : Word} {s u : State} (ran : Ran [] (s.logged (writeTransaction a v)) u)
    (life : u.life = s.life ∨ ∃ edge, u.life = lifeAfterWrite s.life a v edge)
    (committed : u.committed = s.committed ∨ (a = 0 ∧ (v[1] = true ∨ v[3] = true))) : Wrote a v s u where
  ran := ⟨writeTransaction a v, (ran_logged s _).trans ran, rfl⟩
  life := life.imp_right fun h => ⟨by rw [ran.trace]; simp, h⟩
  committed := committed

theorem wrote_maybeStored {a : Nat} {v : Word} {s s₁ : State} (b : Nat) (ran : Ran [] (s.logged (writeTransaction a v)) s₁)
    (life : s₁.life = s.life) (committed : s₁.committed = s.committed) : Wrote a v s (s₁.maybeStored b v) :=
  maybeStored_ind s₁ b v (wrote_of_logged (ran.drawn.storeWord b v) (.inl life) (.inl committed))
    (wrote_of_logged ran.drawn (.inl life) (.inl committed))

theorem memWrite_wrote (a : Nat) (v : Word) (s : State) (ha : a < 110) : (memWrite a v s).Leaves (Wrote a v s) := by
  have frame := writeFrameBytes_busAddr a v (by omega)
  refine memWrite_sat_of a v s (fun info _ => ?failed) fun s' hs' _ => ?succeeded
  case failed =>
    exact ⟨⟨_, (ran_logged s _).writeFailed a v, frame⟩, .inl (writeFailed_life _ a v), writeFailed_committed _ a v⟩
  case succeeded =>
    have logged : s' = s.logged (writeTransaction a v) := by rw [hs', frame]; rfl
    subst logged
    have ran := Ran.refl (s.logged (writeTransaction a v))
    refine ⟨fun _ => ?hazard, fun _ _ => ?plain, ?reset, ?R0⟩
    case hazard => exact wrote_maybeStored a ran rfl rfl
    case plain => exact wrote_of_logged ((ran.storeWord a v).lifeUpdate a v false) (.inr ⟨false, rfl⟩) (.inl rfl)
    case reset =>
      rintro - rfl reset
      exact wrote_of_logged (ran.deviceReset.lifeUpdate 0 v false) (.inr ⟨false, rfl⟩) (.inr ⟨rfl, .inl reset⟩)
    case R0 =>
      rintro s₁ edge - rfl - hedge same
      have ran₁ : Ran [] (s.logged (writeTransaction 0 v)) s₁ := by
        obtain rfl | rfl := same
        · exact ran
        · exact ran.drawn
      have life : s₁.life = s.life := by obtain rfl | rfl := same <;> rfl
      have committed : s₁.committed = s.committed := by obtain rfl | rfl := same <;> rfl
      refine ⟨?_, fun _ _ => wrote_maybeStored 0 ran₁ life committed, fun _ => ?_⟩
      · rintro rfl -
        exact wrote_of_logged (((ran₁.storeWord 0 v).commit).lifeUpdate 0 v true) (.inr ⟨true, by simp [life]⟩)
          (.inr ⟨rfl, .inr (fcalEn_of_edgeOf hedge)⟩)
      · exact wrote_of_logged ((ran₁.storeWord 0 v).lifeUpdate 0 v false) (.inr ⟨false, by simp [life]⟩) (.inl committed)

/-- What every transaction keeps: a predicate that looking does not disturb and that a write's effects keep. -/
theorem closed_of_wrote {P : State → Prop} (looked : ∀ x s u, P s → Looked [x] s u → P u)
    (wrote : ∀ a v s u, P s → Wrote a v s u → P u) : Closed P (fun _ => P) fun _ => P where
  toReadClosed := readClosed_of_looked looked
  write a v s ha hs := (memWrite_wrote a v s ha).mono fun u h => wrote a v s u hs h

/-! ## The construction arguments and the recorded faults -/

/-- The construction arguments and the recorded faults are as they were. -/
def ConstructionKept (s u : State) : Prop := u.fOscIn = s.fOscIn ∧ u.cfg = s.cfg ∧ u.faults = s.faults

theorem ConstructionKept.ran {l : List Transaction} {s t u : State} (h : ConstructionKept s t) (ran : Ran l t u) :
    ConstructionKept s u := by
  obtain ⟨fOscIn, cfg, faults⟩ := h
  exact ⟨ran.controller.fOscIn.trans fOscIn, ran.controller.cfg.trans cfg, ran.controller.faults.trans faults⟩

theorem constructionKept_closed (s : State) :
    Closed (ConstructionKept s) (fun _ => ConstructionKept s) fun _ => ConstructionKept s :=
  closed_of_wrote (fun _ _ _ h looked => h.ran looked.ran) fun _ _ _ _ h ⟨⟨_, ran, _⟩, _, _⟩ => h.ran ran

/-! ## The committed snapshot -/

/-- A write frame of R0 with FCAL_EN or RESET set is in the trace. -/
def CommitFrameSent (u : State) : Prop :=
  ∃ (v : Word) (x : Transaction), x ∈ u.trace ∧ x.sent = (writeTransaction 0 v).sent ∧ (v[1] = true ∨ v[3] = true)

theorem CommitFrameSent.of_trace {l : List Transaction} {s u : State} (h : CommitFrameSent s) (trace : u.trace = s.trace ++ l) :
    CommitFrameSent u := by
  obtain ⟨v, x, mem, sent, bits⟩ := h
  exact ⟨v, x, by rw [trace]; exact List.mem_append_left _ mem, sent, bits⟩

/-- The snapshot is as it was, or a frame that may change it went out. -/
def CommittedKept (s u : State) : Prop := u.committed = s.committed ∨ CommitFrameSent u

theorem committedKept_closed (s : State) : Closed (CommittedKept s) (fun _ => CommittedKept s) fun _ => CommittedKept s := by
  refine closed_of_wrote (fun x t u h looked => ?_) fun a v t u h wrote => ?_
  · exact h.imp looked.device.committed.trans fun sent => sent.of_trace looked.ran.trace
  · obtain ⟨⟨x, ran, frame⟩, _, committed⟩ := wrote
    obtain same | sent := h
    · obtain kept | ⟨rfl, bits⟩ := committed
      · exact .inl (kept.trans same)
      · exact .inr ⟨v, x, by rw [ran.trace]; simp, frame, bits⟩
    · exact .inr (sent.of_trace ran.trace)

/-! ## The lifecycle once readback is unlocked -/

/-- The lifecycle stands where it stood or further on (10_state.md R24). -/
def Forward (l m : Lifecycle) : Prop :=
  m = l ∨ (l = .READBACK_UNLOCKED ∧ (m = .CONFIGURED ∨ m = .RAMPING)) ∨ (l = .CONFIGURED ∧ m = .RAMPING)

/-- A successful write of R0 with RESET set is in the trace. -/
def ResetSent (u : State) : Prop := ∃ v : Word, v[1] = true ∧ writeTransaction 0 v ∈ u.trace

theorem ResetSent.of_trace {l : List Transaction} {s u : State} (h : ResetSent s) (trace : u.trace = s.trace ++ l) :
    ResetSent u := by
  obtain ⟨v, reset, mem⟩ := h
  exact ⟨v, reset, by rw [trace]; exact List.mem_append_left _ mem⟩

theorem Forward.trans {l m n : Lifecycle} (h : Forward l m) (k : Forward m n) : Forward l n := by
  obtain rfl | ⟨rfl, rfl | rfl⟩ | ⟨rfl, rfl⟩ := h <;> simp_all [Forward]

theorem Forward.unlocked {l m : Lifecycle} (h : Forward l m) (unlocked : l ≠ .READBACK_LOCKED) : m ≠ .READBACK_LOCKED := by
  obtain rfl | ⟨_, rfl | rfl⟩ | ⟨_, rfl⟩ := h
  · exact unlocked
  all_goals decide

/-- Once readback is unlocked a write that is no reset moves only forward (44_lifecycle.md R210). -/
theorem forward_lifeAfterWrite {l : Lifecycle} (unlocked : l ≠ .READBACK_LOCKED) {a : Nat} {v : Word}
    (noReset : ¬ (a = 0 ∧ v[1] = true)) (edge : Bool) : Forward l (lifeAfterWrite l a v edge) := by
  unfold lifeAfterWrite
  rw [if_neg noReset]
  cases l with
  | READBACK_LOCKED => exact absurd rfl unlocked
  | READBACK_UNLOCKED => dsimp only; split_ifs <;> simp [Forward]
  | CONFIGURED => dsimp only; split_ifs <;> simp [Forward]
  | RAMPING => exact .inl rfl
  | RESET => exact .inl rfl

/-- The lifecycle has moved only forward, or a reset went out. -/
def MovedForward (l : Lifecycle) (u : State) : Prop := Forward l u.life ∨ ResetSent u

theorem movedForward_closed {l : Lifecycle} (unlocked : l ≠ .READBACK_LOCKED) :
    Closed (MovedForward l) (fun _ => MovedForward l) fun _ => MovedForward l := by
  refine closed_of_wrote (fun x t u h looked => ?_) fun a v t u h wrote => ?_
  · exact h.imp (fun forward => looked.life ▸ forward) fun reset => reset.of_trace looked.ran.trace
  · obtain ⟨⟨x, ran, _⟩, life, _⟩ := wrote
    obtain forward | reset := h
    · obtain same | ⟨sent, edge, written⟩ := life
      · exact .inl (same ▸ forward)
      · by_cases reset : a = 0 ∧ v[1] = true
        · obtain ⟨rfl, bit⟩ := reset
          exact .inr ⟨v, bit, sent⟩
        · exact .inl (written ▸ forward.trans (forward_lifeAfterWrite (forward.unlocked unlocked) reset edge))
    · exact .inr (reset.of_trace ran.trace)

/-! ## The lifecycle while readback is locked -/

/-- Readback is locked, in a checked configuration. -/
def Locked (u : State) : Prop := u.life = .READBACK_LOCKED ∧ paramsOk u.cfg = true

/-- Readback is locked, or it is unlocked and the unlock word went out. -/
def UnlockedByWord (u : State) : Prop :=
  u.life = .READBACK_LOCKED ∨ (u.life = .READBACK_UNLOCKED ∧ writeTransaction 0 unlockWord ∈ u.trace)

theorem Locked.unlockedByWord {u : State} (h : Locked u) : UnlockedByWord u := .inl h.1

theorem Locked.readbackOk {s : State} (h : Locked s) : readbackOk s = false := by
  unfold Machine.readbackOk; rw [h.1]; rfl

/-- Only a write of the unlock word to R0 leaves READBACK_LOCKED (44_lifecycle.md R210, R212). -/
theorem lifeAfterWrite_locked (a : Nat) (v : Word) (edge : Bool) :
    lifeAfterWrite .READBACK_LOCKED a v edge =
      if a = 0 ∧ v = unlockWord then .READBACK_UNLOCKED else .READBACK_LOCKED := by
  unfold lifeAfterWrite
  by_cases unlock : a = 0 ∧ v = unlockWord
  · obtain ⟨rfl, rfl⟩ := unlock
    rfl
  · simp [unlock]

theorem locked_readClosed : ReadClosed Locked (fun _ => Locked) fun _ => Locked :=
  readClosed_of_looked fun _ _ _ h looked => ⟨looked.life.trans h.1, looked.ran.controller.cfg ▸ h.2⟩

/-- One WRITE, whose checks change nothing (41_register_access.md R121, R123). -/
theorem writeRegister_leaves {P : State → Prop} {a : Nat} {w : Word} {s : State} (checked : P s)
    (written : a < 110 → (memWrite a w s).Leaves P) : (writeRegister a w s).Leaves P := by
  unfold writeRegister
  obtain ⟨_, e⟩ | ⟨_, _, e⟩ | ⟨_, _, e⟩ := checkAddr_cases a s <;> rw [e]
  · exact checked
  · exact checked
  · by_cases readOnly : 110 ≤ a
    · simpa [checkWritable, readOnly] using checked
    · simpa [checkWritable, readOnly] using written (by omega)

theorem writeRegister_unlockedByWord (a : Nat) (w : Word) {s : State} (h : Locked s) :
    (writeRegister a w s).Leaves UnlockedByWord := by
  refine writeRegister_leaves h.unlockedByWord fun ha => (memWrite_wrote a w s ha).mono fun u wrote => ?_
  obtain same | ⟨sent, edge, written⟩ := wrote.life
  · exact .inl (same.trans h.1)
  · rw [h.1, lifeAfterWrite_locked] at written
    split_ifs at written with unlock
    · obtain ⟨rfl, rfl⟩ := unlock
      exact .inr ⟨written, sent⟩
    · exact .inl written

theorem writeRegister_locked {a : Nat} (offR0 : a ≠ 0) (w : Word) {s : State} (h : Locked s) :
    (writeRegister a w s).Leaves Locked := by
  refine writeRegister_leaves h fun ha => (memWrite_wrote a w s ha).mono fun u ⟨⟨_, ran, _⟩, life, _⟩ => ⟨?_, ?_⟩
  · obtain same | ⟨_, edge, written⟩ := life
    · exact same.trans h.1
    · simpa [h.1, lifeAfterWrite_locked, offR0] using written
  · exact ran.controller.cfg ▸ h.2

/-! Every command but the single writes keeps a locked readback locked: it only reads, or its gate faults (41_register_access.md
R120), or it is a FIELD_WRITE of whole registers, none of which is R0. -/

/-- The gate faults while readback is locked. -/
theorem checkReadback_andThen_locked {β : Type} (c : LockedCommand) {s : State} (h : Locked s) (k : Unit → State → Reply β) :
    ((checkReadback c s).andThen k).Leaves Locked := by
  simpa [checkReadback, h.readbackOk] using h

theorem requireParam_locked (check : Bool) (name : ParamCheck) (value : Rat) {s : State} (h : Locked s) :
    (requireParam check name value s).Leaves Locked :=
  requireParam_sat check name value s h fun _ => h

theorem modifyRegister_locked (a : Nat) (low high : Int) (d : Nat) {s : State} (h : Locked s) :
    (modifyRegister a low high d s).Leaves Locked :=
  (checkRange_sat locked_readClosed low high s h).andThen fun _ s₁ h₁ =>
    (checkAddr_sat locked_readClosed a s₁ h₁).andThen fun _ s₂ h₂ =>
      (faultIf_sat _ _ s₂ h₂ fun _ => h₂).andThen fun _ _ h₃ => checkReadback_andThen_locked _ h₃ _

/-- A part that is a whole register is not in R0 (10_state.md R28 to R30, R34). -/
theorem fieldParts_full_notR0 {p : Params} (h : paramsOk p = true) {f : FieldId} {q : Part} (mem : q ∈ fieldParts p f)
    (full : partFull q = true) : q.addr ≠ 0 := by
  obtain ⟨locs, _⟩ := paramsOk_locs p h
  cases f with
  | RAMP0_INC => cases layout : p.incLayout <;> simp only [fieldParts, layout] at mem <;> grind
  | _ => simp only [fieldParts, List.mem_cons, List.not_mem_nil, or_false] at mem; grind [partFull]

theorem writeParts_locked {ps : List Part} (whole : ∀ q ∈ ps, partFull q = true ∧ q.addr ≠ 0) (v : Nat) {s : State}
    (h : Locked s) : (writeParts ps v s).Leaves Locked := by
  induction ps generalizing s with
  | nil => exact h
  | cons p ps ih =>
    obtain ⟨full, offR0⟩ := whole p (by simp)
    rw [writeParts, if_pos full]
    exact (writeRegister_locked offR0 _ h).andThen fun _ _ h₁ => ih (fun q mem => whole q (by simp [mem])) h₁

theorem writeField_locked (f : FieldId) (v : Int) {s : State} (h : Locked s) : (writeField f v s).Leaves Locked := by
  refine (requireParam_locked _ _ _ h).andThen fun _ s₁ h₁ => ?_
  cases whole : (fieldParts s₁.cfg f).all partFull with
  | false => simpa [h₁.readbackOk] using h₁
  | true =>
    refine writeParts_locked (fun q mem => ?_) _ h₁
    have full := List.all_eq_true.mp whole q mem
    exact ⟨full, fieldParts_full_notR0 h₁.2 mem full⟩

theorem setDividerOp_locked (n num den : Int) {s : State} (h : Locked s) : (setDividerOp n num den s).Leaves Locked :=
  (requireParam_locked _ _ _ h).andThen fun _ _ h₁ =>
    (requireParam_locked _ _ _ h₁).andThen fun _ _ h₂ =>
      (requireParam_locked _ _ _ h₂).andThen fun _ _ h₃ => checkReadback_andThen_locked _ h₃ _

theorem setOutputPowerOp_locked (c : Channel) (level : Int) {s : State} (h : Locked s) :
    (setOutputPowerOp c level s).Leaves Locked :=
  (requireParam_locked _ _ _ h).andThen fun _ _ h₁ => writeField_locked _ level h₁

theorem configureRampOp_locked (span duration threshold : Rat) (descending freeRun : Bool) {s : State} (h : Locked s) :
    (configureRampOp span duration threshold descending freeRun s).Leaves Locked :=
  checkReadback_andThen_locked _ h _

theorem armOp_locked {s : State} (h : Locked s) : (armOp s).Leaves Locked := checkReadback_andThen_locked _ h _

/-- A part of a command followed by its answer. -/
theorem answer_leaves {α : Type} {r : Reply α} {P Q : State → Prop} (h : r.Leaves P) (hPQ : ∀ u, P u → Q u)
    (value : α → Value) : (r.andThen fun v u => .ok (value v) u).Leaves Q :=
  (h.mono hPQ).andThen fun _ _ hu => hu

/-- A command that starts while readback is locked unlocks it at most, and then by the unlock word (10_state.md R24,
44_lifecycle.md R212). -/
theorem bodyOf_unlockedByWord (i : Instr) {s : State} (h : Locked s) : (bodyOf i s).Leaves UnlockedByWord := by
  have locked (u : State) : Locked u → UnlockedByWord u := Locked.unlockedByWord
  have reads := locked_readClosed
  cases i with
  | setBits w low high d => exact answer_leaves (setBitsOp_sat reads w low high d s h) locked .word
  | getBits w low high => exact answer_leaves (getBitsOp_sat reads w low high s h) locked .nat
  | read a => exact answer_leaves (readRegister_sat reads a s h) locked .word
  | write a w => exact answer_leaves (writeRegister_unlockedByWord a w h) (fun _ => id) fun _ => .unit
  | modify a low high d => exact answer_leaves (modifyRegister_locked a low high d h) locked fun _ => .unit
  | fieldRead f => exact answer_leaves (readField_sat reads f s h) locked .nat
  | fieldWrite f v => exact answer_leaves (writeField_locked f v h) locked fun _ => .unit
  | readGroup g => exact Reply.Leaves.mono (readGroupOp_sat reads g s h) locked
  | getFpd => exact answer_leaves (computeFpd_sat reads s h) locked .freq
  | getFvco =>
    have fvco : (computeFvco s).Leaves Locked :=
      (computeFpd_sat reads s h).andThen fun fpd s₁ h₁ => fvcoFrom_sat reads fpd s₁ h₁
    exact answer_leaves fvco locked .freq
  | getFsmclk => exact answer_leaves (computeFsmclk_sat reads s h) locked .freq
  | configureRamp span duration threshold descending freeRun =>
    exact answer_leaves (configureRampOp_locked span duration threshold descending freeRun h) locked fun _ => .unit
  | setDivider n num den => exact answer_leaves (setDividerOp_locked n num den h) locked fun _ => .unit
  | setOutputPower c level => exact answer_leaves (setOutputPowerOp_locked c level h) locked fun _ => .unit
  | reset => exact answer_leaves (writeRegister_unlockedByWord 0 _ h) (fun _ => id) fun _ => .unit
  | unlock => exact answer_leaves (writeRegister_unlockedByWord 0 unlockWord h) (fun _ => id) fun _ => .unit
  | arm => exact answer_leaves (armOp_locked h) locked fun _ => .unit
  | writeFrame a w => exact answer_leaves (writeRegister_unlockedByWord a.toNat w h) (fun _ => id) fun _ => .unit
  | readFrame a => exact answer_leaves (readRegister_sat reads a.toNat s h) locked .word

/-! ## The invariant -/

theorem writeFailed_x (s : State) (a : Nat) (v : Word) :
    (s.writeFailed a v).x = [] ∨ (s.writeFailed a v).x = regForget s.x a := by
  unfold State.writeFailed
  split_ifs <;> simp [*]

/-- Of the snapshot a failed write leaves nothing but none, the old one, or the current one (20_memory.md R69). -/
theorem writeFailed_snapshot (s : State) (a : Nat) (v : Word) :
    (s.writeFailed a v).committed = none ∨ (s.writeFailed a v).committed = s.committed ∨
      (s.writeFailed a v).committed = some s.snapshot := by
  unfold State.writeFailed
  split_ifs <;> simp

/-- The invariant holds on in a state that knows of R0 no other word and has no snapshot but the old or the current one. -/
theorem inv_of_less {s t : State} (h : Inv s) (fOscIn : t.fOscIn = s.fOscIn) (cfg : t.cfg = s.cfg) (life : t.life = s.life)
    (x_wf : regWf t.x = true) (r0 : regGet t.x 0 = none ∨ regGet t.x 0 = regGet s.x 0)
    (committed : t.committed = none ∨ t.committed = s.committed ∨ t.committed = some s.snapshot) : Inv t where
  freq_pos := fOscIn ▸ h.freq_pos
  cfg_ok := cfg ▸ h.cfg_ok
  x_wf := x_wf
  committed_wf c hc := by
    rw [cfg]
    obtain gone | old | current := committed
    · simp [gone] at hc
    · exact h.committed_wf c (old ▸ hc)
    · obtain rfl : s.snapshot = c := by simpa [current] using hc
      exact ⟨regWf_restrict _ _ h.x_wf, fun e => mem_regRestrict _ _ e⟩
  life_ne_reset := life ▸ h.life_ne_reset
  r0_reset_clear unlocked w hw := by
    obtain unknown | same := r0
    · simp [unknown] at hw
    · exact h.r0_reset_clear (life ▸ unlocked) w (same ▸ hw)

/-- The invariant speaks of the construction arguments, the lifecycle and the device only. -/
theorem inv_of_sameDevice {s t : State} (h : Inv s) (fOscIn : t.fOscIn = s.fOscIn) (cfg : t.cfg = s.cfg)
    (life : t.life = s.life) (device : SameDevice s t) : Inv t :=
  inv_of_less h fOscIn cfg life (device.x ▸ h.x_wf) (.inr (by rw [device.x])) (.inr (.inl device.committed))

theorem inv_drawn {s : State} (h : Inv s) : Inv s.drawn := inv_of_sameDevice h rfl rfl rfl ⟨rfl, rfl, rfl⟩

theorem inv_logged {s : State} (h : Inv s) (x : Transaction) : Inv (s.logged x) :=
  inv_of_sameDevice h rfl rfl rfl ⟨rfl, rfl, rfl⟩

theorem inv_commit {s : State} (h : Inv s) : Inv s.commit :=
  inv_of_less h rfl rfl rfl h.x_wf (.inr rfl) (.inr (.inr rfl))

theorem inv_writeFailed {s : State} (h : Inv s) (a : Nat) (v : Word) : Inv (s.writeFailed a v) := by
  obtain ⟨controller, _, _, _⟩ := (Ran.refl s).writeFailed a v
  refine inv_of_less h controller.fOscIn controller.cfg (writeFailed_life s a v) ?_ ?_ (writeFailed_snapshot s a v)
  · obtain e | e := writeFailed_x s a v <;> rw [e]
    · rfl
    · exact regWf_forget _ _ h.x_wf
  · obtain e | e := writeFailed_x s a v <;> rw [e]
    · exact .inl rfl
    · rw [regGet_forget]
      split_ifs
      · exact .inl rfl
      · exact .inr rfl

/-- No write leaves the lifecycle in RESET (10_state.md R24). -/
theorem lifeAfterWrite_ne_reset {l : Lifecycle} (h : l ≠ .RESET) (a : Nat) (v : Word) (edge : Bool) :
    lifeAfterWrite l a v edge ≠ .RESET := by
  unfold lifeAfterWrite
  cases l with
  | RESET => exact absurd rfl h
  | _ => dsimp only; split_ifs <;> decide

/-- A word without RESET may be stored anywhere, with or without the lifecycle update of its write. -/
theorem inv_stored {s t : State} (h : Inv s) {a : Nat} {v : Word} (noReset : a = 0 → v[1] = false)
    (fOscIn : t.fOscIn = s.fOscIn) (cfg : t.cfg = s.cfg) (x : t.x = regSet s.x a v) (committed : t.committed = s.committed)
    (life : t.life = s.life ∨ ∃ edge, t.life = lifeAfterWrite s.life a v edge) : Inv t where
  freq_pos := fOscIn ▸ h.freq_pos
  cfg_ok := cfg ▸ h.cfg_ok
  x_wf := x ▸ regWf_set _ _ _ h.x_wf
  committed_wf := by rw [cfg, committed]; exact h.committed_wf
  life_ne_reset := by
    obtain same | ⟨edge, written⟩ := life
    · exact same ▸ h.life_ne_reset
    · exact written ▸ lifeAfterWrite_ne_reset h.life_ne_reset a v edge
  r0_reset_clear unlocked w hw := by
    by_cases r0 : a = 0
    · subst r0
      rw [x, regGet_set_same _ _ _ (by omega)] at hw
      obtain rfl := Option.some.inj hw
      exact noReset rfl
    · rw [x, regGet_set_other _ _ _ _ (Ne.symm r0)] at hw
      refine h.r0_reset_clear (fun locked => unlocked ?_) w hw
      obtain same | ⟨edge, written⟩ := life
      · exact same.trans locked
      · simpa [locked, lifeAfterWrite_locked, r0] using written

theorem inv_storeWord {s : State} (h : Inv s) {a : Nat} {v : Word} (noReset : a = 0 → v[1] = false) :
    Inv (s.storeWord a v) :=
  inv_stored h noReset rfl rfl rfl rfl (.inl rfl)

theorem inv_storeWord_lifeUpdate {s : State} (h : Inv s) {a : Nat} {v : Word} (noReset : a = 0 → v[1] = false) (edge : Bool) :
    Inv ((s.storeWord a v).lifeUpdate a v edge) :=
  inv_stored h noReset rfl rfl rfl rfl (.inr ⟨edge, rfl⟩)

theorem inv_maybeStored {s : State} (h : Inv s) {a : Nat} {v : Word} (noReset : a = 0 → v[1] = false) :
    Inv (s.maybeStored a v) :=
  maybeStored_ind s a v (inv_storeWord (inv_drawn h) noReset) (inv_drawn h)

/-- A device reset locks readback, whatever RESET_DEFAULTS says of R0 (44_lifecycle.md R211). -/
theorem inv_deviceReset {s : State} (h : Inv s) {v : Word} (reset : v[1] = true) : Inv (s.deviceReset.lifeUpdate 0 v false) := by
  have locked : (s.deviceReset.lifeUpdate 0 v false).life = .READBACK_LOCKED := by simp [lifeAfterWrite, reset]
  obtain ⟨_, _, _, _, defaults_wf⟩ := paramsOk_locs s.cfg h.cfg_ok
  exact
    { freq_pos := h.freq_pos
      cfg_ok := h.cfg_ok
      x_wf := defaults_wf
      committed_wf := fun _ hc => nomatch hc
      life_ne_reset := by rw [locked]; decide
      r0_reset_clear := fun unlocked => absurd locked unlocked }

theorem memWrite_inv (a : Nat) (v : Word) {s : State} (h : Inv s) : (memWrite a v s).Leaves Inv := by
  refine memWrite_sat_of a v s (fun info _ => inv_writeFailed (inv_logged h _) a v) fun s' hs' _ => ?_
  have h' : Inv s' := hs' ▸ inv_logged h _
  refine ⟨fun hazard => ?hazard, fun _ offR0 => ?plain, fun _ _ reset => inv_deviceReset h' reset, ?R0⟩
  case hazard =>
    have offR0 : a ≠ 0 := by
      rintro rfl
      simp [fcalHazard_zero s h.cfg_ok] at hazard
    exact inv_maybeStored h' fun r0 => absurd r0 offR0
  case plain => exact inv_storeWord_lifeUpdate h' (fun r0 => absurd r0 offR0) false
  case R0 =>
    rintro s₁ edge - - noReset - same
    have h₁ : Inv s₁ := by
      obtain rfl | rfl := same
      · exact h'
      · exact inv_drawn h'
    refine ⟨fun _ _ => ?_, fun _ _ => inv_maybeStored h₁ fun _ => noReset, fun _ => ?_⟩
    · exact inv_commit (inv_storeWord_lifeUpdate h₁ (fun _ => noReset) true)
    · exact inv_storeWord_lifeUpdate h₁ (fun _ => noReset) false

theorem inv_closed : Closed Inv (fun _ => Inv) fun _ => Inv where
  toReadClosed := readClosed_of_looked fun _ _ _ h looked =>
    inv_of_sameDevice h looked.ran.controller.fOscIn looked.ran.controller.cfg looked.life looked.device
  write a v _ _ h := memWrite_inv a v h

theorem Started.inv {s s₀ : State} (started : Started s s₀) (h : Inv s) : Inv s₀ :=
  inv_of_sameDevice h started.fOscIn started.cfg started.life started.device

theorem Ended.inv {u t : State} (ended : Ended u t) (h : Inv u) : Inv t :=
  inv_of_sameDevice h ended.fOscIn ended.cfg ended.life ended.device

/-! ## The state at reset -/

theorem fOscIn_pos : 0 < Config.fOscIn := by
  unfold Config.fOscIn
  rw [Rat.mkRat_eq_div]
  positivity

theorem defaultParams_ok : paramsOk defaultParams = true := by rfl

/-! ## The status registers -/

theorem checkWritable_readOnly {a : Nat} (s : State) (h : 110 ≤ a) : checkWritable a s = .fault (.readOnly a) s := by
  simp [checkWritable, h]

theorem writeRegister_readOnly {a : Nat} {s : State} (w : Word) (h : accessible s.cfg a) (ha : 110 ≤ a) :
    writeRegister a w s = .fault (.readOnly a) s := by
  rw [writeRegister, checkAddr_ok h, andThen_ok, checkWritable_readOnly s ha, andThen_fault]

theorem modifyRegister_readOnly {a : Nat} {low high : Int} {s : State} (d : Nat) (h : accessible s.cfg a) (ha : 110 ≤ a)
    (range : 0 ≤ low ∧ low ≤ high ∧ high ≤ 15) : modifyRegister a low high d s = .fault (.readOnly a) s := by
  rw [modifyRegister, checkRange_ok s range, andThen_ok, checkAddr_ok h, andThen_ok, checkWritable_readOnly s ha, andThen_fault]

/-- A command whose body faults in the state it started in. -/
theorem faultedUntouched_of_body {i : Instr} {s : State} {f : FaultRecord} (wf : WellFormed i = true)
    (body : bodyOf i s.begin = .fault f s.begin) : ∃ t, exec i s = .next t ∧ FaultedUntouched f s t :=
  ⟨_, exec_of_fault wf body, ⟨rfl, rfl, rfl, rfl, rfl, rfl, ⟨rfl, rfl, rfl⟩, rfl, rfl, rfl⟩⟩

end Sys2Proof.Machine

namespace Sys2Proof.Proofs

open Sys2Proof.Machine Sys2Proof.Safety

/-- Settles O52: at reset nothing is known of the registers, nothing is committed, and the default parameters pass the check. -/
theorem resetMeetsTheInvariant : Obligations.ResetMeetsTheInvariant where
  freq_pos := fOscIn_pos
  cfg_ok := defaultParams_ok
  x_wf := rfl
  committed_wf _ hc := nomatch hc
  life_ne_reset := by decide
  r0_reset_clear unlocked := absurd rfl unlocked

/-- Settles O10: the address passes its check, and the check of R123 faults before the gate and before any transaction. -/
theorem statusRegistersAreReadOnly : Obligations.StatusRegistersAreReadOnly := by
  rintro s a w low high data i ha acc (rfl | ⟨rfl, range⟩ | rfl)
  · exact faultedUntouched_of_body rfl (by simp [bodyOf, writeRegister_readOnly w (s := s.begin) acc ha])
  · exact faultedUntouched_of_body rfl (by simp [bodyOf, modifyRegister_readOnly data (s := s.begin) acc ha range])
  · have addr : (BitVec.ofNat 7 a).toNat = a := by simp; omega
    exact faultedUntouched_of_body (by simp [WellFormed]; omega)
      (by simp only [bodyOf, addr, writeRegister_readOnly w (s := s.begin) acc ha, andThen_fault])

/-- Settles O53: every transaction keeps the invariant, and the start and the end of a command do not touch what it speaks of. -/
theorem stepKeepsTheInvariant : Obligations.StepKeepsTheInvariant := by
  intro s t h hstep
  obtain rfl | ⟨u, hu, ended⟩ := step_keeps hstep (fun _ started => started.inv h) inv_closed
  · exact h
  · exact ended.inv hu

/-- Settles O54: no transaction touches construction arguments or faults; the end of a command appends at most one record. -/
theorem constructionAndFaultsPersist : Obligations.ConstructionAndFaultsPersist := by
  intro s t hstep
  obtain rfl | ⟨u, ⟨fOscIn, cfg, faults⟩, ended⟩ :=
    step_keeps hstep (fun _ started => ⟨started.fOscIn, started.cfg, started.faults⟩) (constructionKept_closed s)
  · exact ⟨rfl, rfl, .inl rfl⟩
  · exact ⟨ended.fOscIn.trans fOscIn, ended.cfg.trans cfg, faults ▸ ended.faults⟩

/-- Settles O55: from a locked readback the commands that write are single writes, faults of the gate, or writes of whole registers
other than R0; once it is unlocked every write but a reset moves the lifecycle forward. -/
theorem lifecycleMovesForwardButForReset : Obligations.LifecycleMovesForwardButForReset := by
  intro s t _ hstep
  obtain ⟨cfg_ok, _, _⟩ := step_next_cases hstep
  by_cases locked : s.life = .READBACK_LOCKED
  · have start (s₀ : State) (started : Started s s₀) : Locked s₀ := ⟨started.life.trans locked, started.cfg ▸ cfg_ok⟩
    obtain rfl | ⟨u, still | ⟨unlocked, sent⟩, ended⟩ :=
      step_ended hstep (fun s₀ h₀ => (start s₀ h₀).unlockedByWord) fun i s₀ h₀ => bodyOf_unlockedByWord i (start s₀ h₀)
    · exact .inl rfl
    · exact .inl (by rw [ended.life, still, locked])
    · exact .inr (.inl ⟨locked, ended.life.trans unlocked, ended.trace ▸ sent⟩)
  · obtain rfl | ⟨u, forward | ⟨v, reset, sent⟩, ended⟩ :=
      step_keeps hstep (fun s₀ started => .inl (.inl started.life)) (movedForward_closed locked)
    · exact .inl rfl
    · rw [← ended.life] at forward
      obtain same | unlocked | configured := forward
      · exact .inl same
      · exact .inr (.inr (.inl unlocked))
      · exact .inr (.inr (.inr (.inl configured)))
    · exact .inr (.inr (.inr (.inr ⟨v, reset, ended.trace ▸ sent⟩)))

/-- Settles O56: of all transactions only a write of R0 with FCAL_EN or RESET set touches the snapshot, and its frame stays in the
trace. -/
theorem committedChangesOnlyAtAWriteOfR0 : Obligations.CommittedChangesOnlyAtAWriteOfR0 := by
  intro s t hstep changed
  obtain rfl | ⟨u, kept | sent, ended⟩ :=
    step_keeps hstep (fun _ started => .inl started.device.committed) (committedKept_closed s)
  · exact absurd rfl changed
  · exact absurd (ended.device.committed.trans kept) changed
  · exact sent.of_trace (l := []) (by simp [ended.trace])

end Sys2Proof.Proofs

/-!
PROOFS. The statements about 20_memory.md: what a read answers and leaves (R67, R70), what a successful write leaves (R66), and
what a failed transaction leaves (R69).
-/

namespace Sys2Proof.Machine

open Sys2Proof.Safety

/-! ## The two forms of a read and of a write -/

/-- READ and a read frame are the same one transaction (20_memory.md R67). -/
theorem bodyOf_read {i : Instr} {a : Nat} {s : State} (acc : accessible s.cfg a)
    (form : i = .read a ∨ i = .readFrame (BitVec.ofNat 7 a)) :
    WellFormed i = true ∧ bodyOf i s = (memRead a s).andThen fun w u => .ok (.word w) u := by
  obtain rfl | rfl := form
  · exact ⟨rfl, by rw [bodyOf, readRegister_ok acc]⟩
  · have addr : (BitVec.ofNat 7 a).toNat = a := by simp; omega
    exact ⟨by simp [WellFormed]; omega, by rw [bodyOf, addr, readRegister_ok acc]⟩

/-- WRITE and a write frame are the same one transaction (20_memory.md R66). -/
theorem bodyOf_write {i : Instr} {a : Nat} {w : Word} {s : State} (acc : accessible s.cfg a) (ha : a < 110)
    (form : i = .write a w ∨ i = .writeFrame (BitVec.ofNat 7 a) w) :
    WellFormed i = true ∧ bodyOf i s = (memWrite a w s).andThen fun _ u => .ok .unit u := by
  obtain rfl | rfl := form
  · exact ⟨rfl, by rw [bodyOf, writeRegister_ok w acc ha]⟩
  · have addr : (BitVec.ofNat 7 a).toNat = a := by simp; omega
    exact ⟨by simp [WellFormed]; omega, by rw [bodyOf, addr, writeRegister_ok w acc ha]⟩

/-! ## Commands that only read -/

/-- The instructions that issue no write transaction, whatever they find. -/
def OnlyReads : Instr → Prop
  | .setBits _ _ _ _ | .getBits _ _ _ | .read _ | .fieldRead _ | .readGroup _ | .getFpd | .getFvco | .getFsmclk
  | .readFrame _ => True
  | _ => False

/-- What the read transaction keeps and the checks answer with holds of every instruction that only reads. -/
theorem bodyOf_sat_of_onlyReads {P : State → Prop} {E : BlockError → State → Prop} {F : FaultRecord → State → Prop}
    (h : ReadClosed P E F) {i : Instr} (reads : OnlyReads i) {s : State} (hs : P s) : (bodyOf i s).Sat P E F := by
  cases i with
  | setBits w low high d => exact (setBitsOp_sat h w low high d s hs).andThen fun _ _ => id
  | getBits w low high => exact (getBitsOp_sat h w low high s hs).andThen fun _ _ => id
  | read a => exact (readRegister_sat h a s hs).andThen fun _ _ => id
  | fieldRead f => exact (readField_sat h f s hs).andThen fun _ _ => id
  | readGroup g => exact readGroupOp_sat h g s hs
  | getFpd => exact (computeFpd_sat h s hs).andThen fun _ _ => id
  | getFvco =>
    exact ((computeFpd_sat h s hs).andThen fun fpd s₁ h₁ => fvcoFrom_sat h fpd s₁ h₁).andThen fun _ _ => id
  | getFsmclk => exact (computeFsmclk_sat h s hs).andThen fun _ _ => id
  | readFrame a => exact (readRegister_sat h a.toNat s hs).andThen fun _ _ => id
  | _ => exact reads.elim

/-- Looking at the device keeps the block as it was in some earlier state. -/
theorem sameBlock_readClosed (s : State) : ReadClosed (SameBlock s) (fun _ => SameBlock s) fun _ => SameBlock s :=
  readClosed_of_looked fun _ _ _ h looked =>
    ⟨h.controller.trans looked.ran.controller, looked.life.trans h.life, h.device.trans looked.device⟩

theorem sameBlock_begin (s : State) : SameBlock s s.begin := ⟨⟨rfl, rfl, rfl, rfl⟩, rfl, ⟨rfl, rfl, rfl⟩⟩

/-- An instruction that answers a next state has run its body to its end. -/
theorem eq_finish_of_exec {i : Instr} {s t : State} (run : exec i s = .next t) : t = (bodyOf i s.begin).finish := by
  obtain next | ⟨_, _, refused⟩ := exec_cases i s
  · exact Host.Outcome.next.inj (run.symm.trans next)
  · exact nomatch run.symm.trans refused

/-- The end of a command sets its result; the faults grow only by the fault that is that result (60_exceptions.md R234). -/
theorem finish_of_leaves {P : State → Prop} {r : Reply Value} (h : r.Leaves P) :
    ∃ u, P u ∧ ((∃ res, r.finish = { u with result := res }) ∨ ∃ f, r.finish = u.takeFault f) := by
  cases r with
  | ok v u => exact ⟨u, h, .inl ⟨_, rfl⟩⟩
  | error e u => exact ⟨u, h, .inl ⟨_, rfl⟩⟩
  | fault f u => exact ⟨u, h, .inr ⟨f, rfl⟩⟩

/-! ## The transaction that fails -/

theorem nextAnswer_of_transport {s : State} {answer : BusAnswer} {rest : List BusAnswer} (h : s.transport = answer :: rest) :
    nextAnswer s = answer := by
  simp only [nextAnswer, h]

/-- A read that fails changes nothing but that it has been on the bus (20_memory.md R69). -/
theorem memRead_failed {s : State} {info : BusInfo} (a : Nat) (failed : nextAnswer s = .fault info) :
    ∃ x u, memRead a s = .error (.bus info s.nextIndex) u ∧ Looked [x] s u := by
  obtain ⟨ok, _⟩ | ⟨info', failed', e⟩ := memRead_cases a s
  · exact nomatch failed.symm.trans ok
  · obtain rfl := BusAnswer.fault.inj (failed.symm.trans failed')
    exact ⟨_, _, e, ran_logged s _, rfl, ⟨rfl, rfl, rfl⟩⟩

/-- A write that fails leaves the uncertain device of R69, its frame logged. -/
theorem memWrite_failed {s : State} {info : BusInfo} (a : Nat) (v : Word) (failed : nextAnswer s = .fault info) :
    ∃ x, memWrite a v s = .error (.bus info s.nextIndex) ((s.logged x).writeFailed a v) := by
  obtain ⟨ok, _⟩ | ⟨info', failed', e⟩ := memWrite_cases a v s
  · exact nomatch failed.symm.trans ok
  · obtain rfl := BusAnswer.fault.inj (failed.symm.trans failed')
    exact ⟨_, e⟩

/-! ## What a failed write leaves (20_memory.md R69) -/

/-- A failed reset leaves no register known and nothing committed (log 11 where FCAL_EN was set too). -/
theorem writeFailed_reset (s : State) {v : Word} (reset : v[1] = true) :
    (s.writeFailed 0 v).x = [] ∧ (s.writeFailed 0 v).committed = none := by
  simp [State.writeFailed, reset]

/-- A failed write that is no reset forgets its own register only, leaves the snapshot old or current, and touches PLL_N's
consistency only at PLL_N's registers. -/
theorem writeFailed_of_noReset (s : State) {a : Nat} {v : Word} (noReset : ¬ (a = 0 ∧ v[1] = true)) :
    (s.writeFailed a v).x = regForget s.x a ∧
    ((s.writeFailed a v).committed = s.committed ∨ (s.writeFailed a v).committed = some s.snapshot) ∧
    (a ≠ 34 → a ≠ 36 → (s.writeFailed a v).nConsistent = s.nConsistent) := by
  unfold State.writeFailed
  split_ifs with r0 reset _ _ pllN
  · exact absurd ⟨r0, reset⟩ noReset
  · simp [r0]
  · simp [r0]
  · simp [r0]
  · exact ⟨rfl, .inl rfl, by omega⟩
  · simp

/-- After a failed write its register is not known. -/
theorem regGet_writeFailed (s : State) (a : Nat) (v : Word) : regGet (s.writeFailed a v).x a = none := by
  obtain e | e := writeFailed_x s a v <;> simp [e]

theorem writeFailed_nConsistent_pllN (s : State) {a : Nat} (v : Word) (pllN : a = 34 ∨ a = 36) :
    (s.writeFailed a v).nConsistent = false := by
  have offR0 : a ≠ 0 := by omega
  simp [State.writeFailed, offR0, pllN]

end Sys2Proof.Machine

namespace Sys2Proof.Proofs

open Sys2Proof.Machine Sys2Proof.Safety

/-- Settles O60: no read transaction and no check disturbs the block, and the end of the command adds its own fault at most. -/
theorem readingCommandsChangeNothing : Obligations.ReadingCommandsChangeNothing := by
  intro s t i run reads
  obtain rfl := eq_finish_of_exec run
  have body : (bodyOf i s.begin).Leaves (SameBlock s) :=
    bodyOf_sat_of_onlyReads (sameBlock_readClosed s) reads (sameBlock_begin s)
  obtain ⟨u, ⟨⟨fOscIn, faults, cfg, requests⟩, life, x, committed, nConsistent⟩, ⟨_, e⟩ | ⟨f, e⟩⟩ := finish_of_leaves body
    <;> rw [e]
  · exact ⟨⟨x, committed, nConsistent⟩, life, fOscIn, cfg, requests, .inl faults⟩
  · exact ⟨⟨x, committed, nConsistent⟩, life, fOscIn, cfg, requests, .inr ⟨f, rfl, by simp [faults]⟩⟩

/-- Settles O11: the command is one read transaction, and `memRead_spec` says what that answers and leaves. -/
theorem readAnswersTheRegisterOrADraw : Obligations.ReadAnswersTheRegisterOrADraw := by
  intro s a i acc transport form
  obtain ⟨wf, body⟩ := bodyOf_read (s := s.begin) acc form
  obtain ⟨v, u, read, looked, answer⟩ := memRead_spec a s.begin acc.1 transport
  rw [read, andThen_ok] at body
  exact ⟨_, v, exec_of_ok wf body, rfl, looked.block_done _, looked.ran.trace_done, looked.ran.used_done _, answer⟩

/-- Settles O12: the command is one write transaction, and `memWrite_spec` says what that leaves off R0 without a hazard. -/
theorem writeReplacesTheWholeRegister : Obligations.WriteReplacesTheWholeRegister := by
  intro s a w i offR0 ha acc noHazard transport form
  obtain ⟨wf, body⟩ := bodyOf_write (s := s.begin) acc ha form
  have noFault : fcalHazard a s.begin = false := fcalHazard_of_noFcalHazard noHazard (by simp)
  obtain ⟨u, wrote, ran, x, committed, consistent, life, draws⟩ :=
    memWrite_spec a w s.begin (by omega) ha noFault transport
  rw [wrote, andThen_ok] at body
  refine ⟨_, exec_of_ok wf body, rfl, ?stored, ?others, committed, consistent, life, ran.controller_done _, ran.trace_done,
    ran.used_done _, draws⟩
  case stored => simpa [x] using regGet_set_same s.x a w ha
  case others => exact fun b other => by simpa [x] using regGet_set_other s.x a b w (by simpa using other)

/-- Settles O59: READ and WRITE end at their one transaction, which fails; a failed read only looked, and of a failed write the
case split of R69 says what is left. -/
theorem failedTransactionLeavesTheDeviceUncertain : Obligations.FailedTransactionLeavesTheDeviceUncertain := by
  intro s a w info rest ha acc transport
  have failed : nextAnswer s.begin = .fault info := nextAnswer_of_transport transport
  constructor
  · obtain ⟨_, u, read, looked⟩ := memRead_failed a failed
    obtain ⟨wf, body⟩ := bodyOf_read (s := s.begin) acc (.inl rfl)
    rw [read, andThen_error] at body
    exact ⟨_, exec_of_error wf body, rfl, looked.block_done _, looked.ran.used_done _⟩
  · obtain ⟨x, wrote⟩ := memWrite_failed a w failed
    obtain ⟨wf, body⟩ := bodyOf_write (s := s.begin) acc ha (.inl rfl)
    rw [wrote, andThen_error] at body
    have ran := (ran_logged s.begin x).writeFailed a w
    refine ⟨_, exec_of_error wf body, rfl, regGet_writeFailed _ a w, writeFailed_life _ a w, ran.controller_done _,
      ran.used_done _, fun noReset b other => ?others, ?reset, ?fcal, fun quiet => ?kept,
      writeFailed_nConsistent_pllN _ w, fun off34 off36 noReset => ?consistent⟩
    case others =>
      obtain ⟨forgets, _, _⟩ := writeFailed_of_noReset (s.begin.logged x) noReset
      have off : b ≠ a := by simpa using other
      simp [forgets, off]
    case reset =>
      rintro rfl reset
      obtain ⟨unknown, none⟩ := writeFailed_reset (s.begin.logged x) reset
      exact ⟨fun b => by simp [unknown], none⟩
    case fcal =>
      rintro rfl noReset -
      obtain ⟨_, oldOrCurrent, _⟩ := writeFailed_of_noReset (s.begin.logged x) (a := 0) (v := w) (by simp [noReset])
      exact oldOrCurrent.imp_right fun current => ⟨_, current, isSnapshot_snapshot s⟩
    case kept =>
      obtain same | ⟨rfl, bits⟩ := writeFailed_committed (s.begin.logged x) a w
      · exact same
      · simp_all
    case consistent =>
      obtain ⟨_, _, kept⟩ := writeFailed_of_noReset (s.begin.logged x) noReset
      exact kept off34 off36

end Sys2Proof.Proofs

/-!
PROOFS. The statements about 30_encoding.md: decoder and encoder undo each other (R80 to R90), the frames that are never sent
(R83, R98), and a field that reads back as it was written (R94).
-/

namespace Sys2Proof

/-! ## Frames -/

/-- The frame of a write decodes to that write, if a register has its address (30_encoding.md R80, R83). -/
theorem decode_writeFrameBytes (a : BusAddr) (w : Word) : decode (.frame (writeFrameBytes a w)) =
    if 112 < a.toNat then .error (.badFrameAddress a) else .ok (.writeFrame a w) := by
  simp only [decode, writeFrameBytes, wordBytes, decodeFrame, writeByte_msb, frameAddr_writeByte, wordOfBytes_wordBytes,
    Bool.false_eq_true, if_false]

/-- The frame of a read decodes to that read, if a register has its address (30_encoding.md R81, R83). -/
theorem decode_readFrameBytes (a : BusAddr) : decode (.frame (readFrameBytes a)) =
    if 112 < a.toNat then .error (.badFrameAddress a) else .ok (.readFrame a) := by
  simp only [decode, readFrameBytes, decodeFrame, readByte_msb, frameAddr_readByte, Bool.true_eq_false, if_false]

/-- Three bytes whose direction bit is 0 are the write frame of what stands in them (30_encoding.md R80, R82). -/
theorem writeFrameBytes_of_msb {b : Byte} (write : b.msb = false) (hi lo : Byte) :
    writeFrameBytes (frameAddr b) (wordOfBytes hi lo) = [b, hi, lo] := by
  rw [writeFrameBytes, wordBytes, writeByte_frameAddr b write, wordOfBytes_high, wordOfBytes_low]

/-- One byte whose direction bit is 1 is the read frame of the address in it (30_encoding.md R81, R82). -/
theorem readFrameBytes_of_msb {b : Byte} (read : b.msb = true) : readFrameBytes (frameAddr b) = [b] := by
  rw [readFrameBytes, readByte_frameAddr b read]

/-- Bytes that decode are the frame of a well-formed instruction: the decoder accepts one byte or three, each with its direction
bit and a register's address (30_encoding.md R80 to R83). -/
theorem encode_of_decodeFrame {bytes : List Byte} {i : Instr} (h : decodeFrame bytes = .ok i) :
    encode i = .frame bytes ∧ WellFormed i = true := by
  unfold decodeFrame at h
  split at h
  case h_1 b =>
    split_ifs at h with write outside
    cases h
    exact ⟨congrArg _ (readFrameBytes_of_msb (by simpa using write)), by simpa [WellFormed] using outside⟩
  case h_2 b hi lo =>
    split_ifs at h with read outside
    cases h
    exact ⟨congrArg _ (writeFrameBytes_of_msb (by simpa using read) hi lo), by simpa [WellFormed] using outside⟩
  case h_3 => cases h

/-! ## Decoder after encoder -/

/-- The decoder reads back every operand from its code (log 8), and every frame from its bytes. -/
theorem decode_encode {i : Instr} (wf : WellFormed i = true) : decode (encode i) = .ok i := by
  cases i with
  | setBits w low high d => rw [encode, decode_01, wordOfCode_toNat, natOfCode_ofNat]; rfl
  | getBits w low high => rw [encode, decode_02, wordOfCode_toNat]; rfl
  | read a => rw [encode, decode_03, natOfCode_ofNat]; rfl
  | write a w => rw [encode, decode_04, natOfCode_ofNat, wordOfCode_toNat]; rfl
  | modify a low high d => rw [encode, decode_05, natOfCode_ofNat, natOfCode_ofNat]; rfl
  | fieldRead f => rw [encode, decode_06, fieldOfCode_code]; rfl
  | fieldWrite f v => rw [encode, decode_07, fieldOfCode_code]; rfl
  | readGroup g => rw [encode, decode_08, groupOfCode_code]; rfl
  | configureRamp span duration threshold descending freeRun =>
    simp only [encode, ratCodes, List.cons_append, List.nil_append, decode_0C, ratOfCodes_codes, boolOfCode_code]; rfl
  | setOutputPower c level => rw [encode, decode_0E, channelOfCode_code]; rfl
  | writeFrame a w => rw [encode, decode_writeFrameBytes, if_neg (by simpa [WellFormed] using wf)]
  | readFrame a => rw [encode, decode_readFrameBytes, if_neg (by simpa [WellFormed] using wf)]
  | getFpd | getFvco | getFsmclk | setDivider | reset | unlock | arm => rfl

/-- A request that is a well-formed instruction's decodes to that instruction. -/
theorem decode_of_encode {r : Request} {i : Instr} (enc : encode i = r) (wf : WellFormed i = true) : decode r = .ok i :=
  enc ▸ decode_encode wf

/-- The same of a word of spec/opcode_table.json (log 15). -/
theorem decodeTableWord_of_encode {nbits w : Nat} {i : Instr} (enc : encode i = tableRequest nbits w)
    (wf : WellFormed i = true) : decodeTableWord nbits w = some i := by
  rw [decodeTableWord, decode_of_encode enc wf]

end Sys2Proof

namespace Sys2Proof.Machine

open Sys2Proof.Safety

/-! ## Frames that are never sent -/

theorem exec_writeFrame_neverSent {a : BusAddr} (outside : 113 ≤ a.toNat) (w : Word) (s : State) :
    exec (.writeFrame a w) s = .refused (.frameAddressNeverSent a) := if_pos outside

theorem exec_readFrame_neverSent {a : BusAddr} (outside : 113 ≤ a.toNat) (s : State) :
    exec (.readFrame a) s = .refused (.frameAddressNeverSent a) := if_pos outside

/-! ## A field written, then read -/

/-- Writing a field outside R0 leaves readback as reliable as it was: R0 is kept, and a plain write does not lock. -/
theorem readbackOk_of_fieldWritten {s t : State} {f : FieldId} (offR0 : notInR0 s.cfg f)
    (others : OthersKept ((fieldParts s.cfg f).map Part.addr) s t) (life : t.life = lifeAfterPlainWrite s.life) :
    readbackOk t = readbackOk s :=
  readbackOk_of_plainWrite (others 0 (by simpa using offR0)) life

/-- FIELD_READ with readback reliable answers the value that the field is known to hold (41_register_access.md R127). -/
theorem exec_fieldRead_known {f : FieldId} {v : Nat} {s : State} (cfg : paramsOk s.cfg = true) (acc : fieldAccessible s.cfg f)
    (transport : transportOk (fieldParts s.cfg f).length s) (readback : readbackOk s = true) (known : fieldValue s f = some v) :
    ∃ t, exec (.fieldRead f) s = .next t ∧ t.result = some (.ok (.nat v)) ∧ SameBlock s t := by
  obtain ⟨u, t, _, read, _, looked, _, _, answer⟩ := readField_spec f s.begin cfg acc transport
  obtain ⟨rfl, _⟩ := answer readback v known
  have body : bodyOf (.fieldRead f) s.begin = .ok (.nat u) t := by rw [bodyOf, read, andThen_ok]
  exact ⟨_, exec_of_ok rfl body, rfl, looked.block_done _⟩

end Sys2Proof.Machine

namespace Sys2Proof.Proofs

open Sys2Proof.Machine Sys2Proof.Safety

/-- Settles O1: `decode_encode` goes through the nineteen constructors. -/
theorem decodeOfEncodeIsTheInstruction : Obligations.DecodeOfEncodeIsTheInstruction := fun _ => decode_encode

/-- Settles O2: bytes that decode are the instruction's frame, and the other way round is the round trip of O1. -/
theorem frameBytesHaveOneMeaning : Obligations.FrameBytesHaveOneMeaning :=
  fun _ _ => ⟨encode_of_decodeFrame, fun ⟨enc, wf⟩ => decode_of_encode enc wf⟩

/-- Settles O29: the write leaves the field's value known and readback reliable, so the read answers that value. -/
theorem fieldReadsBackWhatWasWritten : Obligations.FieldReadsBackWhatWasWritten := by
  intro s f v cfg acc offR0 nonneg fits readback noHazard transport
  obtain ⟨t, l, write, ran, len, value, others, _, _, _, _, life⟩ :=
    writeField_spec f v s.begin cfg acc offR0 nonneg fits (.inr readback)
      (fun q part => fcalHazard_of_noFcalHazard noHazard (List.mem_map_of_mem part))
      (transportOk_mono transport (Nat.le_add_right _ _))
  have body : bodyOf (.fieldWrite f v) s.begin = .ok .unit t := by rw [bodyOf, write, andThen_ok]
  have sameCfg : t.cfg = s.cfg := ran.controller.cfg
  have used : l.length = fieldWrites s.cfg f := len
  obtain ⟨u, read, result, block⟩ := exec_fieldRead_known (s := { t with result := some (.ok .unit) }) (sameCfg ▸ cfg)
    (sameCfg ▸ acc) (ran.transportOk transport (by rw [used, sameCfg, Nat.add_comm]))
    ((readbackOk_of_fieldWritten offR0 others life).trans readback) value
  exact ⟨_, u, exec_of_ok rfl body, read, result, block⟩

/-- Settles O48: the frame meanings and the decoder both stop at an address that no register has. -/
theorem frameOutsideTheRegistersIsNeverSent : Obligations.FrameOutsideTheRegistersIsNeverSent := by
  intro s a w outside
  exact ⟨exec_writeFrame_neverSent outside w s, exec_readFrame_neverSent outside s,
    ⟨_, (decode_writeFrameBytes a w).trans (if_pos outside)⟩, ⟨_, (decode_readFrameBytes a).trans (if_pos outside)⟩⟩

/-- Settles O3: each sample is the request of the instruction it is said to decode to. -/
theorem sampleRequestsDecode : Obligations.SampleRequestsDecode :=
  ⟨decodeTableWord_of_encode (by decide) rfl, decodeTableWord_of_encode (by decide) rfl, decode_of_encode (by decide) rfl,
    decode_of_encode rfl rfl, decode_of_encode rfl rfl, decode_of_encode rfl rfl, decode_of_encode rfl rfl,
    decode_of_encode rfl rfl, decode_of_encode rfl rfl⟩

end Sys2Proof.Proofs

/-!
PROOFS. The statements about 40_bitfield.md: SET_BITS and GET_BITS as commands (R110 to R112), and the laws of the words they
compute (R113, R114).
-/

namespace Sys2Proof.Machine

open Sys2Proof.Safety

/-! ## The laws of the words -/

/-- SET_BITS of what GET_BITS reads there leaves the word (40_bitfield.md R113 law 4). -/
theorem setBitsWord_getBitsWord (word : Word) {low high : Nat} (h₁ : low ≤ high) (h₂ : high ≤ 15) :
    setBitsWord word low high (getBitsWord word low high) = word := by
  apply BitVec.eq_of_getLsbD_eq
  intro i _
  rw [setBitsWord_getLsbD _ _ _ _ _ h₁ h₂]
  split_ifs with inside
  · have back : i - low + low = i := by omega
    have width : i - low ≤ high - low := by omega
    simp [getBitsWord_testBit _ _ _ _ h₁ h₂, back, width]
  · rfl

/-- Of two SET_BITS on one range the second counts (40_bitfield.md R113 law 5). -/
theorem setBitsWord_setBitsWord (word : Word) {low high : Nat} (d e : Nat) (h₁ : low ≤ high) (h₂ : high ≤ 15) :
    setBitsWord (setBitsWord word low high d) low high e = setBitsWord word low high e := by
  apply BitVec.eq_of_getLsbD_eq
  intro i _
  simp only [setBitsWord_getLsbD _ _ _ _ _ h₁ h₂]
  split_ifs <;> rfl

/-- No bit lies in both of two disjoint ranges, so each SET_BITS decides its own bits whichever comes first (40_bitfield.md
R114). -/
theorem setBitsWord_comm (word : Word) {low high low' high' : Nat} (d e : Nat) (h₁ : low ≤ high) (h₂ : high ≤ 15)
    (h₁' : low' ≤ high') (h₂' : high' ≤ 15) (disjoint : high < low' ∨ high' < low) :
    setBitsWord (setBitsWord word low high d) low' high' e = setBitsWord (setBitsWord word low' high' e) low high d := by
  apply BitVec.eq_of_getLsbD_eq
  intro i _
  simp only [setBitsWord_getLsbD _ _ _ _ _ h₁ h₂, setBitsWord_getLsbD _ _ _ _ _ h₁' h₂']
  by_cases inFirst : low ≤ i ∧ i ≤ high
  · have notInSecond : ¬ (low' ≤ i ∧ i ≤ high') := by omega
    rw [if_neg notInSecond, if_pos inFirst, if_pos inFirst]
  · rw [if_neg inFirst, if_neg inFirst]

/-! ## The two commands -/

theorem checkRange_fault {low high : Int} (s : State) (range : ¬ (0 ≤ low ∧ low ≤ high ∧ high ≤ 15)) :
    checkRange low high s = .fault (.range low high) s := by
  have fails : rangeOk low high = false := decide_eq_false range
  rw [checkRange, faultIf, fails, Bool.not_false, if_pos rfl]

/-- SET_BITS on a well-formed range (40_bitfield.md R110). -/
theorem bodyOf_setBits {low high : Int} (word : Word) (data : Nat) (s : State) (range : 0 ≤ low ∧ low ≤ high ∧ high ≤ 15) :
    bodyOf (.setBits word low high data) s = .ok (.word (setBitsWord word low.toNat high.toNat data)) s := by
  rw [bodyOf, setBitsOp, checkRange_ok s range, andThen_ok, andThen_ok]

theorem bodyOf_setBits_fault {low high : Int} (word : Word) (data : Nat) (s : State)
    (range : ¬ (0 ≤ low ∧ low ≤ high ∧ high ≤ 15)) :
    bodyOf (.setBits word low high data) s = .fault (.range low high) s := by
  rw [bodyOf, setBitsOp, checkRange_fault s range, andThen_fault, andThen_fault]

/-- GET_BITS on a well-formed range answers `word[high:low]` (40_bitfield.md R111). -/
theorem bodyOf_getBits {low high : Int} (word : Word) (s : State) (range : 0 ≤ low ∧ low ≤ high ∧ high ≤ 15) :
    bodyOf (.getBits word low high) s = .ok (.nat (natBits word.toNat high.toNat low.toNat)) s := by
  rw [bodyOf, getBitsOp, checkRange_ok s range, andThen_ok, andThen_ok, getBitsWord_eq _ _ _ (by omega) (by omega)]

theorem bodyOf_getBits_fault {low high : Int} (word : Word) (s : State) (range : ¬ (0 ≤ low ∧ low ≤ high ∧ high ≤ 15)) :
    bodyOf (.getBits word low high) s = .fault (.range low high) s := by
  rw [bodyOf, getBitsOp, checkRange_fault s range, andThen_fault, andThen_fault]

/-- A command whose body answers in the state it started in. -/
theorem answeredUntouched_of_body {i : Instr} {s : State} {v : Value} (wf : WellFormed i = true)
    (body : bodyOf i s.begin = .ok v s.begin) :
    ∃ t, exec i s = .next t ∧ t.result = some (.ok v) ∧ SameBlock s t ∧ Used 0 s t :=
  ⟨_, exec_of_ok wf body, rfl, (Looked.refl s.begin).block_done _, (Ran.refl s.begin).used_done _⟩

end Sys2Proof.Machine

namespace Sys2Proof.Proofs

open Sys2Proof.Machine Sys2Proof.Safety

/-- Settles O5: past the range check the answer is `setBitsWord`, whose bits `setBitsWord_getLsbD` gives. -/
theorem setBitsWritesItsRange : Obligations.SetBitsWritesItsRange := by
  intro word low high data s
  constructor
  · intro range
    obtain ⟨t, run, result, untouched⟩ := answeredUntouched_of_body rfl (bodyOf_setBits word data s.begin range)
    exact ⟨t, _, run, result, fun i _ => setBitsWord_getLsbD _ _ _ _ i (by omega) (by omega), untouched⟩
  · exact fun range => faultedUntouched_of_body rfl (bodyOf_setBits_fault word data s.begin range)

/-- Settles O6: past the range check the answer is `word[high:low]`. -/
theorem getBitsReadsItsRange : Obligations.GetBitsReadsItsRange := fun word _ _ s =>
  ⟨fun range => answeredUntouched_of_body rfl (bodyOf_getBits word s.begin range),
    fun range => faultedUntouched_of_body rfl (bodyOf_getBits_fault word s.begin range)⟩

/-- Settles O7: law 2 is law 1 at the least and the greatest value of the range's width; laws 3 to 5 compare bits. -/
theorem setThenGetLaws : Obligations.SetThenGetLaws := by
  intro word low high d e h₁ h₂
  have setGet (data : Nat) : getBitsWord (setBitsWord word low high data) low high = data % 2 ^ (high - low + 1) :=
    getBitsWord_setBitsWord word low high data h₁ h₂
  refine ⟨setGet d, ?zeros, ?ones, ?disjoint, setBitsWord_getBitsWord word h₁ h₂, setBitsWord_setBitsWord word d e h₁ h₂⟩
  case zeros => rw [setGet, Nat.zero_mod]
  case ones => rw [setGet, Nat.mod_eq_of_lt (Nat.sub_one_lt (Nat.two_pow_pos _).ne')]
  case disjoint => exact fun _ _ h₁' h₂' => getBitsWord_setBitsWord_disjoint word low high d _ _ h₁ h₂ h₁' h₂'

/-- Settles O8: the two orders agree bit by bit. -/
theorem disjointSetBitsCommute : Obligations.DisjointSetBitsCommute :=
  fun word _ _ _ _ d e h₁ h₂ h₁' h₂' disjoint => setBitsWord_comm word d e h₁ h₂ h₁' h₂' disjoint

end Sys2Proof.Proofs

/-!
PROOFS. The statements about 41_register_access.md: the checks and the gate before any transaction (R120 to R124, R128), MODIFY
(R124), FIELD_READ and FIELD_WRITE (R127, R128), and READ_GROUP (R130).
-/

namespace Sys2Proof.Machine

open Sys2Proof.Safety

/-! ## Checks that fail -/

/-- A command whose body ends in an error in the state it started in. -/
theorem errorUntouched_of_body {i : Instr} {s : State} {e : BlockError} (wf : WellFormed i = true)
    (body : bodyOf i s.begin = .error e s.begin) : ∃ t, exec i s = .next t ∧ ErrorUntouched e s t :=
  ⟨_, exec_of_error wf body, ⟨rfl, (Looked.refl s.begin).block_done _, rfl, rfl, rfl⟩⟩

theorem checkAddr_outside {a : Nat} (s : State) (outside : 113 ≤ a) : checkAddr a s = .error (.addr a) s := if_pos outside

theorem checkAddr_reserved {a : Nat} {s : State} (ha : a < 113) (reserved : a ∈ s.cfg.reserved) :
    checkAddr a s = .fault (.reserved a) s := by
  rw [checkAddr, if_neg (by omega), decide_eq_true reserved, faultIf_true]

theorem checkReadback_fault {s : State} (c : LockedCommand) (locked : readbackOk s = false) :
    checkReadback c s = .fault (.locked c) s := by
  rw [checkReadback, locked, Bool.not_false, faultIf_true]

/-! ## The address check of an access (41_register_access.md R121) -/

/-- MODIFY of a well-formed range begins with the check of its address. -/
theorem bodyOf_modify_checkAddr {low high : Int} (a data : Nat) (s : State) (range : 0 ≤ low ∧ low ≤ high ∧ high ≤ 15) :
    ∃ k, bodyOf (.modify a low high data) s = (checkAddr a s).andThen k :=
  ⟨_, by rw [bodyOf, modifyRegister, checkRange_ok s range, andThen_ok, andThen_assoc]⟩

/-- So do READ and WRITE. -/
theorem bodyOf_access {i : Instr} {a : Nat} {w : Word} {low high : Int} {data : Nat} (s : State)
    (form : i = .read a ∨ i = .write a w ∨ (i = .modify a low high data ∧ 0 ≤ low ∧ low ≤ high ∧ high ≤ 15)) :
    WellFormed i = true ∧ ∃ k, bodyOf i s = (checkAddr a s).andThen k := by
  obtain rfl | rfl | ⟨rfl, range⟩ := form
  · exact ⟨rfl, _, by rw [bodyOf, readRegister, andThen_assoc]⟩
  · exact ⟨rfl, _, by rw [bodyOf, writeRegister, andThen_assoc]⟩
  · exact ⟨rfl, bodyOf_modify_checkAddr a data s range⟩

/-- So do both frames, at an address that a frame can carry (30_encoding.md R82; log 14). -/
theorem bodyOf_frame {i : Instr} {a : Nat} {w : Word} (s : State) (ha : a < 113)
    (form : i = .readFrame (BitVec.ofNat 7 a) ∨ i = .writeFrame (BitVec.ofNat 7 a) w) :
    WellFormed i = true ∧ ∃ k, bodyOf i s = (checkAddr a s).andThen k := by
  have addr : (BitVec.ofNat 7 a).toNat = a := by simp; omega
  obtain rfl | rfl := form
  · exact ⟨by simp [WellFormed]; omega, _, by rw [bodyOf, addr, readRegister, andThen_assoc]⟩
  · exact ⟨by simp [WellFormed]; omega, _, by rw [bodyOf, addr, writeRegister, andThen_assoc]⟩

/-- FIELD_READ stops at a part that lies at a reserved address. -/
theorem readParts_reserved {p : Part} {s : State} (ps : List Part) (acc : Nat) (ha : p.addr < 113)
    (reserved : p.addr ∈ s.cfg.reserved) : readParts (p :: ps) acc s = .fault (.reserved p.addr) s := by
  rw [readParts, readRegister, checkAddr_reserved ha reserved, andThen_fault, andThen_fault]

/-- FIELD_WRITE stops at a part that lies at a reserved address, be it a whole register or not. -/
theorem writeParts_reserved {p : Part} {s : State} (ps : List Part) (v : Nat) (hp : PartOk p)
    (reserved : p.addr ∈ s.cfg.reserved) : writeParts (p :: ps) v s = .fault (.reserved p.addr) s := by
  obtain ⟨ha, lo, hi⟩ := hp
  have stop := checkAddr_reserved (by omega) reserved
  rw [writeParts]
  split_ifs
  · rw [writeRegister, stop, andThen_fault, andThen_fault]
  · rw [modifyRegister, checkRange_ok s (by omega), andThen_ok, stop, andThen_fault, andThen_fault]

/-! ## The checks of MODIFY (41_register_access.md R124) -/

theorem modifyRegister_range {low high : Int} (a data : Nat) (s : State) (range : ¬ (0 ≤ low ∧ low ≤ high ∧ high ≤ 15)) :
    modifyRegister a low high data s = .fault (.range low high) s := by
  rw [modifyRegister, checkRange_fault s range, andThen_fault]

theorem modifyRegister_gateFault {a : Nat} {low high : Int} {s : State} (data : Nat) (acc : accessible s.cfg a) (ha : a < 110)
    (range : 0 ≤ low ∧ low ≤ high ∧ high ≤ 15) (locked : readbackOk s = false) :
    modifyRegister a low high data s = .fault (.locked (.modify a)) s := by
  rw [modifyRegister, checkRange_ok s range, andThen_ok, checkAddr_ok acc, andThen_ok, checkWritable_ok s ha, andThen_ok,
    checkReadback_fault _ locked, andThen_fault]

/-- MODIFY whose checks pass is a read, SET_BITS and a write. -/
theorem modifyRegister_checked {a : Nat} {low high : Int} {s : State} (data : Nat) (acc : accessible s.cfg a) (ha : a < 110)
    (range : 0 ≤ low ∧ low ≤ high ∧ high ≤ 15) (readback : readbackOk s = true) :
    modifyRegister a low high data s =
      (memRead a s).andThen fun old s₁ => (setBitsOp old low high data s₁).andThen fun new s₂ => memWrite a new s₂ := by
  rw [modifyRegister, checkRange_ok s range, andThen_ok, checkAddr_ok acc, andThen_ok, checkWritable_ok s ha, andThen_ok,
    checkReadback_ok readback, andThen_ok]

/-- Once a transaction has been issued, one has been issued to the end of the command. -/
theorem traced_closed : Closed (fun u => 1 ≤ u.trace.length) (fun _ u => 1 ≤ u.trace.length) fun _ u => 1 ≤ u.trace.length :=
  closed_of_wrote (fun _ _ _ h looked => by rw [looked.ran.trace, List.length_append]; omega)
    fun _ _ _ _ h ⟨⟨_, ran, _⟩, _, _⟩ => by rw [ran.trace, List.length_append]; omega

/-- MODIFY whose checks pass issues its read, however it ends. -/
theorem bodyOf_modify_traced {a : Nat} {low high : Int} {s : State} (data : Nat) (acc : accessible s.cfg a) (ha : a < 110)
    (range : 0 ≤ low ∧ low ≤ high ∧ high ≤ 15) (readback : readbackOk s = true) :
    (bodyOf (.modify a low high data) s).Leaves fun u => 1 ≤ u.trace.length := by
  rw [bodyOf, modifyRegister_checked data acc ha range readback, andThen_assoc]
  have read : (memRead a s).Leaves fun u => 1 ≤ u.trace.length :=
    (memRead_looked a s).mono fun u ⟨_, looked⟩ => by simp [looked.ran.trace]
  exact read.andThen fun old s₁ h₁ =>
    ((setBitsOp_sat traced_closed.toReadClosed old low high data s₁ h₁).andThen fun new s₂ h₂ =>
      traced_closed.write a new s₂ ha h₂).andThen fun _ _ => id

/-! ## The checks of FIELD_WRITE (41_register_access.md R128) -/

theorem writeField_width {f : FieldId} {v : Int} {s : State} (wide : ¬ (0 ≤ v ∧ v < 2 ^ fieldWidth s.cfg f)) :
    writeField f v s = .error (.param (.width f) v) s := by
  rw [writeField, decide_eq_false wide, requireParam_false, andThen_error]

theorem writeField_gateFault {f : FieldId} {v : Int} {s : State} (fits : 0 ≤ v ∧ v < 2 ^ fieldWidth s.cfg f)
    (isPartial : (fieldParts s.cfg f).all partFull = false) (locked : readbackOk s = false) :
    writeField f v s = .fault (.locked (.fieldWrite f)) s := by
  rw [writeField, decide_eq_true fits, requireParam_true, andThen_ok, isPartial, locked, Bool.not_false, Bool.and_self,
    faultIf_true, andThen_fault]

/-- FIELD_WRITE whose checks pass writes the parts. -/
theorem writeField_checked {f : FieldId} {v : Int} {s : State} (fits : 0 ≤ v ∧ v < 2 ^ fieldWidth s.cfg f)
    (gate : (fieldParts s.cfg f).all partFull = true ∨ readbackOk s = true) :
    writeField f v s = writeParts (fieldParts s.cfg f) v.toNat s := by
  have gateOpen : (!(fieldParts s.cfg f).all partFull && !readbackOk s) = false := by
    rcases gate with full | readback
    · rw [full, Bool.not_true, Bool.false_and]
    · rw [readback, Bool.not_true, Bool.and_false]
  rw [writeField, decide_eq_true fits, requireParam_true, andThen_ok, gateOpen, faultIf_false, andThen_ok]

/-! ## The gate of the other commands (41_register_access.md R120) -/

/-- The field that SET_OUTPUT_POWER writes is partial and six bits wide (43_ramp_configurator.md R195). -/
theorem powerField_layout (p : Params) (c : Channel) :
    (fieldParts p (powerField c)).all partFull = false ∧ fieldWidth p (powerField c) = 6 := by
  cases c <;> exact ⟨rfl, rfl⟩

theorem setOutputPowerOp_gateFault {l : Int} {s : State} (c : Channel) (nonneg : 0 ≤ l) (level : l ≤ s.cfg.outPwrMax)
    (fits : l < 64) (locked : readbackOk s = false) :
    setOutputPowerOp c l s = .fault (.locked (.fieldWrite (powerField c))) s := by
  obtain ⟨isPartial, width⟩ := powerField_layout s.cfg c
  rw [setOutputPowerOp, decide_eq_true ⟨nonneg, level⟩, requireParam_true, andThen_ok,
    writeField_gateFault ⟨nonneg, by rw [width]; exact fits⟩ isPartial locked]

theorem setDividerOp_gateFault {n num den : Int} {s : State} (hn : 0 ≤ n ∧ n < 2 ^ 19) (hnum : 0 ≤ num ∧ num < 2 ^ 32)
    (hden : 0 ≤ den ∧ den < 2 ^ 32) (locked : readbackOk s = false) :
    setDividerOp n num den s = .fault (.locked .setDivider) s := by
  rw [setDividerOp, decide_eq_true hn, requireParam_true, andThen_ok, decide_eq_true hnum, requireParam_true, andThen_ok,
    decide_eq_true hden, requireParam_true, andThen_ok, checkReadback_fault _ locked, andThen_fault]

/-! ## Fields with a part at a reserved address (41_register_access.md R127, R128) -/

/-- FIELD_READ of such a field reads the parts before that one, and faults there. -/
theorem readField_reserved {f : FieldId} {before after : List Part} {p : Part} {s : State} (cfg : paramsOk s.cfg = true)
    (layout : fieldParts s.cfg f = before ++ p :: after) (reserved : p.addr ∈ s.cfg.reserved)
    (acc : ∀ q ∈ before, accessible s.cfg q.addr) (transport : transportOk before.length s) :
    ∃ t l, readField f s = .fault (.reserved p.addr) t ∧ Looked l s t ∧ l.map Transaction.sent = partReads before := by
  have parts : ∀ q ∈ before ++ p :: after, PartOk q := layout ▸ fieldParts_ok _ cfg f
  have here : PartOk p := parts p (by simp)
  obtain ⟨v, t, l, read, _, looked, sent, _⟩ :=
    readParts_spec before 0 s (fun q hq => ⟨parts q (List.mem_append_left _ hq), acc q hq⟩) transport
  refine ⟨t, l, ?_, looked, sent⟩
  rw [readField, layout, readParts_append, read, andThen_ok,
    readParts_reserved after _ (by have := here.1; omega) (looked.ran.controller.cfg ▸ reserved)]

/-- FIELD_WRITE of such a field, its width and its gate in order, writes the value's high bits to the parts before that one, and
faults there. -/
theorem writeField_reserved {f : FieldId} {before after : List Part} {p : Part} {v : Int} {s : State}
    (cfg : paramsOk s.cfg = true) (layout : fieldParts s.cfg f = before ++ p :: after) (reserved : p.addr ∈ s.cfg.reserved)
    (acc : ∀ q ∈ before, accessible s.cfg q.addr) (fits : 0 ≤ v ∧ v < 2 ^ fieldWidth s.cfg f)
    (gate : (fieldParts s.cfg f).all partFull = true ∨ readbackOk s = true)
    (noFault : ∀ q ∈ before, fcalHazard q.addr s = false) (transport : transportOk (before.map partWrites).sum s) :
    ∃ t l, writeField f v s = .fault (.reserved p.addr) t ∧ Ran l s t ∧ l.length = (before.map partWrites).sum ∧
      partsValue t.x before = some (v.toNat / 2 ^ partsWidth (p :: after)) ∧ OthersKept (before.map Part.addr) s t ∧
      (∀ q ∈ before, ∀ w, regGet s.x q.addr = some w →
        ∃ w', regGet t.x q.addr = some w' ∧ ∀ i, i < q.lo ∨ q.hi < i → w'.getLsbD i = w.getLsbD i) ∧
      t.committed = s.committed ∧ ((∀ q ∈ before, q.addr ≠ 34 ∧ q.addr ≠ 36) → t.nConsistent = s.nConsistent) ∧
      (∀ q ∈ before, q.addr = 34 ∨ q.addr = 36 → ∀ w, regGet t.x q.addr = some w →
        t.nConsistent = consistentAfter s q.addr w) ∧
      t.life = (if before = [] then s.life else lifeAfterPlainWrite s.life) := by
  have parts : ∀ q ∈ before ++ p :: after, PartOk q := layout ▸ fieldParts_ok _ cfg f
  have distinct : (before.map Part.addr).Nodup := by
    have all := fieldParts_nodup _ cfg f
    rw [layout, List.map_append] at all
    exact all.of_append_left
  have gateBefore : before.all partFull = true ∨ readbackOk s = true := gate.imp_left fun full => by
    rw [layout, List.all_append, Bool.and_eq_true] at full
    exact full.1
  have share : v.toNat / 2 ^ partsWidth (p :: after) < 2 ^ partsWidth before := by
    have width : fieldWidth s.cfg f = partsWidth before + partsWidth (p :: after) := by
      rw [fieldWidth, layout, partsWidth_append]
    have fitsNat : v.toNat < 2 ^ fieldWidth s.cfg f := by zify; omega
    rw [width, Nat.pow_add] at fitsNat
    exact Nat.div_lt_of_lt_mul (by rwa [Nat.mul_comm])
  obtain ⟨t, l, write, ran, len, value, others, kept, committed, consistent, _, life, pllN⟩ :=
    writeParts_spec before (v.toNat / 2 ^ partsWidth (p :: after)) s
      (fun q hq => ⟨fieldParts_before_notR0 _ cfg f layout q hq, parts q (List.mem_append_left _ hq), acc q hq, noFault q hq⟩)
      distinct gateBefore transport
  refine ⟨t, l, ?_, ran, len, by rw [value, Nat.mod_eq_of_lt share], others, kept, committed, consistent, ?_, life⟩
  · rw [writeField_checked fits gate, layout, writeParts_append, write, andThen_ok,
      writeParts_reserved after _ (parts p (by simp)) (ran.controller.cfg ▸ reserved)]
  · intro q hq isPllN
    refine pllN q hq fun r hr other => ?_
    by_contra isPllN'
    exact other (fieldParts_before_unique _ f layout hq hr isPllN (by omega))

/-! ## MODIFY of R0 (41_register_access.md R124, 44_lifecycle.md R210 to R214) -/

/-- The word with the data in bits low..high and the old bits elsewhere is SET_BITS's (40_bitfield.md R110). -/
theorem eq_setBitsWord {old new : Word} {low high data : Nat} (h₁ : low ≤ high) (h₂ : high ≤ 15)
    (bits : ∀ k, k < 16 → new.getLsbD k = if low ≤ k ∧ k ≤ high then data.testBit (k - low) else old.getLsbD k) :
    new = setBitsWord old low high data :=
  BitVec.eq_of_getLsbD_eq fun k hk => by rw [bits k hk, setBitsWord_getLsbD _ _ _ _ _ h₁ h₂]

/-- Reads before the write of R0 do not change what it leaves. -/
theorem Looked.r0Written {edge : Bool} {v : Word} {l : List Transaction} {s s₁ t : State} (looked : Looked l s s₁)
    (h : R0Written edge v s₁ t) : R0Written edge v s t := by
  obtain ⟨reset, stored, committed, kept, life⟩ := h
  rw [looked.ran.controller.cfg] at reset
  rw [looked.device.nConsistent] at stored
  simp only [OthersKept, looked.device.x] at stored
  simp only [IsSnapshot, looked.device.x, looked.ran.controller.cfg] at committed
  rw [looked.device.committed] at kept
  rw [looked.life] at life
  exact ⟨reset, stored, committed, kept, life⟩

/-- What a command that wrote R0 leaves does not turn on its start and its result. -/
theorem r0Written_done {edge : Bool} {v : Word} {s t : State} (h : R0Written edge v s.begin t) (r : Option CommandResult) :
    R0Written edge v s { t with result := r } :=
  ⟨h.reset, h.stored, h.committed, h.kept, h.life⟩

/-- MODIFY of a known R0 whose edge, if it is one, finds PLL_N consistent. -/
theorem modifyRegister_zero_spec {low high : Int} {data : Nat} {old new : Word} {s : State} (cfg : paramsOk s.cfg = true)
    (acc : accessible s.cfg 0) (range : 0 ≤ low ∧ low ≤ high ∧ high ≤ 15) (readback : readbackOk s = true)
    (known : regGet s.x 0 = some old) (transport : transportOk 2 s) (word : new = setBitsWord old low.toNat high.toNat data)
    (consistent : new[1] = false → old[3] = false → new[3] = true → s.nConsistent = true) :
    ∃ t, modifyRegister 0 low high data s = .ok () t ∧ R0Written (!old[3] && new[3]) new s t ∧
      Ran [readTransaction 0 old, writeTransaction 0 new] s t ∧ t.draws = s.draws := by
  obtain ⟨w, s₁, looked, read, e⟩ := modifyRegister_read (d := data) acc (by omega) range readback
    (transportOk_mono transport (by omega))
  simp only [known] at read
  obtain ⟨rfl, draws⟩ := read
  rw [← word] at e
  have edge : EdgeKnown (!w[3] && new[3]) new s₁ := .inl ⟨w, by rw [looked.device.x, known], rfl⟩
  obtain ⟨t, write, ran, written, draws'⟩ := memWrite_zero_spec new _ s₁ (looked.ran.controller.cfg ▸ cfg)
    (looked.ran.transportOk transport (by simp)) edge fun noReset rise => by
      simp only [Bool.and_eq_true, Bool.not_eq_true'] at rise
      exact looked.device.nConsistent.trans (consistent noReset rise.1 rise.2)
  exact ⟨t, e.trans write, looked.r0Written written, looked.ran.trans ran, draws'.trans draws⟩

/-- FIELD_WRITE of a one-bit field of R0 is MODIFY of that bit (41_register_access.md R128). -/
theorem writeField_bitOfR0 {f : FieldId} {data k : Nat} {s : State} (layout : fieldParts s.cfg f = [⟨0, k, k⟩])
    (bit : data < 2) (readback : readbackOk s = true) : writeField f data s = modifyRegister 0 k k data s := by
  have width : fieldWidth s.cfg f = 1 := by simp [fieldWidth, layout, partsWidth, partWidth]
  have isPartial : partFull ⟨0, k, k⟩ = false := by simp [partFull]; omega
  have share : partOfValue data ⟨0, k, k⟩ [] = data := by simp [partOfValue, natBits, partsWidth]; omega
  rw [writeField_checked ⟨by omega, by rw [width]; omega⟩ (.inr readback), layout, writeParts, isPartial,
    if_neg Bool.false_ne_true, Int.toNat_natCast, share]
  cases modifyRegister 0 k k data s <;> rfl

theorem bodyOf_fieldWrite_bitOfR0 {f : FieldId} {data k : Nat} {s : State} (layout : fieldParts s.cfg f = [⟨0, k, k⟩])
    (bit : data < 2) (readback : readbackOk s = true) :
    bodyOf (.fieldWrite f data) s = (modifyRegister 0 k k data s).andThen fun _ u => .ok .unit u := by
  rw [bodyOf, writeField_bitOfR0 layout bit readback]

/-- MODIFY of R0 and FIELD_WRITE of its one-bit fields are the same read and write of R0 (10_state.md R28, 41_register_access.md
R128). -/
theorem bodyOf_modifyR0 {i : Instr} {low high : Int} {data : Nat} {s : State} (readback : readbackOk s = true)
    (form : i = .modify 0 low high data ∨
      (data < 2 ∧ ((i = .fieldWrite .POWERDOWN data ∧ low = 0 ∧ high = 0) ∨
        (i = .fieldWrite .RESET data ∧ low = 1 ∧ high = 1) ∨
        (i = .fieldWrite .MUXOUT_LD_SEL data ∧ low = 2 ∧ high = 2) ∨
        (i = .fieldWrite .FCAL_EN data ∧ low = 3 ∧ high = 3) ∨
        (i = .fieldWrite .RAMP_EN data ∧ low = 15 ∧ high = 15)))) :
    WellFormed i = true ∧ bodyOf i s = (modifyRegister 0 low high data s).andThen fun _ u => .ok .unit u := by
  obtain rfl | ⟨bit, ⟨rfl, rfl, rfl⟩ | ⟨rfl, rfl, rfl⟩ | ⟨rfl, rfl, rfl⟩ | ⟨rfl, rfl, rfl⟩ | ⟨rfl, rfl, rfl⟩⟩ := form
  · exact ⟨rfl, rfl⟩
  · exact ⟨rfl, bodyOf_fieldWrite_bitOfR0 (k := 0) rfl bit readback⟩
  · exact ⟨rfl, bodyOf_fieldWrite_bitOfR0 (k := 1) rfl bit readback⟩
  · exact ⟨rfl, bodyOf_fieldWrite_bitOfR0 (k := 2) rfl bit readback⟩
  · exact ⟨rfl, bodyOf_fieldWrite_bitOfR0 (k := 3) rfl bit readback⟩
  · exact ⟨rfl, bodyOf_fieldWrite_bitOfR0 (k := 15) rfl bit readback⟩

/-! ## READ_GROUP (41_register_access.md R130) -/

/-- The fields of a group are read one after another, and none of the reads disturbs the next. -/
theorem readFields_spec (fs : List FieldId) (s : State) (cfg : paramsOk s.cfg = true)
    (acc : ∀ f ∈ fs, fieldAccessible s.cfg f) (transport : transportOk (fs.map fun f => (fieldParts s.cfg f).length).sum s) :
    ∃ r t l, readFields fs s = .ok r t ∧ r.map Prod.fst = fs ∧
      (∀ e ∈ r, e.2 < 2 ^ fieldWidth s.cfg e.1 ∧ (readbackOk s = true → ∀ u, fieldValue s e.1 = some u → e.2 = u)) ∧
      Looked l s t ∧ l.map Transaction.sent = fs.flatMap (fun f => partReads (fieldParts s.cfg f)) ∧
      l.length = (fs.map fun f => (fieldParts s.cfg f).length).sum := by
  induction fs generalizing s with
  | nil => exact ⟨[], s, [], rfl, rfl, by simp, .refl s, rfl, rfl⟩
  | cons f fs ih =>
    obtain ⟨v, s₁, l₁, read, fits, looked₁, sent₁, len₁, known⟩ := readField_spec f s cfg (acc f (by simp))
      (transportOk_mono transport (by simp))
    have sameCfg := looked₁.ran.controller.cfg
    obtain ⟨r, t, l, reads, names, values, looked, sent, len⟩ := ih s₁ (sameCfg ▸ cfg)
      (fun g hg => sameCfg ▸ acc g (List.mem_cons_of_mem f hg))
      (looked₁.ran.transportOk transport (by simp [sameCfg, len₁, Nat.add_comm]))
    simp only [sameCfg, looked₁.readbackOk, looked₁.fieldValue] at values sent len
    refine ⟨(f, v) :: r, t, l₁ ++ l, ?_, by simp [names], ?_, looked₁.trans looked, by simp [sent₁, sent], by simp [len₁, len]⟩
    · rw [readFields, read, andThen_ok, reads, andThen_ok]
    · intro e he
      obtain rfl | he := List.mem_cons.1 he
      · exact ⟨fits, fun readback u hu => (known readback u hu).1⟩
      · exact values e he

/-- Every read of a status register is a draw (10_state.md R27, 20_memory.md R67). -/
theorem readRegister_status {a : Nat} {s : State} (ha : 110 ≤ a) (acc : accessible s.cfg a) (transport : transportOk 1 s) :
    ∃ t, readRegister a s = .ok (Config.draw s.draws) t ∧ Looked [readTransaction a (Config.draw s.draws)] s t ∧
      t.draws = s.draws + 1 := by
  obtain ⟨w, t, read, looked, answer⟩ := memRead_spec a s acc.1 transport
  rw [if_neg (by omega)] at answer
  obtain ⟨rfl, draws⟩ := answer
  exact ⟨t, (readRegister_ok acc).trans read, looked, draws⟩

end Sys2Proof.Machine

namespace Sys2Proof.Proofs

open Sys2Proof.Machine Sys2Proof.Safety

/-- Settles O9: the body of every access begins with `checkAddr`, and a field stops at its first part at a reserved address. -/
theorem addressIsCheckedBeforeAnyTransaction : Obligations.AddressIsCheckedBeforeAnyTransaction := by
  refine ⟨fun s a w low high data i => ⟨?outside, ?reserved⟩, fun s f before after p cfg layout reserved acc => ⟨?read, ?write⟩⟩
  case outside =>
    intro form outside
    obtain ⟨wf, k, body⟩ := bodyOf_access s.begin form
    exact errorUntouched_of_body wf (by rw [body, checkAddr_outside _ outside, andThen_error])
  case reserved =>
    intro form ha reserved
    have begins : WellFormed i = true ∧ ∃ k, bodyOf i s.begin = (checkAddr a s.begin).andThen k := by
      obtain read | write | modify | frame := form
      · exact bodyOf_access (w := w) (low := low) (high := high) (data := data) _ (.inl read)
      · exact bodyOf_access (low := low) (high := high) (data := data) _ (.inr (.inl write))
      · exact bodyOf_access (w := w) _ (.inr (.inr modify))
      · exact bodyOf_frame _ ha frame
    obtain ⟨wf, k, body⟩ := begins
    exact faultedUntouched_of_body wf (by rw [body, checkAddr_reserved (s := s.begin) ha reserved, andThen_fault])
  case read =>
    intro transport
    obtain ⟨t, l, read, looked, sent⟩ := readField_reserved (s := s.begin) cfg layout reserved acc transport
    have body : bodyOf (.fieldRead f) s.begin = .fault (.reserved p.addr) t := by rw [bodyOf, read, andThen_fault]
    have len : l.length = before.length := by simpa using congrArg List.length sent
    obtain ⟨taken, trace, used⟩ := looked.ran.fault_done (.reserved p.addr)
    exact ⟨_, exec_of_fault rfl body, taken, ⟨looked.device.x, looked.device.committed, looked.device.nConsistent⟩,
      looked.life, by rw [trace, sent], len ▸ used⟩
  case write =>
    intro v nonneg fits gate noHazard transport
    obtain ⟨t, l, write, ran, len, value, others, kept, committed, consistent, pllN, life⟩ :=
      writeField_reserved (s := s.begin) cfg layout reserved acc ⟨nonneg, fits⟩ gate
        (fun q hq => fcalHazard_of_noFcalHazard noHazard (List.mem_map_of_mem hq)) transport
    have body : bodyOf (.fieldWrite f v) s.begin = .fault (.reserved p.addr) t := by rw [bodyOf, write, andThen_fault]
    obtain ⟨taken, _, used⟩ := ran.fault_done (.reserved p.addr)
    exact ⟨_, exec_of_fault rfl body, taken, value, others, kept, committed, consistent, pllN, life, len ▸ used⟩

/-- Settles O22: `modifyRegister_spec` gives the read, the write and what they leave; the word is SET_BITS's. -/
theorem modifyIsReadThenWrite : Obligations.ModifyIsReadThenWrite := by
  intro s a low high data offR0 ha acc range readback noHazard transport
  have noFault : fcalHazard a s.begin = false := fcalHazard_of_noFcalHazard noHazard (by simp)
  obtain ⟨old, t, modify, read, ran, x, committed, consistent, life⟩ :=
    modifyRegister_spec (s := s.begin) (d := data) (by omega) acc ha range readback noFault transport
  have body : bodyOf (.modify a low high data) s.begin = .ok .unit t := by rw [bodyOf, modify, andThen_ok]
  refine ⟨_, old, _, exec_of_ok rfl body, rfl, read, fun i _ => setBitsWord_getLsbD _ _ _ _ i (by omega) (by omega), ?stored,
    ?others, committed, consistent, life, ran.controller_done _, ran.trace_done, ran.used_done _⟩
  case stored => simpa [x] using regGet_set_same s.x a _ ha
  case others => exact fun b other => by simpa [x] using regGet_set_other s.x a b _ (by simpa using other)

/-- Settles O23: all six forms are one MODIFY of R0, whose write has the effects of `memWrite_zero_spec`. -/
theorem modifyOfR0HasTheEffectsOfAWrite : Obligations.ModifyOfR0HasTheEffectsOfAWrite := by
  intro s low high data old new i cfg acc range readback known transport bits consistent form
  have word : new = setBitsWord old low.toNat high.toNat data := eq_setBitsWord (by omega) (by omega) bits
  obtain ⟨t, modify, written, ran, draws⟩ :=
    modifyRegister_zero_spec (s := s.begin) cfg acc range readback known transport word consistent
  obtain ⟨wf, body⟩ := bodyOf_modifyR0 (s := s.begin) readback form
  rw [modify, andThen_ok] at body
  exact ⟨_, exec_of_ok wf body, rfl, r0Written_done written _, ran.controller_done _, ran.trace_done, ran.used_done _, draws⟩

/-- Settles O24: each check that fails ends MODIFY in the state it started in; past the last one the read is issued. -/
theorem modifyChecksInOrder : Obligations.ModifyChecksInOrder := by
  intro s a low high data
  split_ifs with range outside reserved readOnly locked
  · obtain ⟨k, body⟩ := bodyOf_modify_checkAddr a data s.begin range
    exact errorUntouched_of_body rfl (by rw [body, checkAddr_outside _ outside, andThen_error])
  · obtain ⟨k, body⟩ := bodyOf_modify_checkAddr a data s.begin range
    exact faultedUntouched_of_body rfl (by rw [body, checkAddr_reserved (s := s.begin) (by omega) reserved, andThen_fault])
  · have acc : accessible s.begin.cfg a := ⟨by omega, reserved⟩
    exact faultedUntouched_of_body rfl (by rw [bodyOf, modifyRegister_readOnly data acc readOnly range, andThen_fault])
  · have acc : accessible s.begin.cfg a := ⟨by omega, reserved⟩
    exact faultedUntouched_of_body rfl
      (by rw [bodyOf, modifyRegister_gateFault data acc (by omega) range locked, andThen_fault])
  · have acc : accessible s.begin.cfg a := ⟨by omega, reserved⟩
    have readback : readbackOk s.begin = true := by simpa using locked
    obtain ⟨u, traced, ended⟩ := ended_finish (bodyOf_modify_traced data acc (by omega) range readback)
    exact ⟨_, exec_eq _ s rfl, ended.trace ▸ traced⟩
  · exact faultedUntouched_of_body rfl (by rw [bodyOf, modifyRegister_range a data _ range, andThen_fault])

/-- Settles O25: the operand checks have passed, and the gate faults in the state the command started in. -/
theorem lockedCommandsFaultBeforeAnyTransaction : Obligations.LockedCommandsFaultBeforeAnyTransaction := by
  intro s locked
  have gate (c : LockedCommand) : checkReadback c s.begin = .fault (.locked c) s.begin := checkReadback_fault c locked
  have power (c : Channel) {l : Int} (nonneg : 0 ≤ l) (level : l ≤ s.cfg.outPwrMax) (fits : l < 64) :
      ∃ t, exec (.setOutputPower c l) s = .next t ∧ FaultedUntouched (.locked (.fieldWrite (powerField c))) s t :=
    faultedUntouched_of_body rfl
      (by rw [bodyOf, setOutputPowerOp_gateFault (s := s.begin) c nonneg level fits locked, andThen_fault])
  refine ⟨?modify, ?fieldWrite, ?configureRamp, ?setDivider, ?setOutputPower, ?arm⟩
  case modify =>
    intro a low high data range ha notReserved
    have acc : accessible s.begin.cfg a := ⟨by omega, notReserved⟩
    exact faultedUntouched_of_body rfl (by rw [bodyOf, modifyRegister_gateFault data acc ha range locked, andThen_fault])
  case fieldWrite =>
    intro f v nonneg fits isPartial
    exact faultedUntouched_of_body rfl
      (by rw [bodyOf, writeField_gateFault (s := s.begin) ⟨nonneg, fits⟩ isPartial locked, andThen_fault])
  case configureRamp =>
    intro _ _ _ _ _
    exact faultedUntouched_of_body rfl (by rw [bodyOf, configureRampOp, gate, andThen_fault, andThen_fault])
  case setDivider =>
    intro n num den hn hnum hden
    exact faultedUntouched_of_body rfl
      (by rw [bodyOf, setDividerOp_gateFault (s := s.begin) hn hnum hden locked, andThen_fault])
  case setOutputPower => exact fun l nonneg level fits => ⟨power .A nonneg level fits, power .B nonneg level fits⟩
  case arm => exact faultedUntouched_of_body rfl (by rw [bodyOf, armOp, gate, andThen_fault, andThen_fault])

/-- Settles O26: `readField_spec` at the start of the command. -/
theorem fieldReadJoinsItsParts : Obligations.FieldReadJoinsItsParts := by
  intro s f cfg acc transport
  obtain ⟨v, t, l, read, fits, looked, sent, len, known⟩ := readField_spec f s.begin cfg acc transport
  have body : bodyOf (.fieldRead f) s.begin = .ok (.nat v) t := by rw [bodyOf, read, andThen_ok]
  exact ⟨_, v, exec_of_ok rfl body, rfl, fits, fun readback u hu => (known readback u hu).1, looked.block_done _,
    by rw [looked.ran.trace_done, sent]; rfl, len ▸ looked.ran.used_done _⟩

/-- Settles O27: the width is the first check of FIELD_WRITE and the gate the second. -/
theorem fieldWriteChecksWidthThenGate : Obligations.FieldWriteChecksWidthThenGate := by
  intro s f v
  constructor
  · intro wide
    have narrow : ¬ (0 ≤ v ∧ v < 2 ^ fieldWidth s.begin.cfg f) := fun fits => by
      simp only [State.begin_cfg] at fits; omega
    exact errorUntouched_of_body rfl (by rw [bodyOf, writeField_width narrow, andThen_error])
  · intro nonneg fits isPartial locked
    exact faultedUntouched_of_body rfl
      (by rw [bodyOf, writeField_gateFault (s := s.begin) ⟨nonneg, fits⟩ isPartial locked, andThen_fault])

/-- Settles O28: `writeField_spec` at the start of the command. -/
theorem fieldWriteStoresTheValue : Obligations.FieldWriteStoresTheValue := by
  intro s f v cfg acc offR0 nonneg fits gate noHazard transport
  obtain ⟨t, l, write, ran, len, value, others, kept, committed, consistent, pllN, life⟩ :=
    writeField_spec f v s.begin cfg acc offR0 nonneg fits gate
      (fun q part => fcalHazard_of_noFcalHazard noHazard (List.mem_map_of_mem part)) transport
  have body : bodyOf (.fieldWrite f v) s.begin = .ok .unit t := by rw [bodyOf, write, andThen_ok]
  have used : l.length = fieldWrites s.cfg f := len
  exact ⟨_, exec_of_ok rfl body, rfl, value, others, kept, committed, pllN, consistent, life, ran.controller_done _,
    used ▸ ran.used_done _⟩

/-- Settles O30: the group's fields are read one after another, each by `readField_spec`. -/
theorem readGroupReadsItsFields : Obligations.ReadGroupReadsItsFields := by
  intro s g ofFields cfg acc transport
  obtain ⟨r, t, l, read, names, values, looked, sent, len⟩ := readFields_spec (groupFields g) s.begin cfg acc transport
  have body : bodyOf (.readGroup g) s.begin = .ok (.fields r) t := by
    rw [bodyOf, readGroupOp, if_neg ofFields, read, andThen_ok]
  exact ⟨_, r, exec_of_ok rfl body, rfl, names, values, looked.block_done _, by rw [looked.ran.trace_done, sent]; rfl,
    len ▸ looked.ran.used_done _⟩

/-- Settles O31: each of the three reads is a draw, and the counter has moved on by one in between. -/
theorem statusGroupIsThreeDraws : Obligations.StatusGroupIsThreeDraws := by
  intro s acc₀ acc₁ acc₂ transport
  obtain ⟨s₁, read₀, look₀, draws₀⟩ := readRegister_status (a := 110) (s := s.begin) le_rfl acc₀
    (transportOk_mono transport (by omega))
  obtain ⟨s₂, read₁, look₁, draws₁⟩ := readRegister_status (a := 111) (s := s₁) (by omega)
    (look₀.ran.controller.cfg ▸ acc₁) (look₀.ran.transportOk transport (by simp))
  have look₀₁ := look₀.trans look₁
  obtain ⟨s₃, read₂, look₂, _⟩ := readRegister_status (a := 112) (s := s₂) (by omega)
    (look₀₁.ran.controller.cfg ▸ acc₂) (look₀₁.ran.transportOk transport (by simp))
  have looked := look₀₁.trans look₂
  rw [draws₀] at read₁ draws₁ looked
  rw [draws₁] at read₂ looked
  have body : bodyOf (.readGroup .status) s.begin =
      .ok (.status (Config.draw s.draws) (Config.draw (s.draws + 1)) (Config.draw (s.draws + 2))) s₃ := by
    rw [bodyOf, readGroupOp, if_pos rfl, readStatus, read₀, andThen_ok, read₁, andThen_ok, read₂, andThen_ok]
    rfl
  exact ⟨_, _, _, _, exec_of_ok rfl body, rfl, rfl, rfl, rfl, looked.block_done _, looked.ran.trace_done, looked.ran.used_done _⟩

end Sys2Proof.Proofs

/-!
PROOFS. The statements about 42_frequency_model.md: the frequencies that GET_FPD, GET_FVCO and GET_FSMCLK compute from fresh reads
(R151 to R153), the divisors that read 0, for CONFIGURE_RAMP too (43_ramp_configurator.md R170), and the guard-band codes (R158).
-/

namespace Sys2Proof.Machine

open Sys2Proof.Safety

/-! ## ROUND of a difference -/

/-- Only one integer is nearest with ties to even: two of them would differ by 1, and both be even (00_scope.md R13, log 6). -/
theorem eq_roundHalfEven {q : Rat} {n : Int} (near : |(n : Rat) - q| ≤ 1 / 2) (even : |(n : Rat) - q| = 1 / 2 → n % 2 = 0) :
    n = roundHalfEven q := by
  obtain ⟨near', even'⟩ := Proofs.roundIsNearestTiesToEven q
  have apart : |(n : Rat) - roundHalfEven q| ≤ |(n : Rat) - q| + |(roundHalfEven q : Rat) - q| := by
    simpa only [abs_sub_comm q] using abs_sub_le (n : Rat) q (roundHalfEven q)
  by_contra ne
  have one_le : (1 : Rat) ≤ |(n : Rat) - roundHalfEven q| := by
    exact_mod_cast Int.one_le_abs (sub_ne_zero.mpr ne)
  have tie := even (by linarith)
  have tie' := even' (by linarith)
  have le_one : |n - roundHalfEven q| ≤ 1 := by
    have : |(n : Rat) - roundHalfEven q| ≤ 1 := by linarith
    exact_mod_cast this
  rw [abs_le] at le_one
  omega

/-- ROUND turns round with its argument about an even integer. -/
theorem roundHalfEven_even_sub {m : Int} (even : m % 2 = 0) (q : Rat) : roundHalfEven (m - q) = m - roundHalfEven q := by
  obtain ⟨near, tie⟩ := Proofs.roundIsNearestTiesToEven q
  have mirror : |((m - roundHalfEven q : Int) : Rat) - (m - q)| = |(roundHalfEven q : Rat) - q| := by
    rw [abs_sub_comm (roundHalfEven q : Rat)]
    push_cast
    congr 1
    ring
  refine (eq_roundHalfEven (mirror ▸ near) fun half => ?_).symm
  have := tie (mirror ▸ half)
  omega

/-! ## The guard-band codes (42_frequency_model.md R158) -/

/-- The VCO frequency cancels out of the high code. -/
theorem limitHighCode_eq (span fpd fvco : Rat) : limitHighCode span fpd fvco = roundHalfEven (33554432 * span / fpd) := by
  have cancel : (fvco + 2 * span - fvco) / fpd * fracScale = 33554432 * span / fpd := by rw [fracScale]; ring
  exact congrArg roundHalfEven cancel

/-- The VCO frequency cancels out of the low code, which is 2^33 less what the high code rounds. -/
theorem limitLowCode_eq (span fpd fvco : Rat) :
    limitLowCode span fpd fvco = roundHalfEven ((8589934592 : Int) - 33554432 * span / fpd) := by
  have cancel : 8589934592 - fracScale * (fvco - (fvco - 2 * span)) / fpd =
      ((8589934592 : Int) : Rat) - 33554432 * span / fpd := by
    rw [fracScale]
    push_cast
    ring
  exact congrArg roundHalfEven cancel

/-! ## Commands that only read, and how they end -/

/-- `t` is `s` after successful reads that sent these frames. -/
def Reads (frames : List (List Byte)) (s t : State) : Prop := ∃ l, Looked l s t ∧ l.map Transaction.sent = frames

theorem Reads.trans {fs gs : List (List Byte)} {s t u : State} (h : Reads fs s t) (k : Reads gs t u) : Reads (fs ++ gs) s u := by
  obtain ⟨l, looked, sent⟩ := h
  obtain ⟨m, looked', sent'⟩ := k
  exact ⟨l ++ m, looked.trans looked', by rw [List.map_append, sent, sent']⟩

theorem Reads.cfg {fs : List (List Byte)} {s t : State} (h : Reads fs s t) : t.cfg = s.cfg := by
  obtain ⟨_, looked, _⟩ := h
  exact looked.ran.controller.cfg

theorem Reads.transportOk {fs : List (List Byte)} {s t : State} (h : Reads fs s t) {k m : Nat} (hm : Safety.transportOk m s)
    (enough : k + fs.length ≤ m) : Safety.transportOk k t := by
  obtain ⟨_, looked, rfl⟩ := h
  exact looked.ran.transportOk hm (by simpa using enough)

/-- The command answers `v` after reads that sent these frames, and leaves the block as it was. -/
abbrev AnswersAfter (v : Value) (frames : List (List Byte)) (i : Instr) (s : State) : Prop :=
  ∃ t, exec i s = .next t ∧ t.result = some (.ok v) ∧ SameBlock s t ∧ t.trace.map Transaction.sent = frames ∧
    Used frames.length s t

/-- The command takes the fault `f` after reads that sent these frames, and leaves the rest of the block as it was. -/
abbrev FaultsAfter (f : FaultRecord) (frames : List (List Byte)) (i : Instr) (s : State) : Prop :=
  ∃ t, exec i s = .next t ∧ FaultTaken f s t ∧ SameDevice s t ∧ t.life = s.life ∧ t.trace.map Transaction.sent = frames ∧
    Used frames.length s t

theorem Reads.answersAfter {fs : List (List Byte)} {i : Instr} {s t : State} {v : Value} (h : Reads fs s.begin t)
    (wf : WellFormed i = true) (body : bodyOf i s.begin = .ok v t) : AnswersAfter v fs i s := by
  obtain ⟨l, looked, rfl⟩ := h
  exact ⟨_, exec_of_ok wf body, rfl, looked.block_done _, congrArg _ looked.ran.trace_done, by
    simpa using looked.ran.used_done (some (.ok v))⟩

theorem Reads.faultsAfter {fs : List (List Byte)} {i : Instr} {s t : State} {f : FaultRecord} (h : Reads fs s.begin t)
    (wf : WellFormed i = true) (body : bodyOf i s.begin = .fault f t) : FaultsAfter f fs i s := by
  obtain ⟨l, looked, rfl⟩ := h
  obtain ⟨taken, trace, used⟩ := looked.ran.fault_done f
  exact ⟨_, exec_of_fault wf body, taken, ⟨looked.device.x, looked.device.committed, looked.device.nConsistent⟩, looked.life,
    congrArg _ trace, by simpa using used⟩

/-! ## The reads of `compute_fpd` (42_frequency_model.md R151) -/

/-- The frames of the reads of R9, R12, R10 and R11. -/
abbrev fpdFrames : List (List Byte) := [[0x89], [0x8C], [0x8A], [0x8B]]

/-- The divisor that F_DIV0 names where `compute_fpd` reads one of the two as 0 (log 13). -/
abbrev zeroDivisor (rpre : Nat) : FaultRecord := .div0 (if rpre = 0 then .PLL_R_PRE else .PLL_R)

/-- How `compute_fpd` ends once its reads have found these four values. -/
structure FpdEnds (s t : State) (osc2x rpre mult r : Nat) : Prop where
  reads : Reads fpdFrames s t
  zero : rpre = 0 ∨ r = 0 → computeFpd s = .fault (zeroDivisor rpre) t
  value : rpre ≠ 0 → r ≠ 0 → computeFpd s = .ok (fpdOf s.fOscIn osc2x rpre mult r) t

theorem fpdEnds_of_checks {l : List Transaction} {s t : State} {osc2x rpre mult r : Nat} (looked : Looked l s t)
    (sent : l.map Transaction.sent = fpdFrames)
    (checks : computeFpd s = (faultIf (decide (rpre = 0)) (.div0 .PLL_R_PRE) t).andThen fun _ s₅ =>
      (faultIf (decide (r = 0)) (.div0 .PLL_R) s₅).andThen fun _ s₆ => .ok (fpdOf s.fOscIn osc2x rpre mult r) s₆) :
    FpdEnds s t osc2x rpre mult r where
  reads := ⟨l, looked, sent⟩
  zero zero := by
    rw [checks]
    by_cases rpreZero : rpre = 0
    · simp [rpreZero]
    · simp [rpreZero, zero.resolve_left rpreZero]
  value rpreNonzero rNonzero := by simp [checks, rpreNonzero, rNonzero]

/-- In every state the four reads find some values of the fields' widths. -/
theorem fpdEnds_any {s : State} (acc : ∀ a ∈ [9, 12, 10, 11], accessible s.cfg a) (transport : transportOk 4 s) :
    ∃ osc2x rpre mult r t, FpdRead s osc2x rpre mult r ∧ FpdEnds s t osc2x rpre mult r := by
  obtain ⟨osc2x, rpre, mult, r, t, l, read, looked, sent, checks⟩ := computeFpd_spec acc transport
  exact ⟨osc2x, rpre, mult, r, t, read, fpdEnds_of_checks looked sent checks⟩

/-- On a known plan the four reads find what it holds. -/
theorem fpdEnds_known {s : State} {osc2x rpre mult r : Nat} (plan : FpdKnown s osc2x rpre mult r) (transport : transportOk 4 s) :
    ∃ t, FpdEnds s t osc2x rpre mult r := by
  obtain ⟨t, l, looked, sent, checks⟩ := computeFpd_known plan transport
  exact ⟨t, fpdEnds_of_checks looked sent checks⟩

/-! ## The reads of `fvco_from` (42_frequency_model.md R152) -/

/-- The frames of the reads of R34, R36, R42, R43, R38 and R39. -/
abbrev dividerFrames : List (List Byte) := [[0xA2], [0xA4], [0xAA], [0xAB], [0xA6], [0xA7]]

/-- How `fvco_from` ends once its reads have found these three values. -/
structure FvcoEnds (fpd : Rat) (s t : State) (n num den : Nat) : Prop where
  reads : Reads dividerFrames s t
  zero : den = 0 → fvcoFrom fpd s = .fault (.div0 .PLL_DEN) t
  value : den ≠ 0 → fvcoFrom fpd s = .ok (fvcoOf fpd n num den) t

theorem fvcoEnds_of_check {l : List Transaction} {fpd : Rat} {s t : State} {n num den : Nat} (looked : Looked l s t)
    (sent : l.map Transaction.sent = dividerFrames)
    (check : fvcoFrom fpd s = (faultIf (decide (den = 0)) (.div0 .PLL_DEN) t).andThen fun _ s₄ =>
      .ok (fvcoOf fpd n num den) s₄) :
    FvcoEnds fpd s t n num den where
  reads := ⟨l, looked, sent⟩
  zero denZero := by simp [check, denZero]
  value denNonzero := by simp [check, denNonzero]

/-- Reads change nothing that says what the values found are. -/
theorem FvcoRead.before {fs : List (List Byte)} {s t : State} {n num den : Nat} (h : FvcoRead t n num den) (reads : Reads fs s t) :
    FvcoRead s n num den := by
  obtain ⟨_, looked, _⟩ := reads
  obtain ⟨nLt, numLt, denLt, nKnown, numKnown, denKnown⟩ := h
  rw [looked.readbackOk, looked.fieldValue] at nKnown numKnown denKnown
  exact ⟨nLt, numLt, denLt, nKnown, numKnown, denKnown⟩

/-- After reads from any state the six reads find some values of the fields' widths. -/
theorem fvcoEnds_any {fs : List (List Byte)} {s t : State} (fpd : Rat) (reads : Reads fs s t)
    (acc : ∀ a ∈ [34, 36, 42, 43, 38, 39], accessible s.cfg a) (transport : transportOk (6 + fs.length) s) :
    ∃ n num den u, FvcoRead s n num den ∧ FvcoEnds fpd t u n num den := by
  obtain ⟨n, num, den, u, l, read, looked, sent, check⟩ :=
    fvcoFrom_spec fpd (reads.cfg ▸ acc) (reads.transportOk transport le_rfl)
  exact ⟨n, num, den, u, read.before reads, fvcoEnds_of_check looked sent check⟩

/-- After reads from a state that knows the divider the six reads find what it holds. -/
theorem fvcoEnds_known {fs : List (List Byte)} {s t : State} {n num den : Nat} (fpd : Rat) (reads : Reads fs s t)
    (divider : FvcoKnown s n num den) (transport : transportOk (6 + fs.length) s) : ∃ u, FvcoEnds fpd t u n num den := by
  have ready := reads.transportOk transport le_rfl
  obtain ⟨_, before, _⟩ := reads
  obtain ⟨u, l, looked, sent, check⟩ := fvcoFrom_known fpd (before.fvcoKnown divider) ready
  exact ⟨u, fvcoEnds_of_check looked sent check⟩

/-! ## The commands that compute a frequency -/

theorem bodyOf_getFvco (s : State) : bodyOf .getFvco s =
    (computeFpd s).andThen fun fpd s₁ => (fvcoFrom fpd s₁).andThen fun q s₂ => .ok (.freq q) s₂ := andThen_assoc _ _ _

/-- With the gate passed, CONFIGURE_RAMP begins like GET_FVCO (43_ramp_configurator.md R170 phase 1). -/
theorem bodyOf_configureRamp {s : State} (span duration threshold : Rat) (descending freeRun : Bool)
    (readback : readbackOk s = true) :
    ∃ k : Rat → Rat → State → Reply Value, bodyOf (.configureRamp span duration threshold descending freeRun) s =
      (computeFpd s).andThen fun fpd s₁ => (fvcoFrom fpd s₁).andThen (k fpd) := by
  rw [bodyOf, configureRampOp, checkReadback_ok readback, andThen_ok, andThen_assoc]
  simp only [andThen_assoc]
  exact ⟨_, rfl⟩

/-- A command that begins with `compute_fpd` faults where it finds a divisor 0. -/
theorem FpdEnds.faultsAfter {i : Instr} {s t : State} {osc2x rpre mult r : Nat} (ends : FpdEnds s.begin t osc2x rpre mult r)
    (zero : rpre = 0 ∨ r = 0) (wf : WellFormed i = true) {k : Rat → State → Reply Value}
    (body : bodyOf i s.begin = (computeFpd s.begin).andThen k) : FaultsAfter (zeroDivisor rpre) fpdFrames i s :=
  ends.reads.faultsAfter wf (by rw [body, ends.zero zero, andThen_fault])

theorem FpdEnds.getFpd {s t : State} {osc2x rpre mult r : Nat} (ends : FpdEnds s.begin t osc2x rpre mult r) (hrpre : rpre ≠ 0)
    (hr : r ≠ 0) : AnswersAfter (.freq (fpdOf s.fOscIn osc2x rpre mult r)) fpdFrames .getFpd s :=
  ends.reads.answersAfter rfl (by rw [bodyOf, ends.value hrpre hr, andThen_ok]; rfl)

/-- A command that begins with `compute_fvco` faults where it finds only PLL_DEN 0. -/
theorem FvcoEnds.faultsAfter {i : Instr} {fpd : Rat} {s t u : State} {n num den : Nat} (ends : FvcoEnds fpd t u n num den)
    (before : Reads fpdFrames s.begin t) (fpdValue : computeFpd s.begin = .ok fpd t) (zero : den = 0) (wf : WellFormed i = true)
    {k : Rat → Rat → State → Reply Value}
    (body : bodyOf i s.begin = (computeFpd s.begin).andThen fun fpd s₁ => (fvcoFrom fpd s₁).andThen (k fpd)) :
    FaultsAfter (.div0 .PLL_DEN) (fpdFrames ++ dividerFrames) i s :=
  (before.trans ends.reads).faultsAfter wf (by rw [body, fpdValue, andThen_ok, ends.zero zero, andThen_fault])

theorem FvcoEnds.getFvco {fpd : Rat} {s t u : State} {n num den : Nat} (ends : FvcoEnds fpd t u n num den)
    (before : Reads fpdFrames s.begin t) (fpdValue : computeFpd s.begin = .ok fpd t) (nonzero : den ≠ 0) :
    AnswersAfter (.freq (fvcoOf fpd n num den)) (fpdFrames ++ dividerFrames) .getFvco s :=
  (before.trans ends.reads).answersAfter rfl
    (by rw [bodyOf_getFvco, fpdValue, andThen_ok, ends.value nonzero, andThen_ok])

end Sys2Proof.Machine

namespace Sys2Proof.Proofs

open Sys2Proof.Machine Sys2Proof.Safety

/-- Settles O35: the four values found serve GET_FPD and GET_FVCO, since both begin with the same reads of the same state. -/
theorem frequencyCommandsRunInEveryState : Obligations.FrequencyCommandsRunInEveryState := by
  intro s acc transport
  obtain ⟨osc2x, rpre, mult, r, t, read, ends⟩ := fpdEnds_any (s := s.begin) acc transport
  refine ⟨osc2x, rpre, mult, r, read.osc2x_lt, read.rpre_lt, read.mult_lt, read.r_lt,
    fun readback => ⟨read.osc2x readback, read.rpre readback, read.mult readback, read.r readback⟩, ?divisorZero, ends.getFpd,
    ?getFvco⟩
  case divisorZero =>
    rintro i (rfl | rfl) zero
    · exact ends.faultsAfter zero rfl rfl
    · exact ends.faultsAfter zero rfl (bodyOf_getFvco _)
  case getFvco =>
    intro hrpre hr acc' transport'
    have fpdValue := ends.value hrpre hr
    obtain ⟨n, num, den, u, read', ends'⟩ := fvcoEnds_any _ ends.reads acc' transport'
    have known (readback : readbackOk s = true) :=
      And.intro (read'.n readback) (And.intro (read'.num readback) (read'.den readback))
    by_cases denZero : den = 0
    · obtain ⟨v, run, taken, device, life, sent, used⟩ :=
        ends'.faultsAfter ends.reads fpdValue denZero rfl (bodyOf_getFvco _)
      exact ⟨v, n, num, den, run, read'.n_lt, read'.num_lt, read'.den_lt, known,
        by rw [if_pos denZero]; exact ⟨taken, device, life⟩, sent, used⟩
    · obtain ⟨v, run, result, block, sent, used⟩ := ends'.getFvco ends.reads fpdValue denZero
      exact ⟨v, n, num, den, run, read'.n_lt, read'.num_lt, read'.den_lt, known,
        by rw [if_neg denZero]; exact ⟨result, block⟩, sent, used⟩

/-- Settles O34: GET_FVCO and CONFIGURE_RAMP begin with `compute_fpd`, and `fvco_from` is the next that CONFIGURE_RAMP runs. -/
theorem zeroDivisorEndsThePlanReads : Obligations.ZeroDivisorEndsThePlanReads := by
  intro s osc2x rpre mult r span duration threshold descending freeRun acc readback hosc2x hrpre hmult hr
  have plan : FpdKnown s.begin osc2x rpre mult r := ⟨readback, acc, hosc2x, hrpre, hmult, hr⟩
  obtain ⟨k, body⟩ := bodyOf_configureRamp (s := s.begin) span duration threshold descending freeRun readback
  constructor
  · intro i form zero transport
    obtain ⟨t, ends⟩ := fpdEnds_known plan transport
    obtain rfl | rfl := form
    · exact ends.faultsAfter zero rfl (bodyOf_getFvco _)
    · exact ends.faultsAfter zero rfl body
  · intro n num acc' hn hnum hden rpreNonzero rNonzero transport
    obtain ⟨t, ends⟩ := fpdEnds_known plan (transportOk_mono transport (by omega))
    have divider : FvcoKnown s.begin n num 0 := ⟨readback, acc', hn, hnum, hden⟩
    obtain ⟨u, ends'⟩ := fvcoEnds_known _ ends.reads divider transport
    exact ends'.faultsAfter ends.reads (ends.value rpreNonzero rNonzero) rfl rfl body

/-- Settles O32: the reads find the known plan, and the divisors decide how `compute_fpd` ends. -/
theorem getFpdComputesThePhaseDetectorFrequency : Obligations.GetFpdComputesThePhaseDetectorFrequency := by
  intro s osc2x rpre mult r acc readback hosc2x hrpre hmult hr transport
  obtain ⟨t, ends⟩ := fpdEnds_known (s := s.begin) ⟨readback, acc, hosc2x, hrpre, hmult, hr⟩ transport
  by_cases zero : rpre = 0 ∨ r = 0
  · obtain ⟨u, run, taken, device, life, sent, used⟩ := ends.faultsAfter (i := .getFpd) zero rfl rfl
    refine ⟨u, run, sent, used, device, life, taken.fOscIn, taken.cfg, taken.requests,
      fun rpreNonzero rNonzero => (zero.elim rpreNonzero rNonzero).elim, fun rpreZero => ?_, fun rpreNonzero _ => ?_⟩
    · simpa [zeroDivisor, rpreZero] using And.intro taken.faults taken.result
    · simpa [zeroDivisor, rpreNonzero] using And.intro taken.faults taken.result
  · obtain ⟨rpreNonzero, rNonzero⟩ := not_or.1 zero
    obtain ⟨u, run, result, block, sent, used⟩ := ends.getFpd rpreNonzero rNonzero
    exact ⟨u, run, sent, used, block.device, block.life, block.controller.fOscIn, block.controller.cfg,
      block.controller.requests, fun _ _ => ⟨block.controller.faults, result⟩, fun rpreZero => (rpreNonzero rpreZero).elim,
      fun _ rZero => (rNonzero rZero).elim⟩

/-- Settles O33: `compute_fpd` has its value, and PLL_DEN decides how `fvco_from` ends. -/
theorem getFvcoComputesTheVcoFrequency : Obligations.GetFvcoComputesTheVcoFrequency := by
  intro s osc2x rpre mult r n num den acc readback hosc2x hrpre hmult hr hn hnum hden rpreNonzero rNonzero transport
  obtain ⟨accFpd, accDivider⟩ := (List.forall_mem_append (l₁ := [9, 12, 10, 11])).1 acc
  have plan : FpdKnown s.begin osc2x rpre mult r := ⟨readback, accFpd, hosc2x, hrpre, hmult, hr⟩
  have divider : FvcoKnown s.begin n num den := ⟨readback, accDivider, hn, hnum, hden⟩
  obtain ⟨t, ends⟩ := fpdEnds_known plan (transportOk_mono transport (by omega))
  have fpdValue := ends.value rpreNonzero rNonzero
  obtain ⟨u, ends'⟩ := fvcoEnds_known _ ends.reads divider transport
  by_cases denZero : den = 0
  · obtain ⟨v, run, taken, device, life, sent, used⟩ := ends'.faultsAfter ends.reads fpdValue denZero rfl (bodyOf_getFvco _)
    exact ⟨v, run, sent, used, device, life, taken.fOscIn, taken.cfg, taken.requests,
      fun denNonzero => (denNonzero denZero).elim, fun _ => ⟨taken.faults, taken.result⟩⟩
  · obtain ⟨v, run, result, block, sent, used⟩ := ends'.getFvco ends.reads fpdValue denZero
    exact ⟨v, run, sent, used, block.device, block.life, block.controller.fOscIn, block.controller.cfg,
      block.controller.requests, fun _ => ⟨block.controller.faults, result⟩, fun zero => (denZero zero).elim⟩

/-- Settles O36: GET_FSMCLK is one FIELD_READ of CAL_CLK_DIV, three bits of R1. -/
theorem getFsmclkDividesTheReference : Obligations.GetFsmclkDividesTheReference := by
  intro s acc transport
  obtain ⟨c, t, l, read, looked, sent, fits, known⟩ := readField_any .CAL_CLK_DIV s.begin (by simp [fieldParts, PartOk])
    (by simpa [fieldAccessible, fieldParts] using acc) transport
  have reads : Reads [[0x81]] s.begin t := ⟨l, looked, sent⟩
  have fOscIn : t.fOscIn = s.fOscIn := looked.ran.controller.fOscIn
  have body : bodyOf .getFsmclk s.begin = .ok (.freq (fsmclkOf s.fOscIn c)) t := by
    rw [bodyOf, computeFsmclk, read, andThen_ok, andThen_ok, fOscIn]
  obtain ⟨u, run, result, block, frames, used⟩ := reads.answersAfter rfl body
  exact ⟨u, c, run, fits, result, known, block, frames, used⟩

/-- Settles O38: the low code rounds 2^33 less what the high code rounds, 2^33 is even, and neither has the VCO frequency in it. -/
theorem limitCodesSumToTheWrap : Obligations.LimitCodesSumToTheWrap := by
  intro span fpd fvco _
  have low : limitLowCode span fpd fvco = 8589934592 - limitHighCode span fpd fvco := by
    rw [limitLowCode_eq, roundHalfEven_even_sub (by norm_num), limitHighCode_eq]
  exact ⟨by omega, limitHighCode_eq span fpd fvco⟩

end Sys2Proof.Proofs

/-!
PROOFS. The statements about 43_ramp_configurator.md: the phases of CONFIGURE_RAMP and the codes it derives (R170 to R182),
SET_DIVIDER (R190, R191) and SET_OUTPUT_POWER (R195).
-/

namespace Sys2Proof.Machine

open Sys2Proof.Safety

/-! ## Checks in sequence -/

/-- An operand check decides whether the command goes on. -/
theorem requireParam_andThen {β : Type} (check : Prop) [Decidable check] (name : ParamCheck) (value : Rat) (s : State)
    (k : Unit → State → Reply β) :
    (requireParam (decide check) name value s).andThen k = if check then k () s else .error (.param name value) s := by
  by_cases passed : check
  · rw [decide_eq_true passed, requireParam_true, andThen_ok, if_pos passed]
  · rw [decide_eq_false passed, requireParam_false, andThen_error, if_neg passed]

/-- So does the check of a divisor. -/
theorem faultIf_andThen {β : Type} (cond : Prop) [Decidable cond] (f : FaultRecord) (s : State) (k : Unit → State → Reply β) :
    (faultIf (decide cond) f s).andThen k = if cond then .fault f s else k () s := by
  by_cases raised : cond
  · rw [decide_eq_true raised, faultIf_true, andThen_fault, if_pos raised]
  · rw [decide_eq_false raised, faultIf_false, andThen_ok, if_neg raised]

/-- A field may be written if its parts lie at addresses that pass the checks, none of them R0. -/
theorem fieldWritable_of_mem {addrs : List Nat} {f : FieldId} {v : Int} {s : State}
    (within : ∀ q ∈ fieldParts s.cfg f, q.addr ∈ addrs) (offR0 : 0 ∉ addrs) (acc : ∀ a ∈ addrs, accessible s.cfg a)
    (noHazard : ∀ a ∈ addrs, fcalHazard a s = false) (fits : 0 ≤ v ∧ v < 2 ^ fieldWidth s.cfg f) : FieldWritable s (f, v) where
  access q part := acc _ (within q part)
  notR0 q part r0 := offR0 (r0 ▸ within q part)
  nonneg := fits.1
  fits := fits.2
  noHazard q part := noHazard _ (within q part)

/-! ## CONFIGURE_RAMP: the reads of phase 1 (43_ramp_configurator.md R170) -/

/-- The frames of the ten reads of CONFIGURE_RAMP. -/
abbrev planFrames : List (List Byte) := fpdFrames ++ dividerFrames

/-- What the frequency plan and the divider hold, with no divisor 0 (42_frequency_model.md R151, R152). -/
structure PlanKnown (s : State) (osc2x rpre mult r n num den : Nat) : Prop where
  fpd : FpdKnown s osc2x rpre mult r
  divider : FvcoKnown s n num den
  rpre_ne : rpre ≠ 0
  r_ne : r ≠ 0
  den_ne : den ≠ 0

/-- After its ten reads CONFIGURE_RAMP derives its codes from what they found, and writes them. -/
theorem configureRampOp_planned {s : State} {osc2x rpre mult r n num den : Nat} (plan : PlanKnown s osc2x rpre mult r n num den)
    (transport : transportOk 10 s) :
    ∃ u, Reads planFrames s u ∧ ∀ span duration threshold descending freeRun,
      configureRampOp span duration threshold descending freeRun s =
        (deriveRamp span duration threshold descending (fpdOf s.fOscIn osc2x rpre mult r)
          (fvcoOf (fpdOf s.fOscIn osc2x rpre mult r) n num den) u).andThen fun c s₁ =>
          writeFields (rampWrites s₁.cfg freeRun c) s₁ := by
  obtain ⟨t, ends⟩ := fpdEnds_known plan.fpd (transportOk_mono transport (by omega))
  obtain ⟨u, ends'⟩ := fvcoEnds_known (fpdOf s.fOscIn osc2x rpre mult r) ends.reads plan.divider transport
  refine ⟨u, ends.reads.trans ends'.reads, fun span duration threshold descending freeRun => ?_⟩
  rw [configureRampOp, checkReadback_ok plan.fpd.readback, andThen_ok, ends.value plan.rpre_ne plan.r_ne, andThen_ok,
    ends'.value plan.den_ne, andThen_ok]

/-! ## CONFIGURE_RAMP: the codes of phase 2 (43_ramp_configurator.md R170, R172 to R175) -/

/-- `c` are the codes of a program on a plan, and `asc` is the ascending increment, as the formulas of R172 to R175 give them. -/
structure CodesOf (span duration threshold : Rat) (descending : Bool) (fpd fvco : Rat) (asc : Int) (c : RampCodes) : Prop where
  len : c.len = roundHalfEven (duration * fpd)
  ascending : asc = roundHalfEven (span / fpd * 16777216 / c.len)
  inc : c.inc = if descending then 2 ^ 30 - asc else asc
  thresh : c.thresh = roundHalfEven (threshold / fpd * 16777216)
  limitHigh : c.limitHigh = roundHalfEven ((fvco + 2 * span - fvco) / fpd * 16777216)
  limitLow : c.limitLow = roundHalfEven (2 ^ 33 - 16777216 * (fvco - (fvco - 2 * span)) / fpd)

section
variable {span duration threshold fpd fvco : Rat} {descending : Bool} {asc : Int} {c : RampCodes}

/-- The checks of phase 2, in the order of R170. -/
theorem CodesOf.deriveRamp_eq (codes : CodesOf span duration threshold descending fpd fvco asc c) (s : State) :
    deriveRamp span duration threshold descending fpd fvco s =
      if ¬ (0 ≤ duration * fpd ∧ duration * fpd ≤ 65535) then .error (.param .ramp_len (duration * fpd)) s
      else if fpd = 0 then .fault (.div0 .f_pd) s
      else if c.len = 0 then .fault (.div0 .ramp_len) s
      else if ¬ (0 ≤ asc ∧ asc ≤ 0x3FFFFFFF) then .error (.param .ramp_inc asc) s
      else if ¬ (0 ≤ c.inc ∧ c.inc ≤ 0x3FFFFFFF) then .error (.param .ramp_inc c.inc) s
      else if ¬ (0 ≤ c.thresh ∧ c.thresh ≤ 0x1FFFFFFF) then .error (.param .recal_threshold c.thresh) s
      else if ¬ (0 ≤ c.limitHigh ∧ c.limitHigh < 2 ^ 33) then .error (.param .ramp_limit_high c.limitHigh) s
      else if ¬ (0 ≤ c.limitLow ∧ c.limitLow < 2 ^ 33) then .error (.param .ramp_limit_low c.limitLow) s
      else .ok c s := by
  obtain ⟨len, inc, thresh, high, low⟩ := c
  obtain ⟨hlen, hasc, hinc, hthresh, hhigh, hlow⟩ := codes
  dsimp only at *
  have len_eq : cyclesOf duration fpd = len := hlen.symm
  have asc_eq : incCode span fpd len = asc := hasc.symm
  have inc_eq : writtenInc asc descending = inc := hinc.symm
  have thresh_eq : codeHz threshold fpd = thresh := hthresh.symm
  have high_eq : limitHighCode span fpd fvco = high := hhigh.symm
  have low_eq : limitLowCode span fpd fvco = low := by rw [hlow, limitLowCode, fracScale]; norm_num
  simp only [deriveRamp, requireParam_andThen, faultIf_andThen, len_eq, asc_eq, inc_eq, thresh_eq, high_eq, low_eq, ite_not]
  rfl

/-- What the checks of phase 2 ask of a program and its codes. -/
structure CodesInRange (duration fpd : Rat) (asc : Int) (c : RampCodes) : Prop where
  cycles : 0 ≤ duration * fpd ∧ duration * fpd ≤ 65535
  fpd_ne : fpd ≠ 0
  len_ne : c.len ≠ 0
  ascending : 0 ≤ asc ∧ asc ≤ 0x3FFFFFFF
  inc : c.inc ≤ 0x3FFFFFFF
  thresh : 0 ≤ c.thresh ∧ c.thresh ≤ 0x1FFFFFFF
  limitHigh : 0 ≤ c.limitHigh ∧ c.limitHigh < 2 ^ 33
  limitLow : 0 ≤ c.limitLow ∧ c.limitLow < 2 ^ 33

/-- Neither an increment within its range nor its complement to 2^30 is negative (43_ramp_configurator.md R173). -/
theorem CodesOf.inc_nonneg (codes : CodesOf span duration threshold descending fpd fvco asc c)
    (range : CodesInRange duration fpd asc c) : 0 ≤ c.inc := by
  have := range.ascending
  rw [codes.inc]
  split_ifs <;> omega

/-- A length of at most LEN_MAX cycles is rounded to a natural number that fits its field (R172). -/
theorem CodesOf.len_fits (codes : CodesOf span duration threshold descending fpd fvco asc c)
    (range : CodesInRange duration fpd asc c) : 0 ≤ c.len ∧ c.len < 2 ^ 16 := by
  obtain ⟨near, _⟩ := Proofs.roundIsNearestTiesToEven (duration * fpd)
  obtain ⟨low, high⟩ := range.cycles
  rw [← codes.len, abs_le] at near
  have above : ((-1 : Int) : Rat) < c.len := by push_cast; linarith
  have below : (c.len : Rat) < (65536 : Int) := by push_cast; linarith
  rw [Int.cast_lt] at above below
  omega

/-- Codes within their ranges pass all checks. -/
theorem CodesOf.deriveRamp_ok (codes : CodesOf span duration threshold descending fpd fvco asc c)
    (range : CodesInRange duration fpd asc c) (s : State) :
    deriveRamp span duration threshold descending fpd fvco s = .ok c s := by
  rw [codes.deriveRamp_eq, if_neg (not_not.2 range.cycles), if_neg range.fpd_ne, if_neg range.len_ne,
    if_neg (not_not.2 range.ascending), if_neg (not_not.2 ⟨codes.inc_nonneg range, range.inc⟩), if_neg (not_not.2 range.thresh),
    if_neg (not_not.2 range.limitHigh), if_neg (not_not.2 range.limitLow)]

/-- The part ended in the state `s`, with the error or the fault that `stop` is. -/
def Reply.StopsWith {α : Type} (stop : CommandResult) (s : State) (r : Reply α) : Prop :=
  (∃ e, stop = .error e ∧ r = .error e s) ∨ ∃ f, stop = .fault f ∧ r = .fault f s

theorem Reply.StopsWith.andThen {α β : Type} {stop : CommandResult} {s : State} {r : Reply α} (h : r.StopsWith stop s)
    (k : α → State → Reply β) : (r.andThen k).StopsWith stop s := by
  obtain ⟨e, rfl, rfl⟩ | ⟨f, rfl, rfl⟩ := h
  · exact .inl ⟨e, rfl, rfl⟩
  · exact .inr ⟨f, rfl, rfl⟩

/-- A check stops the command if the branch it takes does. -/
theorem stopsWith_ite {α : Type} {check A B : Prop} [Decidable check] {stop : CommandResult} {s : State} {r r' : Reply α}
    (h : if check then A else B) (hr : A → r.StopsWith stop s) (hr' : B → r'.StopsWith stop s) :
    (if check then r else r').StopsWith stop s := by
  split_ifs at h ⊢
  · exact hr h
  · exact hr' h

/-- The first check that fails names the outcome, and none issues a transaction. -/
theorem CodesOf.deriveRamp_stops (codes : CodesOf span duration threshold descending fpd fvco asc c) (s : State)
    {stop : CommandResult}
    (first : if ¬ (0 ≤ duration * fpd ∧ duration * fpd ≤ 65535) then stop = .error (.param .ramp_len (duration * fpd))
      else if fpd = 0 then stop = .fault (.div0 .f_pd)
      else if c.len = 0 then stop = .fault (.div0 .ramp_len)
      else if ¬ (0 ≤ asc ∧ asc ≤ 0x3FFFFFFF) then stop = .error (.param .ramp_inc asc)
      else if ¬ (0 ≤ c.inc ∧ c.inc ≤ 0x3FFFFFFF) then stop = .error (.param .ramp_inc c.inc)
      else if ¬ (0 ≤ c.thresh ∧ c.thresh ≤ 0x1FFFFFFF) then stop = .error (.param .recal_threshold c.thresh)
      else if ¬ (0 ≤ c.limitHigh ∧ c.limitHigh < 2 ^ 33) then stop = .error (.param .ramp_limit_high c.limitHigh)
      else if ¬ (0 ≤ c.limitLow ∧ c.limitLow < 2 ^ 33) then stop = .error (.param .ramp_limit_low c.limitLow)
      else False) :
    (deriveRamp span duration threshold descending fpd fvco s).StopsWith stop s := by
  have error {e : BlockError} (h : stop = .error e) : (Reply.error e s : Reply RampCodes).StopsWith stop s := .inl ⟨e, h, rfl⟩
  have fault {f : FaultRecord} (h : stop = .fault f) : (Reply.fault f s : Reply RampCodes).StopsWith stop s := .inr ⟨f, h, rfl⟩
  rw [codes.deriveRamp_eq]
  exact stopsWith_ite first error fun first => stopsWith_ite first fault fun first => stopsWith_ite first fault fun first =>
    stopsWith_ite first error fun first => stopsWith_ite first error fun first => stopsWith_ite first error fun first =>
    stopsWith_ite first error fun first => stopsWith_ite first error False.elim

end

/-- A command that ends in an error after reads leaves the block as it was. -/
theorem Reads.errorAfter {fs : List (List Byte)} {i : Instr} {s t : State} {e : BlockError} (h : Reads fs s.begin t)
    (wf : WellFormed i = true) (body : bodyOf i s.begin = .error e t) :
    ∃ u, exec i s = .next u ∧ u.result = some (.error e) ∧ SameBlock s u ∧ u.trace.map Transaction.sent = fs ∧
      Used fs.length s u := by
  obtain ⟨l, looked, rfl⟩ := h
  exact ⟨_, exec_of_error wf body, rfl, looked.block_done _, congrArg _ looked.ran.trace_done, by
    simpa using looked.ran.used_done (some (.error e))⟩

/-- With accepted codes CONFIGURE_RAMP reads its plan and goes on to its writes. -/
theorem configureRampOp_accepted {s : State} {osc2x rpre mult r n num den : Nat} {span duration threshold fpd fvco : Rat}
    {descending : Bool} {asc : Int} {c : RampCodes} (plan : PlanKnown s osc2x rpre mult r n num den)
    (transport : transportOk 10 s) (hfpd : fpd = fpdOf s.fOscIn osc2x rpre mult r) (hfvco : fvco = fvcoOf fpd n num den)
    (codes : CodesOf span duration threshold descending fpd fvco asc c) (range : CodesInRange duration fpd asc c)
    (freeRun : Bool) :
    ∃ u l, Looked l s u ∧ l.map Transaction.sent = planFrames ∧ l.length = 10 ∧
      configureRampOp span duration threshold descending freeRun s = writeFields (rampWrites s.cfg freeRun c) u := by
  subst hfvco hfpd
  obtain ⟨u, ⟨l, looked, sent⟩, planned⟩ := configureRampOp_planned plan transport
  refine ⟨u, l, looked, sent, by simpa using congrArg List.length sent, ?_⟩
  rw [planned, codes.deriveRamp_ok range, andThen_ok, looked.ran.controller.cfg]

theorem Looked.fcalClear {l : List Transaction} {s t : State} (h : Looked l s t) : fcalClear t = fcalClear s := by
  unfold Safety.fcalClear
  rw [h.device.x]

/-! ## CONFIGURE_RAMP: the writes of phase 3 (43_ramp_configurator.md R170, R176 to R178) -/

/-- The widths of the fourteen fields, wherever they lie (10_state.md R30; R176). -/
theorem fieldWidth_rampFields {p : Params} (cfg : paramsOk p = true) :
    rampFields.map (fieldWidth p) = [1, 2, 4, 1, 1, 1, 16, 3, 1, 16, 30, 33, 33, 33] := by
  simp only [paramsOk, locOk, List.all_cons, List.all_nil, id, Bool.and_eq_true, decide_eq_true_eq] at cfg
  cases layout : p.incLayout <;> simp [rampFields, fieldWidth, fieldParts, partsWidth, layout, cfg] <;> decide

/-- Codes that phase 2 accepted, and the mode codes of a checked configuration, fit their fields (R176). -/
theorem CodesOf.rampWrites_fit {span duration threshold fpd fvco : Rat} {descending : Bool} {asc : Int} {c : RampCodes}
    {p : Params} (codes : CodesOf span duration threshold descending fpd fvco asc c) (range : CodesInRange duration fpd asc c)
    (cfg : paramsOk p = true) (freeRun : Bool) : ∀ e ∈ rampWrites p freeRun c, 0 ≤ e.2 ∧ e.2 < 2 ^ fieldWidth p e.1 := by
  have widths := fieldWidth_rampFields cfg
  have len := codes.len_fits range
  have inc := codes.inc_nonneg range
  obtain ⟨_, _, _, _, incMax, thresh, high, low⟩ := range
  simp only [rampFields, List.map_cons, List.map_nil, List.cons.injEq, and_true] at widths
  simp only [paramsOk, List.all_cons, List.all_nil, id, Bool.and_eq_true, decide_eq_true_eq] at cfg
  simp only [rampWrites, List.forall_mem_cons, widths]
  cases freeRun <;> simp [len, inc, thresh, high, low] <;> omega

/-- With FCAL_EN 0 and accessible registers every write of phase 3 may be made. -/
theorem rampWrites_writable {s : State} (cfg : paramsOk s.cfg = true) (acc : ∀ f ∈ rampFields, fieldAccessible s.cfg f)
    (clear : fcalClear s = true) (freeRun : Bool) {c : RampCodes}
    (fit : ∀ e ∈ rampWrites s.cfg freeRun c, 0 ≤ e.2 ∧ e.2 < 2 ^ fieldWidth s.cfg e.1) :
    ∀ e ∈ rampWrites s.cfg freeRun c, FieldWritable s e := by
  intro e he
  have field : e.1 ∈ rampFields := List.mem_map_of_mem (f := Prod.fst) he
  refine fieldWritable_of_mem (addrs := rampRegs s.cfg) (fun q part => ?_) (zero_notMem_rampRegs _ cfg) (fun a ha => ?_)
    (fun a ha => fcalHazard_of_noFcalHazard (fun _ _ _ => clear) ha) (fit e he)
  · exact List.mem_flatMap.2 ⟨e.1, field, List.mem_map_of_mem part⟩
  · obtain ⟨f, hf, mem⟩ := List.mem_flatMap.1 ha
    obtain ⟨q, part, rfl⟩ := List.mem_map.1 mem
    exact acc f hf q part

/-- What phase 3 leaves of a state with FCAL_EN 0 whose fourteen fields share no bit. -/
theorem writeFields_rampWrites {s : State} (cfg : paramsOk s.cfg = true) (acc : ∀ f ∈ rampFields, fieldAccessible s.cfg f)
    (disjoint : rampFields.Pairwise fun f g => fieldsDisjoint s.cfg f g) (readback : readbackOk s = true)
    (clear : fcalClear s = true) (freeRun : Bool) {c : RampCodes}
    (fit : ∀ e ∈ rampWrites s.cfg freeRun c, 0 ≤ e.2 ∧ e.2 < 2 ^ fieldWidth s.cfg e.1)
    (transport : transportOk (rampFields.map (fieldWrites s.cfg)).sum s) :
    ∃ t l, writeFields (rampWrites s.cfg freeRun c) s = .ok () t ∧ Ran l s t ∧
      l.length = (rampFields.map (fieldWrites s.cfg)).sum ∧
      (∀ e ∈ rampWrites s.cfg freeRun c, fieldValue t e.1 = some e.2.toNat) ∧
      (∀ g, (∀ f ∈ rampFields, fieldsDisjoint s.cfg g f) → ∀ u, fieldValue s g = some u → fieldValue t g = some u) ∧
      OthersKept (rampRegs s.cfg) s t ∧ t.committed = s.committed ∧
      (34 ∉ rampRegs s.cfg → 36 ∉ rampRegs s.cfg → t.nConsistent = s.nConsistent) ∧ t.life = lifeAfterPlainWrite s.life := by
  have fields : (rampWrites s.cfg freeRun c).map Prod.fst = rampFields := rfl
  obtain ⟨t, l, write, ran, len, values, known, others, committed, consistent, life⟩ :=
    writeFields_spec (rampWrites s.cfg freeRun c) s cfg readback (rampWrites_writable cfg acc clear freeRun fit)
      (List.pairwise_map.1 (fields ▸ disjoint)) transport
  refine ⟨t, l, write, ran, len, values, fun g apart => known g fun e he => ?_, others, committed, fun off34 off36 => ?_, life⟩
  · exact apart e.1 (List.mem_map_of_mem (f := Prod.fst) he)
  · refine consistent fun e he q part => ?_
    have mem : q.addr ∈ rampRegs s.cfg :=
      List.mem_flatMap.2 ⟨e.1, List.mem_map_of_mem (f := Prod.fst) he, List.mem_map_of_mem part⟩
    exact ⟨fun h => off34 (h ▸ mem), fun h => off36 (h ▸ mem)⟩

/-! ## CONFIGURE_RAMP with FCAL_EN 1 (43_ramp_configurator.md R179, R180) -/

/-- MODIFY of a ramp register with FCAL_EN 1 reads the register and faults at its write (70_reset_and_hazards.md R271). -/
theorem modifyRegister_hazard {a : Nat} {low high : Int} {d : Nat} {s : State} (acc : accessible s.cfg a) (ha : a < 110)
    (range : 0 ≤ low ∧ low ≤ high ∧ high ≤ 15) (readback : readbackOk s = true) (hazard : fcalHazard a s = true)
    (transport : transportOk 2 s) :
    ∃ old t, modifyRegister a low high d s = .fault (.hazardFcal a) t ∧ (∀ w, regGet s.x a = some w → old = w) ∧
      Ran [readTransaction a old, writeTransaction a (setBitsWord old low.toNat high.toNat d)] s t ∧
      StoredOrNot a (setBitsWord old low.toNat high.toNat d) s t := by
  obtain ⟨old, s₁, looked, known, modify⟩ :=
    modifyRegister_read (d := d) acc ha range readback (transportOk_mono transport (by omega))
  obtain ⟨t, write, ran, stored⟩ := memWrite_hazard a (setBitsWord old low.toNat high.toNat d) s₁ ha
    (by rw [looked.fcalHazard]; exact hazard) (looked.ran.transportOk transport (by simp))
  refine ⟨old, t, modify.trans write, fun w hw => ?_, looked.ran.trans ran, looked.storedOrNot stored⟩
  rw [hw] at known
  exact known.1

/-- RAMP_MANUAL is one bit of a read-write register (10_state.md R30, R34). -/
theorem rampManual_bit {p : Params} (cfg : paramsOk p = true) :
    PartOk p.locRampManual ∧ p.locRampManual.hi = p.locRampManual.lo := by
  obtain ⟨⟨⟨partOk, _⟩, _⟩, _⟩ := paramsOk_locs p cfg
  have widths := fieldWidth_rampFields cfg
  simp only [rampFields, List.map_cons, List.cons.injEq] at widths
  have width : partWidth p.locRampManual = 1 := by simpa [fieldWidth, fieldParts, partsWidth] using widths.1
  refine ⟨partOk, ?_⟩
  unfold partWidth at width
  omega

/-- The first write of phase 3 clears RAMP_MANUAL, by MODIFY. -/
theorem writeFields_rampWrites_first {s : State} (cfg : paramsOk s.cfg = true) (readback : readbackOk s = true) (freeRun : Bool)
    (c : RampCodes) :
    ∃ k, writeFields (rampWrites s.cfg freeRun c) s =
      (modifyRegister s.cfg.locRampManual.addr s.cfg.locRampManual.lo s.cfg.locRampManual.hi 0 s).andThen k := by
  obtain ⟨_, bit⟩ := rampManual_bit cfg
  have isPartial : partFull s.cfg.locRampManual = false := by
    simp only [partFull, Bool.and_eq_false_iff, beq_eq_false_iff_ne]
    omega
  have zero : partOfValue (0 : Int).toNat s.cfg.locRampManual [] = 0 := by simp [partOfValue, natBits]
  have fits : (0 : Int) ≤ 0 ∧ (0 : Int) < 2 ^ fieldWidth s.cfg .RAMP_MANUAL := ⟨le_rfl, by positivity⟩
  exact ⟨_, by
    rw [rampWrites, writeFields, writeField_checked fits (.inr readback), fieldParts, writeParts, isPartial, zero,
      if_neg Bool.false_ne_true, andThen_assoc]⟩

/-! ## SET_DIVIDER (43_ramp_configurator.md R190, R191) -/

/-- With its operands in range and the gate passed, SET_DIVIDER is three FIELD_WRITEs. -/
theorem setDividerOp_checked {n num den : Int} {s : State} (hn : 0 ≤ n ∧ n < 2 ^ 19) (hnum : 0 ≤ num ∧ num < 2 ^ 32)
    (hden : 0 ≤ den ∧ den < 2 ^ 32) (readback : readbackOk s = true) :
    setDividerOp n num den s = writeFields [(.PLL_N, n), (.PLL_NUM, num), (.PLL_DEN, den)] s := by
  rw [setDividerOp, requireParam_andThen, if_pos hn, requireParam_andThen, if_pos hnum, requireParam_andThen, if_pos hden,
    checkReadback_ok readback, andThen_ok]

/-- The registers of PLL_N, PLL_NUM and PLL_DEN, in the order in which SET_DIVIDER writes them. -/
abbrev dividerRegs : List Nat := [34, 36, 42, 43, 38, 39]

/-- What SET_DIVIDER leaves when no requirement is broken. -/
theorem setDividerOp_spec {n num den : Int} {s : State} (cfg : paramsOk s.cfg = true)
    (acc : ∀ a ∈ dividerRegs, accessible s.cfg a) (noHazard : ∀ a ∈ dividerRegs, fcalHazard a s = false)
    (readback : readbackOk s = true) (transport : transportOk 7 s) (hn : 0 ≤ n ∧ n < 2 ^ 19) (hnum : 0 ≤ num ∧ num < 2 ^ 32)
    (hden : 0 ≤ den ∧ den < 2 ^ 32) :
    ∃ t l, setDividerOp n num den s = .ok () t ∧ Ran l s t ∧ l.length = 7 ∧ fieldValue t .PLL_N = some n.toNat ∧
      fieldValue t .PLL_NUM = some num.toNat ∧ fieldValue t .PLL_DEN = some den.toNat ∧ t.nConsistent = true ∧
      (∀ w, regGet s.x 34 = some w → ∃ w', regGet t.x 34 = some w' ∧ ∀ i, 3 ≤ i → w'.getLsbD i = w.getLsbD i) ∧
      OthersKept dividerRegs s t ∧ t.committed = s.committed ∧ t.life = lifeAfterPlainWrite s.life := by
  -- PLL_N, the field that makes the latched PLL_N consistent
  have writable : FieldWritable s (.PLL_N, n) := fieldWritable_of_mem (by simp [fieldParts]) (by simp) acc noHazard hn
  obtain ⟨s₁, l₁, write₁, ran₁, len₁, value₁, others₁, kept₁, committed₁, _, consistent₁, life₁⟩ :=
    writeField_spec .PLL_N n s cfg writable.access writable.notR0 writable.nonneg writable.fits (.inr readback)
      writable.noHazard (transportOk_mono transport (by show 3 ≤ 7; omega))
  replace len₁ : l₁.length = 3 := len₁
  have cfg₁ := ran₁.controller.cfg
  have r0 : regGet s₁.x 0 = regGet s.x 0 := others₁ 0 (by simp [fieldParts])
  have acc₁ : ∀ a ∈ dividerRegs, accessible s₁.cfg a := cfg₁ ▸ acc
  have noHazard₁ (a : Nat) (ha : a ∈ dividerRegs) : fcalHazard a s₁ = false :=
    (fcalHazard_congr r0 cfg₁ a).trans (noHazard a ha)
  have writable₁ (e : FieldId × Int) (he : e ∈ [(FieldId.PLL_NUM, num), (.PLL_DEN, den)]) : FieldWritable s₁ e := by
    simp only [List.mem_cons, List.not_mem_nil, or_false] at he
    obtain rfl | rfl := he
    · exact fieldWritable_of_mem (by simp [fieldParts]) (by simp) acc₁ noHazard₁ hnum
    · exact fieldWritable_of_mem (by simp [fieldParts]) (by simp) acc₁ noHazard₁ hden
  -- PLL_NUM and PLL_DEN, which share no register with PLL_N
  obtain ⟨t, l₂, write₂, ran₂, len₂, value₂, known₂, others₂, committed₂, consistent₂, life₂⟩ :=
    writeFields_spec [(.PLL_NUM, num), (.PLL_DEN, den)] s₁ (cfg₁ ▸ cfg) (readbackOk_of_plainWrite r0 life₁ ▸ readback)
      writable₁ (by simp [fieldsDisjoint, fieldParts]) (ran₁.transportOk transport (by rw [len₁]; show 4 + 3 ≤ 7; omega))
  replace len₂ : l₂.length = 4 := len₂
  have valueNum := value₂ (.PLL_NUM, num) (by simp)
  have valueDen := value₂ (.PLL_DEN, den) (by simp)
  have r34 : regGet t.x 34 = regGet s₁.x 34 := others₂ 34 (by simp [fieldParts])
  refine ⟨t, l₁ ++ l₂, ?_, ran₁.trans ran₂, by simp [len₁, len₂], ?_, valueNum, valueDen, ?_, ?_, ?_,
    committed₂.trans committed₁, ?_⟩
  · rw [setDividerOp_checked hn hnum hden readback, writeFields, write₁, andThen_ok, write₂]
  · exact known₂ .PLL_N (by simp [fieldsDisjoint, fieldParts]) _ value₁
  · rw [consistent₂ (by simp [fieldParts]), consistent₁ rfl]
  · intro w hw
    obtain ⟨w', hw', outside⟩ := kept₁ ⟨34, 2, 0⟩ (by simp [fieldParts]) w hw
    exact ⟨w', r34.trans hw', fun i hi => outside i (.inr hi)⟩
  · intro b hb
    simp only [List.mem_cons, List.not_mem_nil, or_false, not_or] at hb
    obtain ⟨off34, off36, off42, off43, off38, off39⟩ := hb
    exact (others₂ b (by simp [fieldParts, *])).trans (others₁ b (by simp [fieldParts, *]))
  · rw [life₂, if_neg (by simp), life₁, lifeAfterPlainWrite_idem]

/-! ## SET_OUTPUT_POWER (43_ramp_configurator.md R195) -/

/-- The one part of the field that SET_OUTPUT_POWER writes. -/
def powerPart : Channel → Part
  | .A => ⟨44, 13, 8⟩
  | .B => ⟨45, 5, 0⟩

theorem fieldParts_powerField (p : Params) (c : Channel) : fieldParts p (powerField c) = [powerPart c] := by
  cases c <;> rfl

/-- The part is partial, six bits wide, and lies in a read-write register that is neither R0 nor one of PLL_N's. -/
theorem powerPart_layout (c : Channel) : PartOk (powerPart c) ∧ partWidth (powerPart c) = 6 ∧ partFull (powerPart c) = false ∧
    (powerPart c).addr ≠ 0 ∧ (powerPart c).addr ≠ 34 ∧ (powerPart c).addr ≠ 36 := by
  cases c <;> decide

/-- What SET_OUTPUT_POWER leaves when its level fits and no requirement is broken. -/
theorem setOutputPowerOp_spec {c : Channel} {level : Int} {s : State} (nonneg : 0 ≤ level) (max : level ≤ s.cfg.outPwrMax)
    (fits : level < 64) (acc : accessible s.cfg (powerPart c).addr) (noHazard : fcalHazard (powerPart c).addr s = false)
    (readback : readbackOk s = true) (transport : transportOk 2 s) :
    ∃ t l, setOutputPowerOp c level s = .ok () t ∧ Ran l s t ∧ l.length = 2 ∧
      fieldValue t (powerField c) = some level.toNat ∧ OthersKept [(powerPart c).addr] s t ∧
      (∀ w, regGet s.x (powerPart c).addr = some w → ∃ w', regGet t.x (powerPart c).addr = some w' ∧
        ∀ i, i < (powerPart c).lo ∨ (powerPart c).hi < i → w'.getLsbD i = w.getLsbD i) ∧
      t.committed = s.committed ∧ t.nConsistent = s.nConsistent ∧ t.life = lifeAfterPlainWrite s.life := by
  have parts := fieldParts_powerField s.cfg c
  obtain ⟨partOk, width, isPartial, offR0, off34, off36⟩ := powerPart_layout c
  have writes : ([powerPart c].map partWrites).sum = 2 := by simp [partWrites, isPartial]
  obtain ⟨t, l, write, ran, len, value, others, kept, committed, consistent, _, life, _⟩ :=
    writeParts_spec [powerPart c] level.toNat s (by simpa using ⟨offR0, partOk, acc, noHazard⟩) (by simp) (.inr readback)
      (writes ▸ transport)
  have write' : setOutputPowerOp c level s = .ok () t := by
    obtain ⟨_, fieldWidth⟩ := powerField_layout s.cfg c
    rw [setOutputPowerOp, requireParam_andThen, if_pos ⟨nonneg, max⟩,
      writeField_checked ⟨nonneg, by rw [fieldWidth]; exact fits⟩ (.inr readback), parts, write]
  refine ⟨t, l, write', ran, len.trans writes, ?_, others, kept _ (by simp), committed, ?_, by simpa using life⟩
  · have small : level.toNat < 2 ^ 6 := by omega
    rw [fieldValue, ran.controller.cfg, parts, value, partsWidth, partsWidth, width, Nat.mod_eq_of_lt small]
  · exact consistent (by simpa using ⟨off34, off36⟩)

end Sys2Proof.Machine

namespace Sys2Proof.Proofs

open Sys2Proof.Machine Sys2Proof.Safety

/-- Settles O39: phases 1 and 2 pass, and phase 3 writes fourteen fields that share no bit. -/
theorem configureRampStagesTheRamp : Obligations.ConfigureRampStagesTheRamp := by
  intro s span duration threshold fpd fvco descending freeRun osc2x rpre mult r n num den len asc inc thr hi lo cfg acc accRamp
    disjoint readback clear transport hosc2x hrpre hmult hr hn hnum hden rpreNonzero rNonzero denNonzero hfpd fpdNonzero hfvco
    cycles₀ cycles₁ hlen lenNonzero hasc asc₀ asc₁ hinc inc₁ hthr thr₀ thr₁ hhi hi₀ hi₁ hlo lo₀ lo₁
  obtain ⟨accFpd, accDivider⟩ := (List.forall_mem_append (l₁ := [9, 12, 10, 11])).1 acc
  have plan : PlanKnown s.begin osc2x rpre mult r n num den :=
    ⟨⟨readback, accFpd, hosc2x, hrpre, hmult, hr⟩, ⟨readback, accDivider, hn, hnum, hden⟩, rpreNonzero, rNonzero, denNonzero⟩
  have codes : CodesOf span duration threshold descending fpd fvco asc ⟨len, inc, thr, hi, lo⟩ :=
    ⟨hlen, hasc, hinc, hthr, hhi, hlo⟩
  have range : CodesInRange duration fpd asc ⟨len, inc, thr, hi, lo⟩ :=
    ⟨⟨cycles₀, cycles₁⟩, fpdNonzero, lenNonzero, ⟨asc₀, asc₁⟩, inc₁, ⟨thr₀, thr₁⟩, ⟨hi₀, hi₁⟩, ⟨lo₀, lo₁⟩⟩
  have fit := codes.rampWrites_fit range cfg freeRun
  obtain ⟨u, l, looked, sent, reads, op⟩ :=
    configureRampOp_accepted plan (transportOk_mono transport (by omega)) hfpd hfvco codes range freeRun
  have cfg₁ : u.cfg = s.cfg := looked.ran.controller.cfg
  obtain ⟨t, m, write, ran, len', values, known, others, committed, consistent, life⟩ :=
    writeFields_rampWrites (s := u) (freeRun := freeRun) (c := ⟨len, inc, thr, hi, lo⟩) (cfg₁ ▸ cfg) (cfg₁ ▸ accRamp)
      (cfg₁ ▸ disjoint) (looked.readbackOk.trans readback) (looked.fcalClear.trans clear) (cfg₁ ▸ fit)
      (by rw [cfg₁]; exact looked.ran.transportOk transport (by omega))
  rw [cfg₁] at write len' values known others consistent
  have body : bodyOf (.configureRamp span duration threshold descending freeRun) s.begin = .ok .unit t := by
    rw [bodyOf, op, State.begin_cfg, write, andThen_ok]
  have run := looked.ran.trans ran
  simp only [rampWrites, List.forall_mem_cons] at values
  obtain ⟨manual, nextTrig, trigA, next, rst, trigCal, ldDly, scale, recal, rampLen, rampInc, rampThresh, limitHigh, limitLow,
    _⟩ := values
  refine ⟨_, exec_of_ok rfl body, rfl, rampLen, rampInc, rampThresh, limitHigh, limitLow, manual, ?_, ?_, next, rst, trigCal,
    ldDly, scale, recal, fun g apart v hv => known g apart v ((looked.fieldValue g).trans hv),
    fun b hb => (others b hb).trans (congrArg (regGet · b) looked.device.x), committed.trans looked.device.committed,
    fun off34 off36 => (consistent off34 off36).trans looked.device.nConsistent, life.trans (congrArg _ looked.life),
    run.controller_done _, ?_, ?_⟩
  · exact nextTrig.trans (by cases freeRun <;> rfl)
  · exact trigA.trans (by cases freeRun <;> rfl)
  · rw [run.trace_done, List.map_append, sent]
    rfl
  · have total : (l ++ m).length = 10 + (rampFields.map (fieldWrites s.cfg)).sum := by rw [List.length_append, reads, len']
    exact total ▸ run.used_done _

/-- Settles O40: after the ten reads the first check of phase 2 that fails ends the command. -/
theorem configureRampRejectsBeforeAnyWrite : Obligations.ConfigureRampRejectsBeforeAnyWrite := by
  intro s span duration threshold fpd fvco descending freeRun osc2x rpre mult r n num den len asc inc thr hi lo acc readback
    transport hosc2x hrpre hmult hr hn hnum hden rpreNonzero rNonzero denNonzero hfpd hfvco hlen hasc hinc hthr hhi hlo stop first
  obtain ⟨accFpd, accDivider⟩ := (List.forall_mem_append (l₁ := [9, 12, 10, 11])).1 acc
  have plan : PlanKnown s.begin osc2x rpre mult r n num den :=
    ⟨⟨readback, accFpd, hosc2x, hrpre, hmult, hr⟩, ⟨readback, accDivider, hn, hnum, hden⟩, rpreNonzero, rNonzero, denNonzero⟩
  have codes : CodesOf span duration threshold descending fpd fvco asc ⟨len, inc, thr, hi, lo⟩ :=
    ⟨hlen, hasc, hinc, hthr, hhi, hlo⟩
  obtain ⟨u, reads, planned⟩ := configureRampOp_planned plan transport
  obtain rfl : fpd = fpdOf s.fOscIn osc2x rpre mult r := hfpd
  obtain rfl : fvco = fvcoOf (fpdOf s.fOscIn osc2x rpre mult r) n num den := hfvco
  have stops : (bodyOf (.configureRamp span duration threshold descending freeRun) s.begin).StopsWith stop u := by
    rw [bodyOf, planned]
    exact ((codes.deriveRamp_stops u first).andThen _).andThen _
  obtain ⟨e, rfl, body⟩ | ⟨f, rfl, body⟩ := stops
  · obtain ⟨t, run, result, ⟨⟨fOscIn, faults, cfg, requests⟩, life, device⟩, sent, used⟩ := reads.errorAfter rfl body
    exact ⟨t, run, result, device, life, fOscIn, cfg, requests, sent, used, faults⟩
  · obtain ⟨t, run, ⟨result, faults, fOscIn, cfg, requests⟩, device, life, sent, used⟩ := reads.faultsAfter rfl body
    exact ⟨t, run, result, device, life, fOscIn, cfg, requests, sent, used, faults⟩

/-- Settles O42: phases 1 and 2 pass, and the write of the MODIFY that clears RAMP_MANUAL faults. -/
theorem configureRampWithFcalSetFaults : Obligations.ConfigureRampWithFcalSetFaults := by
  intro s span duration threshold fpd fvco descending freeRun osc2x rpre mult r n num den len asc inc thr hi lo cfg acc readback
    fcalSet transport hosc2x hrpre hmult hr hn hnum hden rpreNonzero rNonzero denNonzero hfpd fpdNonzero hfvco cycles₀ cycles₁
    hlen lenNonzero hasc asc₀ asc₁ hinc inc₁ hthr thr₀ thr₁ hhi hi₀ hi₁ hlo lo₀ lo₁
  obtain ⟨accFpd, accRest⟩ := (List.forall_mem_append (l₁ := [9, 12, 10, 11])).1 acc
  obtain ⟨accDivider, accManual⟩ := (List.forall_mem_append (l₁ := [34, 36, 42, 43, 38, 39])).1 accRest
  have plan : PlanKnown s.begin osc2x rpre mult r n num den :=
    ⟨⟨readback, accFpd, hosc2x, hrpre, hmult, hr⟩, ⟨readback, accDivider, hn, hnum, hden⟩, rpreNonzero, rNonzero, denNonzero⟩
  have codes : CodesOf span duration threshold descending fpd fvco asc ⟨len, inc, thr, hi, lo⟩ :=
    ⟨hlen, hasc, hinc, hthr, hhi, hlo⟩
  have range : CodesInRange duration fpd asc ⟨len, inc, thr, hi, lo⟩ :=
    ⟨⟨cycles₀, cycles₁⟩, fpdNonzero, lenNonzero, ⟨asc₀, asc₁⟩, inc₁, ⟨thr₀, thr₁⟩, ⟨hi₀, hi₁⟩, ⟨lo₀, lo₁⟩⟩
  obtain ⟨u, l, looked, sent, reads, op⟩ :=
    configureRampOp_accepted plan (transportOk_mono transport (by omega)) hfpd hfvco codes range freeRun
  have cfg₁ : u.cfg = s.cfg := looked.ran.controller.cfg
  have readback₁ : readbackOk u = true := looked.readbackOk.trans readback
  obtain ⟨⟨ha, _, hiBound⟩, bit⟩ := rampManual_bit cfg
  obtain ⟨k, first⟩ := writeFields_rampWrites_first (s := u) (cfg₁ ▸ cfg) readback₁ freeRun ⟨len, inc, thr, hi, lo⟩
  rw [cfg₁] at first
  have ramp : s.cfg.locRampManual.addr ∈ rampRegs u.cfg := by
    rw [cfg₁]
    simp [rampRegs, rampFields, fieldParts]
  obtain ⟨old, t, modify, known, ran, stored⟩ := modifyRegister_hazard (low := s.cfg.locRampManual.lo)
    (high := s.cfg.locRampManual.hi) (d := 0) (s := u) (cfg₁ ▸ accManual s.cfg.locRampManual.addr (by simp)) ha (by omega) readback₁
    (fcalHazard_of_set ramp (looked.fcalClear.trans fcalSet)) (looked.ran.transportOk transport (by omega))
  have body : bodyOf (.configureRamp span duration threshold descending freeRun) s.begin =
      .fault (.hazardFcal s.cfg.locRampManual.addr) t := by
    rw [bodyOf, op, State.begin_cfg, first, modify, andThen_fault, andThen_fault]
  obtain ⟨taken, trace, used⟩ := (looked.ran.trans ran).fault_done (.hazardFcal s.cfg.locRampManual.addr)
  have ⟨register, others, committed, life⟩ := looked.storedOrNot stored
  refine ⟨_, old, _, exec_of_fault rfl body, taken, fun w hw => known w (by rw [looked.device.x]; exact hw), fun i hi => ?_,
    ⟨register, others, committed, life⟩, ?_, ?_, ?_⟩
  · rw [Int.toNat_natCast, Int.toNat_natCast, setBitsWord_getLsbD _ _ _ _ _ (by omega) hiBound, Nat.zero_testBit]
    exact if_congr (by omega) rfl rfl
  · rw [trace, List.map_append, sent]
    rfl
  · rw [trace, ← reads, List.drop_left]
  · simpa [reads] using used

/-- Settles O43: PLL_N is written first, and the two other fields share no register with it. -/
theorem setDividerProgramsTheDivider : Obligations.SetDividerProgramsTheDivider := by
  intro s n num den cfg acc noHazard readback transport hn hnum hden
  obtain ⟨t, l, op, ran, len, valueN, valueNum, valueDen, consistent, kept, others, committed, life⟩ :=
    setDividerOp_spec (s := s.begin) cfg acc (fun a ha => fcalHazard_of_noFcalHazard noHazard ha) readback transport hn hnum hden
  have body : bodyOf (.setDivider n num den) s.begin = .ok .unit t := by rw [bodyOf, op, andThen_ok]
  exact ⟨_, exec_of_ok rfl body, rfl, valueN, valueNum, valueDen, consistent, kept, others, committed, life,
    ran.controller_done _, len ▸ ran.used_done _⟩

/-- Settles O44: each operand check precedes the next, and the gate. -/
theorem setDividerChecksItsOperandsFirst : Obligations.SetDividerChecksItsOperandsFirst := by
  intro s n num den
  have stops {e : BlockError} (op : setDividerOp n num den s.begin = .error e s.begin) :
      ∃ t, exec (.setDivider n num den) s = .next t ∧ ErrorUntouched e s t :=
    errorUntouched_of_body rfl (by rw [bodyOf, op, andThen_error])
  refine ⟨fun hn => stops ?_, fun hn hnum => stops ?_, fun hn hnum hden => stops ?_⟩
  · rw [setDividerOp, requireParam_andThen, if_neg hn]
  · rw [setDividerOp, requireParam_andThen, if_pos hn, requireParam_andThen, if_neg hnum]
  · rw [setDividerOp, requireParam_andThen, if_pos hn, requireParam_andThen, if_pos hnum, requireParam_andThen, if_neg hden]

/-- Settles O45: the level's check is the first, and the write that follows is of one partial part. -/
theorem setOutputPowerProgramsItsChannel : Obligations.SetOutputPowerProgramsItsChannel := by
  intro s channel level f a lo hi layout
  obtain ⟨rfl, rfl, rfl, rfl⟩ : f = powerField channel ∧ a = (powerPart channel).addr ∧ lo = (powerPart channel).lo ∧
      hi = (powerPart channel).hi := by
    obtain ⟨rfl, rfl, rfl, rfl, rfl⟩ | ⟨rfl, rfl, rfl, rfl, rfl⟩ := layout <;> exact ⟨rfl, rfl, rfl, rfl⟩
  constructor
  · intro outside
    exact errorUntouched_of_body rfl (by
      rw [bodyOf, setOutputPowerOp, requireParam_andThen, State.begin_cfg, if_neg outside, andThen_error])
  · intro nonneg max fits acc noHazard readback transport
    obtain ⟨t, l, op, ran, len, value, others, kept, committed, consistent, life⟩ :=
      setOutputPowerOp_spec (s := s.begin) nonneg max fits acc (fcalHazard_of_noFcalHazard noHazard (by simp)) readback transport
    have body : bodyOf (.setOutputPower channel level) s.begin = .ok .unit t := by rw [bodyOf, op, andThen_ok]
    exact ⟨_, exec_of_ok rfl body, rfl, value, others, kept, committed, consistent, life, ran.controller_done _,
      len ▸ ran.used_done _⟩

/-- Settles O41: each quotient is rounded to the integer nearest it, and the VCO frequency cancels out of the guard-band codes. -/
theorem workedExampleCodes : Obligations.WorkedExampleCodes := by
  have near {q : Rat} {n : Int} (h : |(n : Rat) - q| < 1 / 2) : roundHalfEven q = n :=
    (eq_roundHalfEven h.le fun tie => absurd tie h.ne).symm
  have high (fvco : Rat) : limitHighCode 100000000 10000000 fvco = 0x014000000 := by
    rw [limitHighCode_eq]
    exact near (by norm_num)
  refine ⟨near (by norm_num), near (by norm_num [fracScale, abs_lt]), rfl, near (by norm_num [fracScale]),
    fun fvco => ⟨high fvco, ?_⟩⟩
  obtain ⟨sum, _⟩ := limitCodesSumToTheWrap 100000000 10000000 fvco (by norm_num)
  have := high fvco
  omega

end Sys2Proof.Proofs

/-!
PROOFS. The statements about 44_lifecycle.md: what a write of R0 does to device and lifecycle (R210 to R214), RESET (R216), UNLOCK
(R217) and ARM (R218).
-/

namespace Sys2Proof.Machine

open Sys2Proof.Safety

/-! ## readback_ok (10_state.md R38) -/

theorem readbackOk_iff (s : State) :
    readbackOk s = true ↔
      s.life ≠ .READBACK_LOCKED ∧ s.life ≠ .RESET ∧ ∃ w, regGet s.x 0 = some w ∧ w[2] = false := by
  unfold readbackOk
  cases s.life <;> cases regGet s.x 0 <;> simp

/-- A write of R0 that neither resets nor hides readback behind MUXOUT_LD_SEL leaves readback reliable, if it was unlocked or the
write unlocks it (10_state.md R38). -/
theorem readbackOk_of_r0Written {edge : Bool} {v : Word} {s t : State} (h : R0Written edge v s t) (noReset : v[1] = false)
    (muxoutClear : v[2] = false) (unlocks : s.life = .READBACK_LOCKED → v = unlockWord) (notReset : s.life ≠ .RESET) :
    readbackOk t = true := by
  obtain ⟨stored, _, _⟩ := h.stored noReset
  have life : t.life ≠ .READBACK_LOCKED ∧ t.life ≠ .RESET := by
    rw [h.life noReset]
    cases life : s.life with
    | READBACK_LOCKED => simp [unlocks life, unlockWord]
    | RESET => exact absurd life notReset
    | RAMPING => simp
    | _ => cases edge <;> simp
  exact (readbackOk_iff t).2 ⟨life.1, life.2, v, stored, muxoutClear⟩

/-! ## RESET (44_lifecycle.md R211, R216) -/

/-- RESET is the WRITE of a word whose bit 1 the configuration check demands (44_lifecycle.md R216). -/
theorem bodyOf_resetWrite {i : Instr} {v : Word} {s : State} (cfg : paramsOk s.cfg = true) (acc : accessible s.cfg 0)
    (form : (v[1] = true ∧ (i = .write 0 v ∨ i = .writeFrame 0 v)) ∨ (v = s.cfg.r0ResetWord ∧ i = .reset)) :
    v[1] = true ∧ WellFormed i = true ∧ bodyOf i s = (memWrite 0 v s).andThen fun _ u => .ok .unit u := by
  obtain ⟨reset, write⟩ | ⟨rfl, rfl⟩ := form
  · exact ⟨reset, bodyOf_write acc (by omega) write⟩
  · obtain ⟨_, _, reset, _⟩ := paramsOk_locs s.cfg cfg
    exact ⟨reset, rfl, by rw [bodyOf, writeRegister_ok _ acc (by omega)]⟩

/-! ## A write of R0 without an FCAL_EN edge (44_lifecycle.md R210, R212, R214) -/

/-- A word with FCAL_EN 0 is no rising edge, whatever R0 holds (44_lifecycle.md R213). -/
theorem edgeKnown_of_fcalClear {v : Word} (s : State) (clear : v[3] = false) : EdgeKnown false v s := by
  unfold EdgeKnown
  cases regGet s.x 0 <;> simp [clear]

/-- To a lifecycle with readback unlocked, a write of R0 without an edge is as a write of any other register. -/
theorem r0Written_life_plain {v : Word} {s t : State} (h : R0Written false v s t) (noReset : v[1] = false)
    (unlocked : s.life ≠ .READBACK_LOCKED) : t.life = lifeAfterPlainWrite s.life := by
  rw [h.life noReset]
  cases life : s.life with
  | READBACK_LOCKED => exact absurd life unlocked
  | _ => rfl

/-- The unlock word unlocks a locked readback, and is a plain write elsewhere (44_lifecycle.md R212). -/
theorem r0Written_life_unlockWord {s t : State} (h : R0Written false unlockWord s t) :
    t.life = if s.life = .READBACK_LOCKED then .READBACK_UNLOCKED else lifeAfterPlainWrite s.life := by
  obtain ⟨_, noReset, _, _⟩ := unlockWord_bits
  split_ifs with locked
  · rw [h.life noReset, locked]
    exact if_pos rfl
  · exact r0Written_life_plain h noReset locked

/-! ## An FCAL_EN edge (44_lifecycle.md R213) -/

/-- With readback reliable, an edge enters RAMPING. -/
theorem r0Written_life_edge {v : Word} {s t : State} (h : R0Written true v s t) (noReset : v[1] = false)
    (readback : readbackOk s = true) : t.life = .RAMPING := by
  obtain ⟨notLocked, notReset, _⟩ := (readbackOk_iff s).1 readback
  rw [h.life noReset]
  cases life : s.life with
  | READBACK_LOCKED => exact absurd life notLocked
  | RESET => exact absurd life notReset
  | _ => rfl

/-- An edge after a write of R0 without one leaves what the edge alone leaves: R0 is no ramp register, so the snapshot is the
same, and with readback unlocked the first write moves the lifecycle no further than the edge does. -/
theorem r0Written_edge_after_plain {v v' : Word} {s u t : State} (plain : R0Written false v' s u) (noReset : v'[1] = false)
    (edge : R0Written true v u t) (sameCfg : u.cfg = s.cfg) (cfg : paramsOk s.cfg = true)
    (unlocked : s.life ≠ .READBACK_LOCKED) : R0Written true v s t := by
  obtain ⟨_, others, consistent⟩ := plain.stored noReset
  refine ⟨?reset, ?stored, ?committed, fun _ => nofun, ?life⟩
  case reset => exact sameCfg ▸ edge.reset
  case stored =>
    intro h
    obtain ⟨stored, others', consistent'⟩ := edge.stored h
    exact ⟨stored, fun b hb => (others' b hb).trans (others b hb), consistent'.trans consistent⟩
  case committed =>
    intro h _
    obtain ⟨c, committed, snapshot⟩ := edge.committed h rfl
    refine ⟨c, committed, fun a => ?_⟩
    rw [snapshot a, sameCfg]
    split_ifs with ramp
    · have offR0 : a ≠ 0 := fun isR0 => zero_notMem_rampRegs _ cfg (isR0 ▸ ramp)
      exact others a (by simpa using offR0)
    · rfl
  case life =>
    intro h
    rw [edge.life h, r0Written_life_plain plain noReset unlocked]
    cases life : s.life with
    | READBACK_LOCKED => exact absurd life unlocked
    | _ => rfl

/-! ## MODIFY of FCAL_EN (41_register_access.md R124, 44_lifecycle.md R218) -/

/-- A word of R0 with FCAL_EN replaced: the word ARM's MODIFYs write. -/
def withFcalEn (w : Word) (b : Bool) : Word := setBitsWord w 3 3 b.toNat

theorem withFcalEn_getLsbD (w : Word) (b : Bool) (i : Nat) :
    (withFcalEn w b).getLsbD i = if i = 3 then b else w.getLsbD i := by
  rw [withFcalEn, setBitsWord_getLsbD _ _ _ _ _ le_rfl (by omega)]
  by_cases fcal : i = 3
  · subst fcal
    cases b <;> rfl
  · rw [if_neg (by omega), if_neg fcal]

@[simp] theorem withFcalEn_reset (w : Word) (b : Bool) : (withFcalEn w b)[1] = w[1] := withFcalEn_getLsbD w b 1

@[simp] theorem withFcalEn_muxout (w : Word) (b : Bool) : (withFcalEn w b)[2] = w[2] := withFcalEn_getLsbD w b 2

@[simp] theorem withFcalEn_fcalEn (w : Word) (b : Bool) : (withFcalEn w b)[3] = b := withFcalEn_getLsbD w b 3

/-- Of two values given to FCAL_EN the second counts (40_bitfield.md R113). -/
@[simp] theorem withFcalEn_withFcalEn (w : Word) (b b' : Bool) : withFcalEn (withFcalEn w b) b' = withFcalEn w b' :=
  setBitsWord_setBitsWord w _ _ le_rfl (by omega)

/-- MODIFY of FCAL_EN in a known R0, PLL_N being consistent where it is set: an edge if it goes from 0 to 1 (44_lifecycle.md
R213). -/
theorem modifyFcalEn_spec {w : Word} {s : State} (b : Bool) (cfg : paramsOk s.cfg = true) (acc : accessible s.cfg 0)
    (readback : readbackOk s = true) (known : regGet s.x 0 = some w) (consistent : b = true → s.nConsistent = true)
    (transport : transportOk 2 s) :
    ∃ t, modifyRegister 0 3 3 b.toNat s = .ok () t ∧ R0Written (!w[3] && b) (withFcalEn w b) s t ∧
      Ran [readTransaction 0 w, writeTransaction 0 (withFcalEn w b)] s t ∧ t.draws = s.draws := by
  obtain ⟨t, modify, written, ran, draws⟩ :=
    modifyRegister_zero_spec (low := 3) (high := 3) (data := b.toNat) (new := withFcalEn w b) cfg acc (by omega) readback known
      transport rfl fun _ _ rise => consistent (by simpa using rise)
  exact ⟨t, modify, by simpa using written, ran, draws⟩

/-! ## ARM (44_lifecycle.md R218) -/

theorem fieldValue_fcalEn {w : Word} {s : State} (known : regGet s.x 0 = some w) :
    fieldValue s .FCAL_EN = some w[3].toNat := by
  have bit : w.toNat / 2 ^ 3 % 2 = w[3].toNat := (Nat.toNat_testBit w.toNat 3).symm
  simp [fieldValue, fieldParts, partsValue, partsWidth, partWidth, known, ← bit]

/-- ARM whose gate passes reads FCAL_EN, and then runs one MODIFY or two. -/
theorem armOp_read {w : Word} {s : State} (cfg : paramsOk s.cfg = true) (acc : accessible s.cfg 0)
    (readback : readbackOk s = true) (known : regGet s.x 0 = some w) (transport : transportOk 1 s) :
    ∃ s₁ l, Looked l s s₁ ∧ l.length = 1 ∧ s₁.draws = s.draws ∧
      armOp s = (if w[3] = true then modifyRegister 0 3 3 0 s₁ else .ok () s₁).andThen fun _ u => modifyRegister 0 3 3 1 u := by
  obtain ⟨v, s₁, l, read, _, looked, _, len, value⟩ :=
    readField_spec .FCAL_EN s cfg (by simpa [fieldAccessible, fieldParts] using acc) transport
  obtain ⟨rfl, draws⟩ := value readback _ (fieldValue_fcalEn known)
  refine ⟨s₁, l, looked, len, draws, ?_⟩
  rw [armOp, checkReadback_ok readback, andThen_ok, read, andThen_ok]
  simp only [Bool.toNat_eq_one]

/-- FCAL_EN cleared and set again is an edge, and nothing else. -/
theorem toggleFcalEn_spec {w : Word} {s : State} (cfg : paramsOk s.cfg = true) (acc : accessible s.cfg 0)
    (readback : readbackOk s = true) (known : regGet s.x 0 = some w) (fcal : w[3] = true) (noReset : w[1] = false)
    (consistent : s.nConsistent = true) (transport : transportOk 4 s) :
    ∃ u t l, modifyRegister 0 3 3 0 s = .ok () u ∧ modifyRegister 0 3 3 1 u = .ok () t ∧
      R0Written true (withFcalEn w true) s t ∧ Ran l s t ∧ l.length = 4 ∧ t.draws = s.draws := by
  obtain ⟨notLocked, notReset, w', known', muxoutClear⟩ := (readbackOk_iff s).1 readback
  obtain rfl : w = w' := Option.some.inj (known.symm.trans known')
  have noReset' : (withFcalEn w false)[1] = false := by simpa using noReset
  have muxoutClear' : (withFcalEn w false)[2] = false := by simpa using muxoutClear
  obtain ⟨u, clear, cleared, ran₁, draws₁⟩ :=
    modifyFcalEn_spec false cfg acc readback known nofun (transportOk_mono transport (by omega))
  rw [fcal] at cleared
  have cfg₁ : u.cfg = s.cfg := ran₁.controller.cfg
  obtain ⟨known₁, _, consistent₁⟩ := cleared.stored noReset'
  have readback₁ : readbackOk u = true :=
    readbackOk_of_r0Written cleared noReset' muxoutClear' (fun locked => absurd locked notLocked) notReset
  obtain ⟨t, set, written, ran₂, draws₂⟩ := modifyFcalEn_spec true (cfg₁ ▸ cfg) (cfg₁ ▸ acc) readback₁ known₁
    (fun _ => consistent₁.trans consistent) (ran₁.transportOk transport (by simp))
  simp only [withFcalEn_fcalEn, withFcalEn_withFcalEn] at written
  exact ⟨u, t, _, clear, set, r0Written_edge_after_plain cleared noReset' written cfg₁ cfg notLocked, ran₁.trans ran₂, rfl,
    draws₂.trans draws₁⟩

/-- ARM is an FCAL_EN edge, whether or not FCAL_EN has to be cleared before it. -/
theorem armOp_spec {w : Word} {s : State} (cfg : paramsOk s.cfg = true) (acc : accessible s.cfg 0)
    (readback : readbackOk s = true) (known : regGet s.x 0 = some w) (noReset : w[1] = false)
    (consistent : s.nConsistent = true) (transport : transportOk 5 s) :
    ∃ t l, armOp s = .ok () t ∧ R0Written true (withFcalEn w true) s t ∧ Ran l s t ∧
      l.length = (if w[3] = true then 5 else 3) ∧ t.draws = s.draws := by
  obtain ⟨s₁, l, looked, len, draws₁, op⟩ := armOp_read cfg acc readback known (transportOk_mono transport (by omega))
  have cfg₁ : s₁.cfg = s.cfg := looked.ran.controller.cfg
  have readback₁ : readbackOk s₁ = true := looked.readbackOk.trans readback
  have known₁ : regGet s₁.x 0 = some w := looked.device.x ▸ known
  have consistent₁ : s₁.nConsistent = true := looked.device.nConsistent.trans consistent
  have transport₁ : transportOk 4 s₁ := looked.ran.transportOk transport (by omega)
  cases fcal : w[3] with
  | false =>
    obtain ⟨t, set, written, ran, draws⟩ := modifyFcalEn_spec true (cfg₁ ▸ cfg) (cfg₁ ▸ acc) readback₁ known₁
      (fun _ => consistent₁) (transportOk_mono transport₁ (by omega))
    rw [fcal] at op written
    exact ⟨t, _, op.trans set, looked.r0Written written, looked.ran.trans ran, by simp [len], draws.trans draws₁⟩
  | true =>
    obtain ⟨u, t, m, clear, set, written, ran, len', draws⟩ :=
      toggleFcalEn_spec (cfg₁ ▸ cfg) (cfg₁ ▸ acc) readback₁ known₁ fcal noReset consistent₁ transport₁
    rw [fcal, if_pos rfl, clear, andThen_ok] at op
    exact ⟨t, _, op.trans set, looked.r0Written written, looked.ran.trans ran, by simp [len, len'], draws.trans draws₁⟩

end Sys2Proof.Machine

namespace Sys2Proof.Proofs

open Sys2Proof.Machine Sys2Proof.Safety

/-- Settles O46: ARM is one FCAL_EN edge to the device and the lifecycle; the invariant gives a clear RESET bit. -/
theorem armCommitsTheStagedRamp : Obligations.ArmCommitsTheStagedRamp := by
  intro s w inv acc readback known consistent transport
  obtain ⟨notLocked, _, _⟩ := (readbackOk_iff s).1 readback
  have noReset : w[1] = false := inv.r0_reset_clear notLocked w known
  obtain ⟨t, l, op, written, ran, len, draws⟩ :=
    armOp_spec (s := s.begin) inv.cfg_ok acc readback known noReset consistent transport
  have body : bodyOf .arm s.begin = .ok .unit t := by rw [bodyOf, op, andThen_ok]
  have noReset' : (withFcalEn w true)[1] = false := by simpa using noReset
  have life : t.life = .RAMPING := r0Written_life_edge written noReset' readback
  obtain ⟨stored, others, consistent'⟩ := written.stored noReset'
  exact ⟨_, _, exec_of_ok rfl body, rfl, stored, fun i _ => withFcalEn_getLsbD w true i, others, written.committed noReset' rfl,
    consistent'.trans consistent, life, ran.controller_done _, len ▸ ran.used_done _, draws⟩

/-- Settles O16: each form is one write of R0 with bit 1 set, which `memWrite_reset` describes. -/
theorem resetBitResetsTheDevice : Obligations.ResetBitResetsTheDevice := by
  intro s v i cfg acc transport form
  obtain ⟨reset, wf, body⟩ := bodyOf_resetWrite (s := s.begin) cfg acc form
  obtain ⟨t, wrote, ran, x, committed, consistent, life, draws⟩ := memWrite_reset v s.begin cfg transport reset
  rw [wrote, andThen_ok] at body
  exact ⟨_, exec_of_ok wf body, rfl, x, committed, consistent, life, ran.controller_done _, ran.trace_done, ran.used_done _,
    draws⟩

/-- Settles O17: `memWrite_zero_spec` at the one transaction of the command. -/
theorem writeOfR0HasItsEffects : Obligations.WriteOfR0HasItsEffects := by
  intro s v edge i cfg acc transport known consistent form
  obtain ⟨wf, body⟩ := bodyOf_write (s := s.begin) acc (by omega) form
  obtain ⟨t, wrote, ran, written, draws⟩ := memWrite_zero_spec v edge s.begin cfg transport known consistent
  rw [wrote, andThen_ok] at body
  exact ⟨_, exec_of_ok wf body, rfl, r0Written_done written _, ran.controller_done _, ran.trace_done, ran.used_done _, draws⟩

/-- Settles O18: the draw is the edge, and PLL_N is consistent should it be one. -/
theorem edgeOnUnknownR0IsADraw : Obligations.EdgeOnUnknownR0IsADraw := by
  intro s v i cfg acc transport unknown noReset fcal consistent form
  obtain ⟨wf, body⟩ := bodyOf_write (s := s.begin) acc (by omega) form
  obtain ⟨t, wrote, ran, written, _⟩ :=
    memWrite_zero_decided v _ s.begin _ cfg transport (edgeOf_unknown unknown fcal) noReset fun _ => consistent
  rw [wrote, andThen_ok] at body
  exact ⟨_, exec_of_ok wf body, rfl, r0Written_done written _, ran.controller_done _, ran.trace_done, ran.used_done _⟩

/-- Settles O19: where the draw is an edge it finds PLL_N inconsistent, and where it is none PLL_N is not looked at. -/
theorem edgeOnUnknownR0WithInconsistentDivider : Obligations.EdgeOnUnknownR0WithInconsistentDivider := by
  intro s v i cfg acc transport unknown noReset fcal inconsistent form
  obtain ⟨wf, body⟩ := bodyOf_write (s := s.begin) acc (by omega) form
  have drawn := edgeOf_unknown (s := s.begin) unknown fcal
  rw [State.begin_draws] at drawn
  cases edge : Config.drawBit s.draws with
  | true =>
    obtain ⟨t, wrote, ran, ⟨register, others, committed, life⟩, _⟩ :=
      memWrite_zero_inconsistent v s.begin _ cfg transport (edge ▸ drawn) noReset inconsistent
    rw [wrote, andThen_fault] at body
    obtain ⟨taken, trace, used⟩ := ran.fault_done .hazardOrder
    exact ⟨_, exec_of_fault wf body, trace, used, taken, register, others, committed, life⟩
  | false =>
    obtain ⟨t, wrote, ran, written, _⟩ :=
      memWrite_zero_decided v false s.begin _ cfg transport (edge ▸ drawn) noReset nofun
    rw [wrote, andThen_ok] at body
    exact ⟨_, exec_of_ok wf body, ran.trace_done, ran.used_done _, rfl, r0Written_done written _, ran.controller_done _⟩

/-- Settles O21: the unlock word is a write of R0 with neither a reset nor an edge. -/
theorem unlockMakesReadbackReliable : Obligations.UnlockMakesReadbackReliable := by
  intro s cfg acc transport
  obtain ⟨_, noReset, muxoutClear, fcalClear⟩ := unlockWord_bits
  obtain ⟨t, wrote, ran, written, draws⟩ :=
    memWrite_zero_spec unlockWord false s.begin cfg transport (edgeKnown_of_fcalClear _ fcalClear) nofun
  have body : bodyOf .unlock s.begin = .ok .unit t := by
    rw [bodyOf, writeRegister_ok (s := s.begin) _ acc (by omega), wrote, andThen_ok]
  obtain ⟨stored, others, consistent⟩ := written.stored noReset
  have life := r0Written_life_unlockWord written
  have readback := readbackOk_of_r0Written written noReset muxoutClear fun _ => rfl
  exact ⟨_, exec_of_ok rfl body, rfl, stored, others, written.kept noReset rfl, consistent, life, readback,
    ran.controller_done _, ran.trace_done, ran.used_done _, draws⟩

end Sys2Proof.Proofs

/-!
PROOFS. The statements about 60_exceptions.md: the errors that leave the block as it was (R232), the bus fault that ends a command
(R231, R236), the run that a fault stops (R234), and the requests that are no command (R237).
-/

namespace Sys2Proof

/-! ## Requests that are no command (60_exceptions.md R237) -/

/-- The opcodes of R85 are 0x01 to 0x11, whatever operand codes come with them. -/
theorem decodeCommand_badOpcode {op : Byte} (codes : List Int) (unlisted : op = 0 ∨ 0x12 ≤ op.toNat) :
    decodeCommand op codes = .error (.badOpcode op) := by
  have outside : ¬ (1 ≤ op.toNat ∧ op.toNat ≤ 0x11) := by
    obtain rfl | above := unlisted
    · decide
    · omega
  unfold decodeCommand
  split
  case h_18 => exact if_neg outside
  all_goals omega

/-- A code that has no row in R86's list of fields. -/
theorem fieldOfCode_outside {c : Int} (outside : c < 0 ∨ 31 < c) : fieldOfCode c = .error (.badField c) := by
  unfold fieldOfCode
  split_ifs with negative
  · rfl
  · rw [List.getElem?_eq_none (show fieldTable.length ≤ c.toNat by simp [fieldTable]; omega)]

/-- A code that has no row in R87's list of groups. -/
theorem groupOfCode_outside {c : Int} (outside : c < 0 ∨ 6 < c) : groupOfCode c = .error (.badGroup c) := by
  unfold groupOfCode
  split_ifs with negative
  · rfl
  · rw [List.getElem?_eq_none (show groupTable.length ≤ c.toNat by simp [groupTable]; omega)]

theorem channelOfCode_outside {c : Int} (notA : c ≠ 0) (notB : c ≠ 1) : channelOfCode c = .error (.badChannel c) := by
  rw [channelOfCode, if_neg notA, if_neg notB]

end Sys2Proof

namespace Sys2Proof.Machine

open Sys2Proof.Safety

/-! ## Parts that raise no error but E_BUS (60_exceptions.md R231)

E_ADDR and E_PARAM come from the checks at the start of a command. What follows a command's checks, the reads and writes of fields
whose layout and width are known, ends in a value, in a fault or in E_BUS. -/

/-- The error is the transport's. -/
def IsBus (e : BlockError) : Prop := ∃ info k, e = .bus info k

/-- The part raises no error but E_BUS, and `P` holds of the state it leaves with a value. -/
abbrev Reply.OnlyBus {α : Type} (r : Reply α) (P : State → Prop) : Prop := r.Sat P (fun e _ => IsBus e) fun _ _ => True

theorem faultIf_onlyBus (cond : Bool) (f : FaultRecord) (s : State) : (faultIf cond f s).OnlyBus (· = s) :=
  faultIf_sat cond f s rfl fun _ => trivial

theorem checkAddr_onlyBus {a : Nat} (s : State) (ha : a < 113) : (checkAddr a s).OnlyBus (· = s) := by
  rw [checkAddr, if_neg (by omega)]
  exact faultIf_onlyBus _ _ s

theorem setBitsOp_onlyBus (w : Word) (low high : Int) (d : Nat) (s : State) : (setBitsOp w low high d s).OnlyBus (· = s) :=
  (faultIf_onlyBus _ _ s).andThen fun _ _ => id

theorem getBitsOp_onlyBus (w : Word) (low high : Int) (s : State) : (getBitsOp w low high s).OnlyBus (· = s) :=
  (faultIf_onlyBus _ _ s).andThen fun _ _ => id

/-! ## Reads -/

theorem Reads.refl (s : State) : Reads [] s s := ⟨[], .refl s, rfl⟩

/-- Reads follow one another. -/
theorem Reply.Sat.andThenReads {α β : Type} {E : BlockError → State → Prop} {F : FaultRecord → State → Prop}
    {fs gs : List (List Byte)} {s : State} {r : Reply α} {k : α → State → Reply β} (h : r.Sat (Reads fs s) E F)
    (hk : ∀ v u, Reads fs s u → (k v u).Sat (Reads gs u) E F) : (r.andThen k).Sat (Reads (fs ++ gs) s) E F :=
  h.andThen fun v u reads => (hk v u reads).mono (fun _ => reads.trans) (fun _ _ => id) fun _ _ => id

/-- A read transaction sends its one byte (30_encoding.md R81). -/
theorem memRead_onlyBus {a : Nat} (s : State) (ha : a < 113) :
    (memRead a s).OnlyBus (Reads [[BitVec.ofNat 8 (128 + a)]] s) := by
  have frame := readFrameBytes_busAddr a (by omega)
  obtain ⟨_, e⟩ | ⟨info, _, e⟩ := memRead_cases a s <;> rw [e]
  · have looked (x : Transaction) : Looked [x] s ((deviceRead a s).2.logged x) := by
      obtain same | drawn := deviceRead_state a s
      · rw [same]; exact ⟨ran_logged s x, rfl, rfl, rfl, rfl⟩
      · rw [drawn]; exact ⟨(Ran.refl s).drawn.trans (ran_logged s.drawn x), rfl, rfl, rfl, rfl⟩
    exact ⟨_, looked _, by rw [List.map_singleton, frame]⟩
  · exact ⟨info, _, rfl⟩

theorem readRegister_onlyBus {a : Nat} (s : State) (ha : a < 113) :
    (readRegister a s).OnlyBus (Reads [[BitVec.ofNat 8 (128 + a)]] s) :=
  (checkAddr_onlyBus s ha).andThen fun _ _ same => same ▸ memRead_onlyBus s ha

theorem readParts_onlyBus {ps : List Part} (within : ∀ p ∈ ps, p.addr < 113) (acc : Nat) (s : State) :
    (readParts ps acc s).OnlyBus (Reads (partReads ps) s) := by
  induction ps generalizing acc s with
  | nil => exact Reads.refl s
  | cons p ps ih =>
    rw [List.forall_mem_cons] at within
    exact (readRegister_onlyBus s within.1).andThenReads fun word u _ =>
      (getBitsOp_onlyBus word p.lo p.hi u).andThen fun bits u' same => by rw [same]; exact ih within.2 _ u

theorem readField_onlyBus (f : FieldId) {s : State} (cfg : paramsOk s.cfg = true) :
    (readField f s).OnlyBus (Reads (partReads (fieldParts s.cfg f)) s) :=
  readParts_onlyBus (fun q part => (fieldParts_ok _ cfg f q part).1.trans (by omega)) 0 s

/-- The reads of a field whose layout no parameter changes. -/
theorem readField_fixed {f : FieldId} {frames : List (List Byte)} (layout : ∀ p, partReads (fieldParts p f) = frames) {s : State}
    (cfg : paramsOk s.cfg = true) : (readField f s).OnlyBus (Reads frames s) :=
  layout s.cfg ▸ readField_onlyBus f cfg

theorem readFields_onlyBus (fields : List FieldId) {s : State} (cfg : paramsOk s.cfg = true) :
    (readFields fields s).OnlyBus fun _ => True := by
  induction fields generalizing s with
  | nil => trivial
  | cons f fields ih =>
    exact (readField_onlyBus f cfg).andThen fun _ _ reads => (ih (reads.cfg ▸ cfg)).andThen fun _ _ => id

theorem readGroupOp_onlyBus (g : GroupId) {s : State} (cfg : paramsOk s.cfg = true) : (readGroupOp g s).OnlyBus fun _ => True := by
  unfold readGroupOp
  split
  · exact (readRegister_onlyBus s (by omega)).andThen fun _ s₁ _ => (readRegister_onlyBus s₁ (by omega)).andThen fun _ s₂ _ =>
      (readRegister_onlyBus s₂ (by omega)).andThen fun _ _ _ => trivial
  · exact (readFields_onlyBus _ cfg).andThen fun _ _ => id

/-- `compute_fpd` is four reads and the checks of two divisors (42_frequency_model.md R151). -/
theorem computeFpd_onlyBus {s : State} (cfg : paramsOk s.cfg = true) : (computeFpd s).OnlyBus (Reads fpdFrames s) :=
  (readField_fixed (frames := [[0x89]]) (fun _ => rfl) cfg).andThenReads fun _ _ r₁ =>
    (readField_fixed (frames := [[0x8C]]) (fun _ => rfl) (r₁.cfg ▸ cfg)).andThenReads fun _ _ r₂ =>
      (readField_fixed (frames := [[0x8A]]) (fun _ => rfl) (r₂.cfg ▸ r₁.cfg ▸ cfg)).andThenReads fun _ _ r₃ =>
        (readField_fixed (frames := [[0x8B]]) (fun _ => rfl) (r₃.cfg ▸ r₂.cfg ▸ r₁.cfg ▸ cfg)).andThen fun _ s₄ r₄ =>
          (faultIf_onlyBus _ _ s₄).andThen fun _ s₅ same =>
            (faultIf_onlyBus _ _ s₅).andThen fun _ _ same' => same' ▸ same ▸ r₄

/-- `fvco_from` is six reads and the check of a divisor (42_frequency_model.md R152). -/
theorem fvcoFrom_onlyBus (fpd : Rat) {s : State} (cfg : paramsOk s.cfg = true) : (fvcoFrom fpd s).OnlyBus (Reads dividerFrames s) :=
  (readField_fixed (frames := [[0xA2], [0xA4]]) (fun _ => rfl) cfg).andThenReads fun _ _ r₁ =>
    (readField_fixed (frames := [[0xAA], [0xAB]]) (fun _ => rfl) (r₁.cfg ▸ cfg)).andThenReads fun _ _ r₂ =>
      (readField_fixed (frames := [[0xA6], [0xA7]]) (fun _ => rfl) (r₂.cfg ▸ r₁.cfg ▸ cfg)).andThen fun _ s₃ r₃ =>
        (faultIf_onlyBus _ _ s₃).andThen fun _ _ same => same ▸ r₃

/-! ## Writes, with a checked configuration `p` -/

/-- The parameters are `p`, as at construction (00_scope.md R7). -/
def HasParams (p : Params) (u : State) : Prop := u.cfg = p

theorem Reads.hasParams {fs : List (List Byte)} {p : Params} {s u : State} (reads : Reads fs s u) (h : HasParams p s) :
    HasParams p u :=
  reads.cfg.trans h

theorem memWrite_onlyBus (a : Nat) (v : Word) {p : Params} {s : State} (h : HasParams p s) :
    (memWrite a v s).OnlyBus (HasParams p) := by
  refine memWrite_sat_of a v s (fun info _ => ⟨info, _, rfl⟩) fun s' hs' _ => ?_
  have logged : HasParams p s' := hs' ▸ h
  refine ⟨fun _ => trivial, fun _ _ => logged, fun _ _ _ => logged, ?_⟩
  rintro s₁ edge - - - - same
  have kept : HasParams p s₁ := by obtain rfl | rfl := same <;> exact logged
  exact ⟨fun _ _ => kept, fun _ _ => trivial, fun _ => kept⟩

theorem writeRegister_onlyBus {a : Nat} (w : Word) {p : Params} {s : State} (ha : a < 113) (h : HasParams p s) :
    (writeRegister a w s).OnlyBus (HasParams p) :=
  (checkAddr_onlyBus s ha).andThen fun _ s₁ same => (faultIf_onlyBus _ _ s₁).andThen fun _ _ same' =>
    memWrite_onlyBus a w (same' ▸ same ▸ h)

theorem modifyRegister_onlyBus {a : Nat} (low high : Int) (d : Nat) {p : Params} {s : State} (ha : a < 113) (h : HasParams p s) :
    (modifyRegister a low high d s).OnlyBus (HasParams p) :=
  (faultIf_onlyBus _ _ s).andThen fun _ s₁ same₁ => (checkAddr_onlyBus s₁ ha).andThen fun _ s₂ same₂ =>
    (faultIf_onlyBus _ _ s₂).andThen fun _ s₃ same₃ => (faultIf_onlyBus _ _ s₃).andThen fun _ s₄ same₄ =>
      (memRead_onlyBus s₄ ha).andThen fun old s₅ reads =>
        (setBitsOp_onlyBus old low high d s₅).andThen fun new _ same₅ =>
          memWrite_onlyBus a new (same₅ ▸ reads.hasParams (same₄ ▸ same₃ ▸ same₂ ▸ same₁ ▸ h))

theorem writeParts_onlyBus {ps : List Part} (within : ∀ q ∈ ps, q.addr < 113) (v : Nat) {p : Params} {s : State}
    (h : HasParams p s) : (writeParts ps v s).OnlyBus (HasParams p) := by
  induction ps generalizing s with
  | nil => exact h
  | cons q ps ih =>
    rw [List.forall_mem_cons] at within
    obtain ⟨ha, rest⟩ := within
    rw [writeParts]
    refine Reply.Sat.andThen (P := HasParams p) ?_ fun _ _ h₁ => ih rest h₁
    split_ifs
    · exact writeRegister_onlyBus _ ha h
    · exact modifyRegister_onlyBus _ _ _ ha h

/-- FIELD_WRITE of a value that fits its field. -/
theorem writeField_onlyBus {f : FieldId} {v : Int} {p : Params} {s : State} (cfg : paramsOk p = true) (h : HasParams p s)
    (fits : 0 ≤ v ∧ v < 2 ^ fieldWidth p f) : (writeField f v s).OnlyBus (HasParams p) := by
  obtain rfl : s.cfg = p := h
  rw [writeField, decide_eq_true fits, requireParam_true, andThen_ok]
  refine (faultIf_onlyBus _ _ s).andThen fun _ s₁ same => ?_
  subst same
  exact writeParts_onlyBus (fun q part => (fieldParts_ok _ cfg f q part).1.trans (by omega)) _ rfl

theorem writeFields_onlyBus {l : List (FieldId × Int)} {p : Params} {s : State} (cfg : paramsOk p = true) (h : HasParams p s)
    (fits : ∀ e ∈ l, 0 ≤ e.2 ∧ e.2 < 2 ^ fieldWidth p e.1) : (writeFields l s).OnlyBus (HasParams p) := by
  induction l generalizing s with
  | nil => exact h
  | cons e l ih =>
    rw [List.forall_mem_cons] at fits
    exact (writeField_onlyBus cfg h fits.1).andThen fun _ _ h₁ => ih h₁ fits.2

/-- ARM only reads and modifies R0 (44_lifecycle.md R218). -/
theorem armOp_onlyBus {s : State} (cfg : paramsOk s.cfg = true) : (armOp s).OnlyBus (HasParams s.cfg) := by
  refine (faultIf_onlyBus _ _ s).andThen fun _ s₁ same => ?_
  subst same
  refine (readField_onlyBus .FCAL_EN cfg).andThen fun cur s₂ reads => ?_
  have h₂ : HasParams s₁.cfg s₂ := reads.cfg
  refine Reply.Sat.andThen (P := HasParams s₁.cfg) ?_ fun _ _ h₃ => modifyRegister_onlyBus 3 3 1 (by omega) h₃
  split_ifs
  · exact modifyRegister_onlyBus 3 3 0 (by omega) h₂
  · exact h₂

/-! ## Errors that leave the block as it was (60_exceptions.md R232) -/

/-- The error is the transport's, or nothing but these reads came before it. -/
def PreciseError (frames : List (List Byte)) (s : State) (e : BlockError) (u : State) : Prop := IsBus e ∨ Reads frames s u

/-- Every error the part raises is precise. -/
abbrev Reply.Precise {α : Type} (r : Reply α) (frames : List (List Byte)) (s : State) : Prop :=
  r.Sat (fun _ => True) (PreciseError frames s) fun _ _ => True

/-- A part that raises no error but E_BUS is precise wherever it stands. -/
theorem Reply.Sat.preciseError {α : Type} {r : Reply α} {P : State → Prop} (h : r.OnlyBus P) (frames : List (List Byte))
    (s : State) : r.Sat P (PreciseError frames s) fun _ _ => True :=
  h.mono (fun _ => id) (fun _ _ => .inl) fun _ _ => id

theorem Reply.Sat.precise {α : Type} {r : Reply α} {P : State → Prop} (h : r.OnlyBus P) (frames : List (List Byte)) (s : State) :
    r.Precise frames s :=
  h.mono (fun _ _ => trivial) (fun _ _ => .inl) fun _ _ => id

/-- A check that fails at the start of a command is precise. -/
theorem error_precise {α : Type} (e : BlockError) (s : State) : (Reply.error e s : Reply α).Precise [] s := .inr (Reads.refl s)

theorem checkAddr_andThen_precise {α : Type} {a : Nat} {s : State} {k : Unit → State → Reply α} {P : State → Prop}
    (within : a < 113 → ((checkAddr a s).andThen k).OnlyBus P) : ((checkAddr a s).andThen k).Precise [] s := by
  by_cases ha : a < 113
  · exact (within ha).precise [] s
  · rw [checkAddr_outside s (by omega), andThen_error]
    exact error_precise _ s

theorem readRegister_precise (a : Nat) (s : State) : (readRegister a s).Precise [] s :=
  checkAddr_andThen_precise fun ha => readRegister_onlyBus s ha

theorem writeRegister_precise (a : Nat) (w : Word) (s : State) : (writeRegister a w s).Precise [] s :=
  checkAddr_andThen_precise fun ha => writeRegister_onlyBus w ha (rfl : HasParams s.cfg s)

theorem modifyRegister_precise (a : Nat) (low high : Int) (d : Nat) (s : State) : (modifyRegister a low high d s).Precise [] s := by
  by_cases ha : a < 113
  · exact (modifyRegister_onlyBus low high d ha (rfl : HasParams s.cfg s)).precise [] s
  · refine ((faultIf_onlyBus _ _ s).preciseError [] s).andThen fun _ s₁ same => ?_
    rw [same, checkAddr_outside s (by omega), andThen_error]
    exact error_precise _ s

/-- FIELD_WRITE checks the width first. -/
theorem writeField_precise (f : FieldId) (v : Int) {s : State} (cfg : paramsOk s.cfg = true) : (writeField f v s).Precise [] s := by
  by_cases fits : 0 ≤ v ∧ v < 2 ^ fieldWidth s.cfg f
  · exact (writeField_onlyBus cfg rfl fits).precise [] s
  · rw [writeField_width fits]
    exact error_precise _ s

/-- SET_DIVIDER checks its operands first, and what passes fits the three fields (43_ramp_configurator.md R190). -/
theorem setDividerOp_precise (n num den : Int) {s : State} (cfg : paramsOk s.cfg = true) :
    (setDividerOp n num den s).Precise [] s := by
  simp only [setDividerOp, requireParam_andThen]
  split_ifs with hn hnum hden
  · refine Reply.Sat.precise (P := HasParams s.cfg) ((faultIf_onlyBus _ _ s).andThen fun _ s₁ same => ?_) [] s
    refine writeFields_onlyBus cfg (congrArg State.cfg same) ?_
    simp only [List.forall_mem_cons]
    exact ⟨hn, hnum, hden, nofun⟩
  · exact error_precise _ s
  · exact error_precise _ s
  · exact error_precise _ s

theorem setOutputPowerOp_precise (c : Channel) (level : Int) {s : State} (cfg : paramsOk s.cfg = true) :
    (setOutputPowerOp c level s).Precise [] s := by
  rw [setOutputPowerOp, requireParam_andThen]
  split_ifs
  · exact writeField_precise _ level cfg
  · exact error_precise _ s

/-! ## CONFIGURE_RAMP, whose checks follow its ten reads (43_ramp_configurator.md R170) -/

/-- The codes that phase 2 derives. -/
def rampCodes (span duration threshold : Rat) (descending : Bool) (fpd fvco : Rat) : RampCodes where
  len := cyclesOf duration fpd
  inc := writtenInc (incCode span fpd (cyclesOf duration fpd)) descending
  thresh := codeHz threshold fpd
  limitHigh := limitHighCode span fpd fvco
  limitLow := limitLowCode span fpd fvco

theorem codesOf_rampCodes (span duration threshold : Rat) (descending : Bool) (fpd fvco : Rat) :
    CodesOf span duration threshold descending fpd fvco (incCode span fpd (cyclesOf duration fpd))
      (rampCodes span duration threshold descending fpd fvco) where
  len := rfl
  ascending := rfl
  inc := rfl
  thresh := rfl
  limitHigh := rfl
  limitLow := by simp only [rampCodes, limitLowCode, fracScale]; norm_num

/-- Phase 2 issues no transaction, and codes that it accepts are in their ranges. -/
theorem deriveRamp_cases (span duration threshold : Rat) (descending : Bool) (fpd fvco : Rat) (s : State) :
    (∃ asc c, CodesOf span duration threshold descending fpd fvco asc c ∧ CodesInRange duration fpd asc c ∧
      deriveRamp span duration threshold descending fpd fvco s = .ok c s) ∨
    (∃ e, deriveRamp span duration threshold descending fpd fvco s = .error e s) ∨
    ∃ f, deriveRamp span duration threshold descending fpd fvco s = .fault f s := by
  have codes := codesOf_rampCodes span duration threshold descending fpd fvco
  rw [codes.deriveRamp_eq s]
  split_ifs with cycles fpdZero lenZero ascending inc thresh high low
  · exact .inr (.inr ⟨_, rfl⟩)
  · exact .inr (.inr ⟨_, rfl⟩)
  · exact .inl ⟨_, _, codes, ⟨cycles, fpdZero, lenZero, ascending, inc.2, thresh, high, low⟩, rfl⟩
  all_goals exact .inr (.inl ⟨_, rfl⟩)

/-- Phase 3 writes codes that fit their fields, so that only the checks of phase 2 raise E_PARAM (R176). -/
theorem configureRampOp_precise (span duration threshold : Rat) (descending freeRun : Bool) {s : State}
    (cfg : paramsOk s.cfg = true) : (configureRampOp span duration threshold descending freeRun s).Precise planFrames s := by
  have gate := (faultIf_onlyBus (!readbackOk s) (.locked .configureRamp) s).preciseError planFrames s
  refine gate.andThen fun _ s₁ same => ?_
  subst same
  refine ((computeFpd_onlyBus cfg).preciseError planFrames s₁).andThen fun fpd s₂ reads₂ => ?_
  refine ((fvcoFrom_onlyBus fpd (reads₂.cfg ▸ cfg)).preciseError planFrames s₁).andThen fun fvco s₃ reads₃ => ?_
  have reads : Reads planFrames s₁ s₃ := reads₂.trans reads₃
  have cfg₃ : paramsOk s₃.cfg = true := reads.cfg ▸ cfg
  obtain ⟨asc, c, codes, range, e⟩ | ⟨err, e⟩ | ⟨f, e⟩ := deriveRamp_cases span duration threshold descending fpd fvco s₃
    <;> rw [e]
  · exact (writeFields_onlyBus cfg₃ rfl (codes.rampWrites_fit range cfg₃ freeRun)).precise planFrames s₁
  · exact .inr reads
  · trivial

/-! ## All commands -/

/-- The frames a command has sent when its operands and derived values are checked. -/
def framesBeforeChecks : Instr → List (List Byte)
  | .configureRamp _ _ _ _ _ => planFrames
  | _ => []

/-- A part of a command followed by its answer. -/
theorem answer_precise {α : Type} {r : Reply α} {frames : List (List Byte)} {s : State} (h : r.Precise frames s)
    (value : α → Value) : (r.andThen fun v u => .ok (value v) u).Precise frames s :=
  h.andThen fun _ _ => id

theorem bodyOf_precise (i : Instr) {s : State} (cfg : paramsOk s.cfg = true) : (bodyOf i s).Precise (framesBeforeChecks i) s := by
  cases i with
  | setBits w low high d => exact answer_precise ((setBitsOp_onlyBus w low high d s).precise [] s) .word
  | getBits w low high => exact answer_precise ((getBitsOp_onlyBus w low high s).precise [] s) .nat
  | read a => exact answer_precise (readRegister_precise a s) .word
  | write a w => exact answer_precise (writeRegister_precise a w s) fun _ => .unit
  | modify a low high d => exact answer_precise (modifyRegister_precise a low high d s) fun _ => .unit
  | fieldRead f => exact answer_precise ((readField_onlyBus f cfg).precise [] s) .nat
  | fieldWrite f v => exact answer_precise (writeField_precise f v cfg) fun _ => .unit
  | readGroup g => exact (readGroupOp_onlyBus g cfg).precise [] s
  | getFpd => exact answer_precise ((computeFpd_onlyBus cfg).precise [] s) .freq
  | getFvco =>
    have fvco : (computeFvco s).OnlyBus (Reads planFrames s) :=
      (computeFpd_onlyBus cfg).andThenReads fun fpd _ reads => fvcoFrom_onlyBus fpd (reads.cfg ▸ cfg)
    exact answer_precise (fvco.precise [] s) .freq
  | getFsmclk =>
    have fsmclk : (computeFsmclk s).OnlyBus fun _ => True := (readField_onlyBus .CAL_CLK_DIV cfg).andThen fun _ _ _ => trivial
    exact answer_precise (fsmclk.precise [] s) .freq
  | configureRamp span duration threshold descending freeRun =>
    exact answer_precise (configureRampOp_precise span duration threshold descending freeRun cfg) fun _ => .unit
  | setDivider n num den => exact answer_precise (setDividerOp_precise n num den cfg) fun _ => .unit
  | setOutputPower c level => exact answer_precise (setOutputPowerOp_precise c level cfg) fun _ => .unit
  | reset => exact answer_precise (writeRegister_precise 0 _ s) fun _ => .unit
  | unlock => exact answer_precise (writeRegister_precise 0 unlockWord s) fun _ => .unit
  | arm => exact answer_precise ((armOp_onlyBus cfg).precise [] s) fun _ => .unit
  | writeFrame a w => exact answer_precise (writeRegister_precise a.toNat w s) fun _ => .unit
  | readFrame a => exact answer_precise (readRegister_precise a.toNat s) .word

/-- What the trace shows where a check failed: nothing, or CONFIGURE_RAMP's ten reads. -/
theorem trace_of_framesBeforeChecks {i : Instr} {l : List Transaction} (sent : l.map Transaction.sent = framesBeforeChecks i) :
    l = [] ∨ ((∃ a b c d g, i = .configureRamp a b c d g) ∧ l.length = 10 ∧ ∀ x ∈ l, x.sent.length = 1) := by
  cases i with
  | configureRamp span duration threshold descending freeRun =>
    refine .inr ⟨⟨_, _, _, _, _, rfl⟩, by simpa [framesBeforeChecks] using congrArg List.length sent, fun x mem => ?_⟩
    have oneByte : ∀ frame ∈ planFrames, frame.length = 1 := by decide
    have frames : l.map Transaction.sent = planFrames := sent
    exact oneByte _ (frames ▸ List.mem_map_of_mem mem)
  | _ => exact .inl (List.map_eq_nil_iff.1 sent)

/-! ## Bus faults (60_exceptions.md R231, R236; 20_memory.md R69) -/

/-- Every transaction of the command so far has succeeded. -/
def AllOk (u : State) : Prop := ∀ x ∈ u.trace, x.answer = .ok

/-- What the trace shows of a command that ended in an error: of a bus fault, that the last transaction failed with it, is the one
the error's index names, and is the first that failed; of any other error, that none failed. -/
def TraceOfError : BlockError → State → Prop
  | .bus info k, u => ∃ before last, u.trace = before ++ [last] ∧ k = before.length + 1 ∧ last.answer = .fault info ∧
      ∀ x ∈ before, x.answer = .ok
  | .addr _, u => AllOk u
  | .param _ _, u => AllOk u

/-- Of an error that is no bus fault no transaction failed. -/
theorem TraceOfError.allOk {e : BlockError} {u : State} (h : TraceOfError e u) (notBus : ∀ info k, e ≠ .bus info k) : AllOk u := by
  cases e with
  | addr a => exact h
  | param check value => exact h
  | bus info k => exact absurd rfl (notBus info k)

theorem AllOk.logged {s u : State} {x : Transaction} (h : AllOk s) (trace : u.trace = s.trace ++ [x]) (ok : x.answer = .ok) :
    AllOk u := by
  intro y mem
  rw [trace, List.mem_append, List.mem_singleton] at mem
  obtain earlier | rfl := mem
  · exact h y earlier
  · exact ok

/-- The transaction that fails ends the trace, and its index is the length of the trace with it (R231). -/
theorem AllOk.traceOfError {s u : State} {x : Transaction} {info : BusInfo} (h : AllOk s) (trace : u.trace = s.trace ++ [x])
    (failed : x.answer = .fault info) : TraceOfError (.bus info s.nextIndex) u :=
  ⟨s.trace, x, trace, rfl, failed, h⟩

theorem memRead_traceOfError (a : Nat) {s : State} (h : AllOk s) :
    (memRead a s).Sat AllOk TraceOfError fun _ => AllOk := by
  obtain ⟨_, e⟩ | ⟨info, _, e⟩ := memRead_cases a s <;> rw [e]
  · have sameTrace : (deviceRead a s).2.trace = s.trace := by
      obtain same | drawn := deviceRead_state a s
      · rw [same]
      · rw [drawn, State.drawn_trace]
    exact h.logged (by rw [State.logged_trace, sameTrace]) rfl
  · exact h.traceOfError (State.logged_trace s _) rfl

/-- What the device does with a write, or a failed write does to it, leaves the trace as the transaction left it. -/
theorem memWrite_traceOfError (a : Nat) (v : Word) {s : State} (h : AllOk s) :
    (memWrite a v s).Sat AllOk TraceOfError fun _ => AllOk := by
  refine memWrite_sat_of a v s (fun info _ => ?failed) fun s' hs' _ => ?succeeded
  case failed =>
    have sameTrace := ((Ran.refl (s.logged ⟨writeFrameBytes (busAddr a) v, [], .fault info⟩)).writeFailed a v).trace
    exact h.traceOfError (by rw [sameTrace, List.append_nil, State.logged_trace]) rfl
  case succeeded =>
    have logged : AllOk s' := h.logged (hs' ▸ State.logged_trace s _) rfl
    refine ⟨fun _ => maybeStored_ind s' a v logged logged, fun _ _ => logged, fun _ _ _ => logged, ?_⟩
    rintro s₁ edge - - - - same
    have allOk : AllOk s₁ := by obtain rfl | rfl := same <;> exact logged
    exact ⟨fun _ _ => allOk, fun _ _ => maybeStored_ind s₁ 0 v allOk allOk, fun _ => allOk⟩

/-- Every command ends at the first transaction that fails. -/
theorem traceOfError_closed : Closed AllOk TraceOfError fun _ => AllOk where
  read a _ := memRead_traceOfError a
  addr _ _ := id
  param _ _ _ := id
  fault _ _ _ := id
  write a v _ _ := memWrite_traceOfError a v

/-! ## Runs that are stuck, and blocks that wait (60_exceptions.md R234, 70_reset_and_hazards.md R260) -/

/-- A run is stuck on a fault that it has recorded. -/
theorem stuckOn_of_fault {s : State} (faulted : ∃ f ∈ s.faults, isFault f = true) :
    ∃ g ∈ s.faults, isFault g = true ∧ stuckOn s = some g := by
  obtain ⟨g, stuck⟩ := Option.isSome_iff_exists.1 (List.find?_isSome.2 faulted)
  exact ⟨g, List.mem_of_find?_eq_some stuck, List.find?_some stuck, stuck⟩

/-- REFUSED alone does not stop a run. -/
theorem stuckOn_of_noFault {s : State} (clean : ∀ f ∈ s.faults, isFault f = false) : stuckOn s = none :=
  List.find?_eq_none.2 fun f mem => by simp [clean f mem]

theorem step_of_stuck {s : State} {g : FaultRecord} (cfg : paramsOk s.cfg = true) (stuck : stuckOn s = some g) :
    step s = .fault (.stuck g) := by
  simp only [step, cfg, if_true, stuck]

theorem step_of_idle {s : State} (cfg : paramsOk s.cfg = true) (free : stuckOn s = none) (idle : s.requests = []) :
    step s = .next s := by
  simp only [step, cfg, if_true, free, fetch, idle]

/-! ## The step that refuses (60_exceptions.md R237) -/

/-- A command that does not decode is refused. -/
theorem stepRequest_of_reject {op : Byte} {codes : List Int} {why : Reject} (rejected : decode (.command op codes) = .error why)
    (s : State) : stepRequest (.command op codes) s = .next (s.refuseRequest (.command op codes)) := by
  simp only [stepRequest, rejected, rejectRequest]

end Sys2Proof.Machine

namespace Sys2Proof.Proofs

open Sys2Proof.Machine Sys2Proof.Safety

/-- Settles O57: an error other than E_BUS comes from a check, and nothing but CONFIGURE_RAMP's reads precedes a check. -/
theorem addressAndParameterErrorsArePrecise : Obligations.AddressAndParameterErrorsArePrecise := by
  intro s t i e cfg run result notBus
  obtain rfl := eq_finish_of_exec run
  have precise := bodyOf_precise i (s := s.begin) cfg
  cases body : bodyOf i s.begin with
  | ok v u => rw [body] at result; exact nomatch result
  | fault f u => rw [body] at result; exact nomatch result
  | error e' u =>
    rw [body] at result precise
    obtain rfl : e' = e := by simpa using result
    obtain ⟨info, k, bus⟩ | ⟨l, looked, sent⟩ := precise
    · exact absurd bus (notBus info k)
    · refine ⟨looked.block_done _, ?_⟩
      have trace : (Reply.error e' u : Reply Value).finish.trace = l := looked.ran.trace_done
      rw [trace]
      exact trace_of_framesBeforeChecks sent

/-- Settles O58: transactions that succeed leave all of the trace successful, and the first that fails ends the command. -/
theorem busFaultEndsTheCommand : Obligations.BusFaultEndsTheCommand := by
  intro s t i run
  obtain rfl := eq_finish_of_exec run
  have ends : (bodyOf i s.begin).Sat AllOk TraceOfError fun _ => AllOk :=
    bodyOf_sat traceOfError_closed i s.begin fun _ mem => nomatch mem
  cases body : bodyOf i s.begin with
  | ok v u =>
    rw [body, sat_ok] at ends
    exact ⟨fun _ _ result => (nomatch result), fun _ => ends⟩
  | fault f u =>
    rw [body, sat_fault] at ends
    exact ⟨fun _ _ result => (nomatch result), fun _ => ends⟩
  | error e u =>
    rw [body, sat_error] at ends
    refine ⟨fun info k result => ?_, fun notBus => ends.allOk fun info k bus => notBus info k (bus ▸ rfl)⟩
    obtain rfl : e = .bus info k := by simpa using result
    exact ends

/-- Settles O4: each code is outside the table it is looked up in, and the step refuses what does not decode. -/
theorem requestThatIsNoCommandIsRefused : Obligations.RequestThatIsNoCommandIsRefused := by
  refine ⟨fun _ codes unlisted => decodeCommand_badOpcode codes unlisted, fun c outside => ⟨?_, fun v => ?_⟩,
    fun c outside => ?_, fun c l notA notB => ?_, ?_⟩
  · exact (decode_06 c).trans (by rw [fieldOfCode_outside outside]; rfl)
  · exact (decode_07 c v).trans (by rw [fieldOfCode_outside outside]; rfl)
  · exact (decode_08 c).trans (by rw [groupOfCode_outside outside]; rfl)
  · exact (decode_0E c l).trans (by rw [channelOfCode_outside notA notB]; rfl)
  · intro s op codes rest why cfg free requests rejected
    refine ⟨_, (step_of_requests cfg free requests).trans (stepRequest_of_reject rejected _), ?_⟩
    exact ⟨rfl, rfl, rfl, rfl, rfl, ⟨rfl, rfl, rfl⟩, rfl, rfl, rfl⟩

/-- Settles O50: the first fault recorded stops the run, REFUSED stops none. -/
theorem stuckRunHasNoStepAndIdleBlockWaits : Obligations.StuckRunHasNoStepAndIdleBlockWaits := by
  refine fun s cfg => ⟨fun faulted => ?_, fun clean idle => step_of_idle cfg (stuckOn_of_noFault clean) idle⟩
  obtain ⟨g, mem, fault, stuck⟩ := stuckOn_of_fault faulted
  exact ⟨g, mem, fault, step_of_stuck cfg stuck⟩

end Sys2Proof.Proofs

/-!
PROOFS. The statements about 70_reset_and_hazards.md: the calibration-enable hazard of the ramp registers (R271), the hazard of an
FCAL_EN edge over an inconsistent PLL_N (R272), and power-up (R260).
-/

namespace Sys2Proof.Machine

open Sys2Proof.Safety

/-! ## A command that ends in a fault at a write (60_exceptions.md R234) -/

/-- The command that took a fault at its write of `w` to register `a`. -/
theorem exec_of_writeFault {i : Instr} {f : FaultRecord} {a : Nat} {w : Word} {l : List Transaction} {s t : State}
    (wf : WellFormed i = true) (body : bodyOf i s.begin = .fault f t) (ran : Ran l s.begin t)
    (stored : StoredOrNot a w s.begin t) :
    exec i s = .next (t.takeFault f) ∧ FaultTaken f s (t.takeFault f) ∧ StoredOrNot a w s (t.takeFault f) ∧
      (t.takeFault f).trace = l ∧ Used l.length s (t.takeFault f) :=
  have ⟨taken, trace, used⟩ := ran.fault_done f
  ⟨exec_of_fault wf body, taken, ⟨stored.register, stored.others, stored.committed, stored.life⟩, trace, used⟩

/-! ## FIELD_WRITE of a ramp register with FCAL_EN 1 (70_reset_and_hazards.md R271) -/

/-- The share of the first part is the value's high bits (30_encoding.md R93). -/
theorem partOfValue_first {v : Nat} {p : Part} {ps : List Part} (fits : v < 2 ^ partsWidth (p :: ps)) :
    partOfValue v p ps = v / 2 ^ partsWidth ps ∧ partOfValue v p ps < 2 ^ partWidth p := by
  have share : v / 2 ^ partsWidth ps < 2 ^ partWidth p := by
    rw [partsWidth, Nat.add_comm, Nat.pow_add] at fits
    exact Nat.div_lt_of_lt_mul fits
  have eq : partOfValue v p ps = v / 2 ^ partsWidth ps := by
    rw [partOfValue, natBits, Nat.add_sub_cancel_left]
    exact Nat.mod_eq_of_lt share
  exact ⟨eq, eq ▸ share⟩

/-- A word into whose range data of the range's width was set has that data there (40_bitfield.md R113). -/
theorem bits_setBitsWord (old : Word) {low high d : Nat} (h₁ : low ≤ high) (h₂ : high ≤ 15) (fits : d < 2 ^ (high - low + 1)) :
    (setBitsWord old low high d).toNat / 2 ^ low % 2 ^ (high - low + 1) = d := by
  have get := getBitsWord_setBitsWord old low high d h₁ h₂
  rw [getBitsWord_eq _ _ _ h₁ h₂, natBits, Nat.mod_eq_of_lt fits] at get
  exact get

/-- The write of one part with FCAL_EN 1: a whole register faults at once, a partial part after its read. -/
theorem writePart_hazard {p : Part} {d : Nat} {s : State} (hp : PartOk p) (acc : accessible s.cfg p.addr)
    (gate : partFull p = true ∨ readbackOk s = true) (hazard : fcalHazard p.addr s = true) (fits : d < 2 ^ partWidth p)
    (transport : transportOk (partWrites p) s) :
    ∃ w t l, (if partFull p then writeRegister p.addr (BitVec.ofNat 16 d) s else modifyRegister p.addr p.lo p.hi d s) =
        .fault (.hazardFcal p.addr) t ∧ Ran l s t ∧ StoredOrNot p.addr w s t ∧ l.length = partWrites p ∧
      w.toNat / 2 ^ p.lo % 2 ^ partWidth p = d ∧
      (if partFull p then l = [writeTransaction p.addr w]
       else ∃ old, l = [readTransaction p.addr old, writeTransaction p.addr w] ∧
         (∀ u, regGet s.x p.addr = some u → old = u) ∧ ∀ i, i < p.lo ∨ p.hi < i → w.getLsbD i = old.getLsbD i) := by
  obtain ⟨ha, h₁, h₂⟩ := hp
  cases full : partFull p with
  | true =>
    have whole : p.hi = 15 ∧ p.lo = 0 := by simpa [partFull] using full
    have count : partWrites p = 1 := by simp [full]
    obtain ⟨t, write, ran, stored⟩ := memWrite_hazard p.addr (BitVec.ofNat 16 d) s ha hazard (count ▸ transport)
    have word : (BitVec.ofNat 16 d).toNat / 2 ^ p.lo % 2 ^ partWidth p = d := by
      simp only [partWidth, whole, BitVec.toNat_ofNat] at fits ⊢
      omega
    exact ⟨_, t, _, by rw [if_pos rfl, writeRegister_ok _ acc ha, write], ran, stored, count.symm, word, rfl⟩
  | false =>
    have count : partWrites p = 2 := by simp [full]
    obtain ⟨old, t, modify, known, ran, stored⟩ := modifyRegister_hazard (low := p.lo) (high := p.hi) (d := d) acc ha (by omega)
      (by simpa [full] using gate) hazard (count ▸ transport)
    rw [Int.toNat_natCast, Int.toNat_natCast] at ran stored
    have outside (i : Nat) (out : i < p.lo ∨ p.hi < i) : (setBitsWord old p.lo p.hi d).getLsbD i = old.getLsbD i := by
      rw [setBitsWord_getLsbD _ _ _ _ _ h₁ h₂, if_neg (by omega)]
    exact ⟨_, t, _, modify, ran, stored, count.symm, bits_setBitsWord old h₁ h₂ fits, old, rfl, known, outside⟩

/-! ## An FCAL_EN edge written by MODIFY that finds PLL_N inconsistent (70_reset_and_hazards.md R272) -/

/-- MODIFY of a known R0 that makes FCAL_EN rise while PLL_N is inconsistent reads R0 and faults at its write. -/
theorem modifyRegister_zero_inconsistent {low high : Int} {data : Nat} {old new : Word} {s : State} (cfg : paramsOk s.cfg = true)
    (acc : accessible s.cfg 0) (range : 0 ≤ low ∧ low ≤ high ∧ high ≤ 15) (readback : readbackOk s = true)
    (known : regGet s.x 0 = some old) (transport : transportOk 2 s) (word : new = setBitsWord old low.toNat high.toNat data)
    (noReset : new[1] = false) (wasClear : old[3] = false) (fcal : new[3] = true) (inconsistent : s.nConsistent = false) :
    ∃ t, modifyRegister 0 low high data s = .fault .hazardOrder t ∧
      Ran [readTransaction 0 old, writeTransaction 0 new] s t ∧ StoredOrNot 0 new s t ∧ t.nConsistent = false := by
  obtain ⟨w, s₁, looked, read, modify⟩ := modifyRegister_read (d := data) acc (by omega) range readback
    (transportOk_mono transport (by omega))
  simp only [known] at read
  obtain ⟨rfl, _⟩ := read
  rw [← word] at modify
  have edge : EdgeKnown true new s₁ := .inl ⟨w, by rw [looked.device.x, known], by simp [wasClear, fcal]⟩
  obtain ⟨t, write, ran, stored, inconsistent'⟩ := memWrite_zero_inconsistent new s₁ _ (looked.ran.controller.cfg ▸ cfg)
    (looked.ran.transportOk transport (by simp)) (edgeOf_of_edgeKnown edge) noReset
    (looked.device.nConsistent.trans inconsistent)
  exact ⟨t, modify.trans write, looked.ran.trans ran, looked.storedOrNot stored, inconsistent'⟩

/-! ## ARM up to its edge (44_lifecycle.md R218) -/

/-- FCAL_EN set to what it is leaves the word. -/
theorem withFcalEn_self {w : Word} {b : Bool} (h : w[3] = b) : withFcalEn w b = w :=
  BitVec.eq_of_getLsbD_eq fun i _ => by
    rw [withFcalEn_getLsbD]
    split_ifs with fcal
    · subst fcal
      exact h.symm
    · rfl

/-- A read of a known register with readback reliable answers its word (20_memory.md R67). -/
theorem memRead_known {a : Nat} {w : Word} {s : State} (ha : a < 110) (readback : readbackOk s = true)
    (known : regGet s.x a = some w) (transport : transportOk 1 s) :
    ∃ t, memRead a s = .ok w t ∧ Looked [readTransaction a w] s t := by
  obtain ⟨v, t, read, looked, value⟩ := memRead_spec a s (by omega) transport
  simp only [ha, readback, known, Option.isSome_some, and_self, if_true, Option.some.injEq] at value
  obtain ⟨rfl, _⟩ := value
  exact ⟨t, read, looked⟩

/-- FIELD_READ FCAL_EN of a known R0 is one read of R0 and answers bit 3. -/
theorem readField_fcalEn {w : Word} {s : State} (acc : accessible s.cfg 0) (readback : readbackOk s = true)
    (known : regGet s.x 0 = some w) (transport : transportOk 1 s) :
    ∃ t, readField .FCAL_EN s = .ok w[3].toNat t ∧ Looked [readTransaction 0 w] s t := by
  obtain ⟨t, read, looked⟩ := memRead_known (by omega) readback known transport
  have bit : w.toNat / 2 ^ 3 % 2 = w[3].toNat := (Nat.toNat_testBit w.toNat 3).symm
  refine ⟨t, ?_, looked⟩
  rw [readField, fieldParts, readParts, readRegister_ok acc, read, andThen_ok,
    getBitsOp_ok (low := 3) (high := 3) w t le_rfl (by omega), andThen_ok, readParts]
  simp [← bit]

/-- `u` is `s` with FCAL_EN 0 in R0, which held `w`, before ARM's last MODIFY: if FCAL_EN was 1 it has been cleared, a write that
the lifecycle follows (44_lifecycle.md R210, R218). -/
structure FcalEnCleared (w : Word) (s u : State) : Prop where
  register : regGet u.x 0 = some (withFcalEn w false)
  others : OthersKept [0] s u
  committed : u.committed = s.committed
  nConsistent : u.nConsistent = s.nConsistent
  life : u.life = if w[3] then lifeAfterPlainWrite s.life else s.life
  readback : readbackOk u = true

/-- Where FCAL_EN is 0, reads are all that comes before ARM's last MODIFY. -/
theorem Looked.fcalEnCleared {w : Word} {l : List Transaction} {s u : State} (looked : Looked l s u) (clear : w[3] = false)
    (known : regGet s.x 0 = some w) (readback : Machine.readbackOk s = true) : FcalEnCleared w s u where
  register := by rw [looked.device.x, known, withFcalEn_self clear]
  others _ _ := by rw [looked.device.x]
  committed := looked.device.committed
  nConsistent := looked.device.nConsistent
  life := by rw [looked.life, clear, if_neg Bool.false_ne_true]
  readback := looked.readbackOk.trans readback

/-- A write of R0 that clears FCAL_EN and changes nothing else is no edge and keeps readback reliable. -/
theorem fcalEnCleared_of_r0Written {w : Word} {s u : State} (written : R0Written false (withFcalEn w false) s u)
    (fcal : w[3] = true) (noReset : w[1] = false) (known : regGet s.x 0 = some w) (readback : readbackOk s = true) :
    FcalEnCleared w s u := by
  obtain ⟨notLocked, notReset, w', known', muxoutClear⟩ := (readbackOk_iff s).1 readback
  obtain rfl : w = w' := Option.some.inj (known.symm.trans known')
  have noReset' : (withFcalEn w false)[1] = false := by rw [withFcalEn_reset, noReset]
  have muxoutClear' : (withFcalEn w false)[2] = false := by rw [withFcalEn_muxout, muxoutClear]
  obtain ⟨register, others, consistent⟩ := written.stored noReset'
  exact {
    register, others
    committed := written.kept noReset' rfl
    nConsistent := consistent
    life := by rw [r0Written_life_plain written noReset' notLocked, if_pos fcal]
    readback := readbackOk_of_r0Written written noReset' muxoutClear' (fun locked => absurd locked notLocked) notReset }

/-- The transactions of ARM before its last MODIFY (44_lifecycle.md R218). -/
def armFrames (w : Word) : List Transaction :=
  if w[3] then [readTransaction 0 w, readTransaction 0 w, writeTransaction 0 (withFcalEn w false)] else [readTransaction 0 w]

/-- ARM reads FCAL_EN, clears it if it is 1, and is then the MODIFY that sets it. -/
theorem armOp_clears {w : Word} {s : State} (cfg : paramsOk s.cfg = true) (acc : accessible s.cfg 0)
    (readback : readbackOk s = true) (known : regGet s.x 0 = some w) (noReset : w[1] = false) (transport : transportOk 5 s) :
    ∃ u, armOp s = modifyRegister 0 3 3 1 u ∧ Ran (armFrames w) s u ∧ FcalEnCleared w s u := by
  obtain ⟨s₁, read, looked⟩ := readField_fcalEn acc readback known (transportOk_mono transport (by omega))
  have op : armOp s =
      (if w[3] = true then modifyRegister 0 3 3 0 s₁ else .ok () s₁).andThen fun _ u => modifyRegister 0 3 3 1 u := by
    rw [armOp, checkReadback_ok readback, andThen_ok, read, andThen_ok]
    simp only [Bool.toNat_eq_one]
  rw [op, armFrames]
  cases fcal : w[3] with
  | false => exact ⟨s₁, rfl, looked.ran, looked.fcalEnCleared fcal known readback⟩
  | true =>
    have cfg₁ : s₁.cfg = s.cfg := looked.ran.controller.cfg
    obtain ⟨u, clear, written, ran, _⟩ := modifyFcalEn_spec false (cfg₁ ▸ cfg) (cfg₁ ▸ acc) (looked.readbackOk.trans readback)
      (looked.device.x ▸ known) nofun (looked.ran.transportOk transport (by simp))
    rw [fcal] at written
    exact ⟨u, by rw [if_pos rfl]; exact congrArg (Reply.andThen · _) clear, looked.ran.trans ran,
      fcalEnCleared_of_r0Written (looked.r0Written written) fcal noReset known readback⟩

end Sys2Proof.Machine

namespace Sys2Proof.Proofs

open Sys2Proof.Machine Sys2Proof.Safety

/-- Settles O13: both forms are one write transaction, and `memWrite_hazard` says how it ends. -/
theorem rampWriteWithFcalSetFaults : Obligations.RampWriteWithFcalSetFaults := by
  intro s a w i ha notReserved ramp fcalSet transport form
  have acc : accessible s.begin.cfg a := ⟨by omega, notReserved⟩
  obtain ⟨wf, body⟩ := bodyOf_write acc ha form
  obtain ⟨t, write, ran, stored⟩ := memWrite_hazard a w s.begin ha (fcalHazard_of_set ramp fcalSet) transport
  rw [write, andThen_fault] at body
  exact ⟨_, exec_of_writeFault wf body ran stored⟩

/-- Settles O14: MODIFY's checks pass and its read succeeds; its write is that of a ramp register with FCAL_EN 1. -/
theorem rampModifyWithFcalSetFaults : Obligations.RampModifyWithFcalSetFaults := by
  intro s a low high data ha notReserved ramp range readback fcalSet transport
  have acc : accessible s.begin.cfg a := ⟨by omega, notReserved⟩
  obtain ⟨old, t, modify, known, ran, stored⟩ :=
    modifyRegister_hazard (s := s.begin) (d := data) acc ha range readback (fcalHazard_of_set ramp fcalSet) transport
  have body : bodyOf (.modify a low high data) s.begin = .fault (.hazardFcal a) t := by rw [bodyOf, modify, andThen_fault]
  obtain ⟨run, taken, stored', trace, used⟩ := exec_of_writeFault rfl body ran stored
  exact ⟨_, old, _, run, taken, known, fun i _ => setBitsWord_getLsbD _ _ _ _ i (by omega) (by omega), stored', trace, used⟩

/-- Settles O15: the checks of FIELD_WRITE pass, and its first part is written with FCAL_EN 1. -/
theorem rampFieldWriteWithFcalSetFaults : Obligations.RampFieldWriteWithFcalSetFaults := by
  intro s f v p ps cfg layout acc ramp fcalSet nonneg fits gate transport
  have layout' : fieldParts s.begin.cfg f = p :: ps := layout
  have hp : PartOk p := fieldParts_ok _ cfg f p (layout ▸ List.mem_cons_self)
  have fitsNat : v.toNat < 2 ^ partsWidth (p :: ps) := by
    rw [fieldWidth, layout] at fits
    zify
    omega
  have partGate : partFull p = true ∨ readbackOk s.begin = true :=
    gate.imp_left fun full => List.all_eq_true.1 full p (layout ▸ List.mem_cons_self)
  obtain ⟨share, shareFits⟩ := partOfValue_first fitsNat
  obtain ⟨w, t, l, write, ran, stored, len, word, frames⟩ := writePart_hazard (s := s.begin) hp acc partGate
    (fcalHazard_of_set ramp fcalSet) shareFits transport
  have body : bodyOf (.fieldWrite f v) s.begin = .fault (.hazardFcal p.addr) t := by
    rw [bodyOf, writeField_checked (s := s.begin) ⟨nonneg, fits⟩ gate, layout', writeParts, write, andThen_fault, andThen_fault]
  obtain ⟨run, taken, stored', trace, used⟩ := exec_of_writeFault rfl body ran stored
  exact ⟨_, w, run, taken, word.trans share, stored', by rw [trace]; exact frames, len ▸ used⟩

/-- Settles O20: WRITE and the write frame are one write of R0, MODIFY and FIELD_WRITE one MODIFY of it; each faults at its edge. -/
theorem edgeWithInconsistentDividerFaults : Obligations.EdgeWithInconsistentDividerFaults := by
  intro s v i cfg acc noReset inconsistent
  constructor
  · intro transport edge form
    obtain ⟨wf, body⟩ := bodyOf_write (s := s.begin) acc (by omega) form
    obtain ⟨t, write, ran, stored, inconsistent'⟩ :=
      memWrite_zero_inconsistent v s.begin _ cfg transport (edgeOf_of_edgeKnown edge) noReset inconsistent
    rw [write, andThen_fault] at body
    obtain ⟨run, taken, stored', trace, used⟩ := exec_of_writeFault wf body ran stored
    exact ⟨_, run, taken, stored', inconsistent', trace, used⟩
  · intro low high data old range readback known wasClear fcal transport bits form
    have word : v = setBitsWord old low.toNat high.toNat data := eq_setBitsWord (by omega) (by omega) bits
    obtain ⟨wf, body⟩ : WellFormed i = true ∧
        bodyOf i s.begin = (modifyRegister 0 low high data s.begin).andThen fun _ u => .ok .unit u := by
      refine bodyOf_modifyR0 (s := s.begin) readback (form.imp_right ?_)
      rintro ⟨rfl, rfl, rfl, rfl⟩
      exact ⟨by omega, .inr (.inr (.inr (.inl ⟨rfl, rfl, rfl⟩)))⟩
    obtain ⟨t, modify, ran, stored, inconsistent'⟩ := modifyRegister_zero_inconsistent (s := s.begin) cfg acc range readback known
      transport word noReset wasClear fcal inconsistent
    rw [modify, andThen_fault] at body
    obtain ⟨run, taken, stored', trace, used⟩ := exec_of_writeFault wf body ran stored
    exact ⟨_, run, taken, stored', inconsistent', trace, used⟩

/-- Settles O47: ARM's last MODIFY is the edge, over an R0 with FCAL_EN 0; the invariant gives a clear RESET bit. -/
theorem armWithInconsistentDividerFaults : Obligations.ArmWithInconsistentDividerFaults := by
  intro s w inv acc readback known inconsistent transport
  obtain ⟨notLocked, _, _⟩ := (readbackOk_iff s).1 readback
  have noReset : w[1] = false := inv.r0_reset_clear notLocked w known
  obtain ⟨u, op, ran, cleared⟩ := armOp_clears (s := s.begin) inv.cfg_ok acc readback known noReset transport
  have cfg : u.cfg = s.cfg := ran.controller.cfg
  have framesLength : (armFrames w).length = if w[3] then 3 else 1 := by
    rw [armFrames]
    cases w[3] <;> rfl
  obtain ⟨t, modify, ran', stored, inconsistent'⟩ := modifyRegister_zero_inconsistent (low := 3) (high := 3) (data := 1)
    (new := withFcalEn w true) (cfg ▸ inv.cfg_ok) (cfg ▸ acc) (by omega) cleared.readback cleared.register
    (ran.transportOk transport (by rw [framesLength]; split_ifs <;> omega)) (withFcalEn_withFcalEn w false true).symm
    (by rw [withFcalEn_reset, noReset]) (withFcalEn_fcalEn w false) (withFcalEn_fcalEn w true)
    (cleared.nConsistent.trans inconsistent)
  have body : bodyOf .arm s.begin = .fault .hazardOrder t := by rw [bodyOf, op, modify, andThen_fault]
  have all := ran.trans ran'
  obtain ⟨taken, trace, used⟩ := all.fault_done .hazardOrder
  refine ⟨_, withFcalEn w false, withFcalEn w true, exec_of_fault rfl body, taken, fun i _ => withFcalEn_getLsbD w false i,
    fun i _ => withFcalEn_getLsbD w true i, ?register, ?others, stored.committed.trans cleared.committed, inconsistent',
    stored.life.trans cleared.life, ?trace, ?used⟩
  case register => exact stored.register.imp And.left fun kept => kept.1.trans cleared.register
  case others => exact fun b other => (stored.others b other).trans (cleared.others b other)
  case trace =>
    rw [trace, armFrames]
    cases fcal : w[3] with
    | false => rw [withFcalEn_self fcal]; rfl
    | true => rfl
  case used =>
    have len : (armFrames w ++ [readTransaction 0 (withFcalEn w false), writeTransaction 0 (withFcalEn w true)]).length =
        if w[3] then 5 else 3 := by
      rw [List.length_append, framesLength]
      split_ifs <;> rfl
    exact len ▸ used

/-- Settles O51: the fields of `State.powerUp`; readback is locked, and the default parameters list no content. -/
theorem powerUpState : Obligations.PowerUpState :=
  fun _ _ => ⟨rfl, rfl, rfl, rfl, rfl, rfl, rfl, regGet_nil⟩

end Sys2Proof.Proofs
